-- ==== Sys2Proof/Word.lean ====
section
/-! DEFINITION. The widths the spec fixes (00_scope.md R7, R10): the 64-bit word of the window, of the command word and of
both halves of a decimal value; the byte of a text; the index of a decimal register. -/

namespace Sys2Proof

/-- 64 bits: a host register, a command word, a whole word (read with `toInt`, the spec's `sint_64`) or a fraction word
(read with `toNat`, the spec's `uint_64`). R7, R10, R52. -/
abbrev Word := BitVec 64

/-- One byte of a text. R12, R33. -/
abbrev Byte := BitVec 8

/-- A text: a finite sequence of bytes. R12. -/
abbrev Text := List Byte

/-- The index of a decimal register D0 .. D7, the value of a 3-bit field RD, RS1 or RS2. R20, R82. -/
abbrev DIx := Fin 8

/-- A byte offset in the 4096-byte register window, 0x000 to 0xFFF. R50. -/
abbrev Offset := BitVec 12

end Sys2Proof
end

