-- ==== Sys2Proof/Syntax.lean ====
section
/-! DEFINITION. The commands of RDEC: one constructor per row of spec/opcode_table.json (30_encoding.md R84). -/

namespace Sys2Proof

/-- A command. The operands are the register indexes its fields RD, RS1 and RS2 name (R82); no command has an immediate
(R83). -/
inductive Instr where
  /-- DADD rd, rs1, rs2: addition. 41_addsub.md R100. -/
  | dadd (rd rs1 rs2 : DIx)
  /-- DSUB rd, rs1, rs2: subtraction. 41_addsub.md R110. -/
  | dsub (rd rs1 rs2 : DIx)
  /-- DMUL rd, rs1, rs2: multiplication. 42_mul.md R130. -/
  | dmul (rd rs1 rs2 : DIx)
  /-- DPARSE rd: text to value. 43_text.md R160. -/
  | dparse (rd : DIx)
  /-- DFMT rs1: value to text. 43_text.md R170. -/
  | dfmt (rs1 : DIx)
  deriving DecidableEq, Repr

end Sys2Proof
end

