-- ==== Sys2Proof/Decode.lean ====
section
/-! DEFINITION. The command word (30_encoding.md R80 to R90): its fields, the opcode map as match and mask, the decoder (total:
every 64-bit word is one row or illegal, R87), and the encoder of the assembler's table (R88). -/

namespace Sys2Proof

/-- One row of the opcode map: the word is the row's when `c AND mask = match`. R84. -/
structure OpRow where
  bits : Word
  mask : Word
  deriving DecidableEq, Repr

def OpRow.matches (r : OpRow) (c : Word) : Bool := c &&& r.mask == r.bits

/-- The five rows of R84. -/
def rowDadd : OpRow := ⟨0x0000000000000001#64, 0xFFFFFFFFFFF888FF#64⟩
def rowDsub : OpRow := ⟨0x0000000000000002#64, 0xFFFFFFFFFFF888FF#64⟩
def rowDmul : OpRow := ⟨0x0000000000000003#64, 0xFFFFFFFFFFF888FF#64⟩
def rowDparse : OpRow := ⟨0x0000000000000010#64, 0xFFFFFFFFFFFFF8FF#64⟩
def rowDfmt : OpRow := ⟨0x0000000000000011#64, 0xFFFFFFFFFFFF8FFF#64⟩

/-- The whole opcode map. R84. -/
def opcodeMap : List OpRow := [rowDadd, rowDsub, rowDmul, rowDparse, rowDfmt]

/-- The 3-bit register field whose lowest bit is bit `lo`. R81, R82. -/
def regField (c : Word) (lo : Nat) : DIx := ⟨(c.extractLsb' lo 3).toNat, (c.extractLsb' lo 3).isLt⟩

/-- RD, bits 10:8. R81. -/
def fieldRd (c : Word) : DIx := regField c 8
/-- RS1, bits 14:12. R81. -/
def fieldRs1 (c : Word) : DIx := regField c 12
/-- RS2, bits 18:16. R81. -/
def fieldRs2 (c : Word) : DIx := regField c 16
/-- OPC, bits 7:0. R81. -/
def fieldOpc (c : Word) : Byte := c.extractLsb' 0 8

/-- Why a word is illegal, in the order of the list of R86. All of them have the one outcome IllegalCommand (R202); the
names are the model's own (DESIGN CHOICE, log 15). -/
inductive DecodeError where
  /-- OPC is none of 0x01, 0x02, 0x03, 0x10, 0x11. -/
  | unknownOpcode
  /-- A 1 in bits 63:20, 19, 15 or 11. -/
  | reservedBitSet
  /-- A non-zero RS1 or RS2 in DPARSE, or RD or RS2 in DFMT. -/
  | unusedFieldSet
  deriving DecidableEq, Repr

/-- The five assigned opcode values. R84. -/
def assignedOpcode (opc : Byte) : Bool := opc == 0x01#8 || opc == 0x02#8 || opc == 0x03#8 || opc == 0x10#8 || opc == 0x11#8

/-- Which case of R86 an illegal word is. -/
def illegalReason (c : Word) : DecodeError :=
  if !assignedOpcode (fieldOpc c) then .unknownOpcode
  else if c &&& 0xFFFFFFFFFFF88800#64 != 0#64 then .reservedBitSet
  else .unusedFieldSet

/-- The decoder: a function of the word (R85), total on all 2^64 words (R87). -/
def decode (c : Word) : Except DecodeError Instr :=
  if rowDadd.matches c then .ok (.dadd (fieldRd c) (fieldRs1 c) (fieldRs2 c))
  else if rowDsub.matches c then .ok (.dsub (fieldRd c) (fieldRs1 c) (fieldRs2 c))
  else if rowDmul.matches c then .ok (.dmul (fieldRd c) (fieldRs1 c) (fieldRs2 c))
  else if rowDparse.matches c then .ok (.dparse (fieldRd c))
  else if rowDfmt.matches c then .ok (.dfmt (fieldRs1 c))
  else .error (illegalReason c)

/-- A register index in the field whose lowest bit is bit `lo`. R81, R88. -/
def regBits (i : DIx) (lo : Nat) : Word := BitVec.ofNat 64 i.val <<< lo

/-- The command word the assembler emits. R88. -/
def encode : Instr → Word
  | .dadd rd rs1 rs2 => 0x01#64 ||| regBits rd 8 ||| regBits rs1 12 ||| regBits rs2 16
  | .dsub rd rs1 rs2 => 0x02#64 ||| regBits rd 8 ||| regBits rs1 12 ||| regBits rs2 16
  | .dmul rd rs1 rs2 => 0x03#64 ||| regBits rd 8 ||| regBits rs1 12 ||| regBits rs2 16
  | .dparse rd => 0x10#64 ||| regBits rd 8
  | .dfmt rs1 => 0x11#64 ||| regBits rs1 12

/-- The word of an opcode-table row of `nbits` bits as a command word: bit 0 of `w` is bit 0 of the command word, and every
bit from `nbits` up is 0. A command word is one 64-bit value (R80), so there is no byte order to apply (log 20). -/
def tableWord (nbits w : Nat) : Word := BitVec.ofNat 64 (w % 2 ^ nbits)

/-- What the decoder reads from an opcode-table word. -/
def decodeTableWord (nbits w : Nat) : Option Instr := (decode (tableWord nbits w)).toOption

end Sys2Proof
end

