-- ==== Sys2Proof/Config.lean ====
section
/-! DEFINITION. The constants the spec fixes or decides (00_scope.md R7, R8, R9) and its open parameters (RDEC_BASE, the
latencies LAT_*, RESET_KIND), which a model takes as arguments (93_implementation_defined.md I3, I4, I5). -/

namespace Sys2Proof.Config

/-- DECIMAL_MAX = 10^19, written `D` in the spec's pseudocode. R7, R9. -/
abbrev decimalMax : Nat := 10000000000000000000

/-- IMIN = -2^63. R9. -/
abbrev iMin : Int := -9223372036854775808

/-- IMAX = 2^63 - 1. R9. -/
abbrev iMax : Int := 9223372036854775807

/-- UMAX = 2^64 - 1. R9. -/
abbrev uMax : Nat := 18446744073709551615

/-- TBUF_LEN, the size of the text buffer in bytes. R8, R33. -/
abbrev tbufLen : Nat := 64

/-- The six open latencies of R250, in clock cycles from issue to completion. -/
structure Latencies where
  add   : Nat
  sub   : Nat
  mul   : Nat
  parse : Nat
  fmt   : Nat
  ill   : Nat
  deriving DecidableEq, Repr

/-- RESET_KIND of R240: whether RST acts at a clock edge. No rule depends on it. -/
inductive ResetKind where
  | synchronous
  | asynchronous
  deriving DecidableEq, Repr

/-- The open parameters of R8: where the window lies in the host's address space, the latencies, the kind of reset. -/
structure Platform where
  base      : Nat
  lat       : Latencies
  resetKind : ResetKind
  deriving DecidableEq, Repr

/-- The host address of a window offset. R51. -/
def Platform.address (p : Platform) (off : Offset) : Nat := p.base + off.toNat

/-- The window offset a host address reaches, none where the address lies outside the window. R51, R216. -/
def Platform.offset? (p : Platform) (addr : Nat) : Option Offset :=
  if p.base ≤ addr ∧ addr < p.base + 4096 then some (BitVec.ofNat 12 (addr - p.base)) else none

end Sys2Proof.Config
end

