-- ==== Sys2Proof/Machine/State.lean ====
section
/-! DEFINITION. The state of RDEC as plain data (10_state.md R44, 70_reset_and_hazards.md R258), the reasons a step can stop,
and the state after reset (R241). INVENTORY.md lists every field with its rule. -/

namespace Sys2Proof.Machine

/-- A decimal value as a pair: `w` the whole word (bits 127:64 of a decimal register), `f` the fraction word (bits 63:0).
R10, R22. -/
structure Pair where
  w : Word
  f : Word
  deriving DecidableEq, Repr

/-- A stored unit and whether the host or a command has written it since the last reset. The value is there from reset on
(logs 1, 2); the mark is what R243 and R261 speak of. -/
structure Held (α : Type) where
  val     : α
  written : Bool
  deriving DecidableEq, Repr

/-- A decimal register: two 64-bit host registers DnW and DnF. R20, R22, R58. -/
structure DReg where
  whole : Held Word
  frac  : Held Word
  deriving DecidableEq, Repr

/-- The outcome of a command. R16, R201. -/
inductive CmdOutcome where
  | ok
  | parseError
  | arithmeticOverflow
  | illegalCommand
  deriving DecidableEq, Repr

/-- STATUS, field by field; its reserved bits have no storage. R37. -/
structure Status where
  busy : Bool
  err  : CmdOutcome
  done : Bool
  perr : Bool
  ovf  : Bool
  ill  : Bool
  drop : Bool
  deriving DecidableEq, Repr

/-- The in-flight command: the command word and the operand values read at issue. R42, R251. A field that R251 does not
record for the command at hand holds zero or nothing and is never read (DESIGN CHOICE, log 11). -/
structure InFlight where
  word : Word
  a    : Pair
  b    : Pair
  len  : BitVec 8
  text : Text
  deriving DecidableEq, Repr

/-- What reaches the unit, in the order it happens: host accesses (R53, R54), the completion of the command in flight (R252),
changes of the reset input (R240). -/
inductive PortEvent where
  /-- MemRead(off, width). -/
  | read (off : Offset) (width : Nat)
  /-- MemWrite(off, width, v). -/
  | write (off : Offset) (width : Nat) (v : Word)
  /-- A place between two host accesses where the unit takes its step, if it has one (R62, R258). -/
  | completion
  /-- The reset input goes to this level. -/
  | rst (asserted : Bool)
  deriving DecidableEq, Repr

/-- One host read: the offset and the value returned. R19, R53. -/
structure HostRead where
  off   : Offset
  value : Word
  deriving DecidableEq, Repr

/-- A unit of storage that R243 tracks: one word of a decimal register, or one byte of TBUF. -/
inductive Loc where
  | whole (n : DIx)
  | frac  (n : DIx)
  | byte  (k : Fin 64)
  deriving DecidableEq, Repr

/-- Why the machine stops. -/
inductive Fault where
  /-- A host access of a width other than 8, or at an offset not a multiple of 8 (R54, R209). Raised by a host step. Safe: the
  spec's own words are that a model records it and does not continue. -/
  | hostAccessFault (off : Offset) (width : Nat) (isWrite : Bool)
  deriving DecidableEq, Repr

/-- Why a step has no meaning. -/
inductive Refusal where
  /-- The instruction has no meaning in this model yet. Raised by an arm of `exec` only; no arm of this model does. Safe. -/
  | notModelled (mnemonic : String)
  deriving DecidableEq, Repr

/-- The whole state. R44, with the reset input of R240 and the model's own fields `unwrittenUse`, `port` and `reads`. -/
structure State where
  /-- D0 .. D7. R20. -/
  d            : Vector DReg 8
  /-- TBUF[0] .. TBUF[63]. R33. -/
  tbuf         : Vector (Held Byte) 64
  /-- TLEN bits 7:0. R34. -/
  tlen         : BitVec 8
  /-- STATUS. R37. -/
  status       : Status
  /-- CTRL bit 0, IE. R41. -/
  ie           : Bool
  /-- The command in flight. R42. -/
  inflight     : Option InFlight
  /-- The reset input RST is asserted. R240. -/
  rst          : Bool
  /-- UninitializedRead, recorded: the first location that a host read or an issue used although nothing had written it since
  reset. The machine goes on with the value named at reset; the run is no longer one that R260 counts. R243, R260, R261; log 3. -/
  unwrittenUse : Option Loc
  /-- What reaches the unit from here on, first event first (log 4). -/
  port         : List PortEvent
  /-- What the host has read so far, newest first: the observation of the run (R19, log 5). -/
  reads        : List HostRead
  deriving DecidableEq, Repr

/-- A pair by its integers: `bits_64` of each. R10. -/
def Pair.ofInts (w : Int) (f : Nat) : Pair := ⟨BitVec.ofInt 64 w, BitVec.ofNat 64 f⟩

/-- A decimal register after reset: the spec gives no value; zero, not written (DESIGN CHOICE, log 1). -/
def DReg.reset : DReg := ⟨⟨0#64, false⟩, ⟨0#64, false⟩⟩

/-- STATUS after reset. R241. -/
def Status.reset : Status := ⟨false, .ok, false, false, false, false, false⟩

/-- The machine right after reset: R241 and R44; D0 .. D7 and TBUF as logs 1 and 2 name them, nothing written (R261). -/
def State.reset : State where
  d            := Vector.replicate 8 DReg.reset
  tbuf         := Vector.replicate 64 ⟨0#8, false⟩
  tlen         := 0#8
  status       := Status.reset
  ie           := false
  inflight     := none
  rst          := false
  unwrittenUse := none
  port         := []
  reads        := []

end Sys2Proof.Machine
end

