-- ==== Sys2Proof/Machine/Flags.lean ====
section
/-! DEFINITION. Signs, carries and overflow flags of the arithmetic (00_scope.md R11, 41_addsub.md R101 to R104), and every
computation of the STATUS, CTRL and IRQ bits (10_state.md R37 to R41, 60_exceptions.md R201, R203, R210). -/

namespace Sys2Proof.Machine

open Sys2Proof.Config

/-- `neg(w)`: w < 0. R11, R26. -/
def neg (w : Word) : Bool := decide (w.toInt < 0)

/-- `sgn(w)`: -1 when w < 0 and +1 otherwise, so sgn(0) = +1. R11. -/
def sgn (w : Word) : Int := if neg w then -1 else 1

/-- `overflowing_add`: the sum modulo 2^64, and whether it wrapped. R11. -/
def overflowingAdd (x y : Word) : Word × Bool := (x + y, decide (2 ^ 64 ≤ x.toNat + y.toNat))

/-- `overflowing_sub`: the difference modulo 2^64, and whether it borrowed. R11. -/
def overflowingSub (x y : Word) : Word × Bool := (x - y, decide (x.toNat < y.toNat))

/-- The carry into the whole word: sgn(aw) when the selected fraction operation wrapped, else 0. R103. -/
def carry (o : Bool) (aw : Word) : Int := if o then sgn aw else 0

/-- An exact integer fits a signed 64-bit word. R104, R113. -/
def inRange (v : Int) : Bool := decide (iMin ≤ v ∧ v ≤ iMax)

/-- The ERR code of an outcome, STATUS bits 2:1. R37, R201. -/
def CmdOutcome.code : CmdOutcome → BitVec 2
  | .ok => 0#2
  | .parseError => 1#2
  | .arithmeticOverflow => 2#2
  | .illegalCommand => 3#2

/-- STATUS as the host reads it: bit 0 BUSY, 2:1 ERR, 4 DONE, 5 PERR, 6 OVF, 7 ILL, 8 DROP; bit 3 and bits 63:9 read 0.
R37. -/
def Status.toWord (s : Status) : Word :=
  0#55 ++ BitVec.ofBool s.drop ++ BitVec.ofBool s.ill ++ BitVec.ofBool s.ovf ++ BitVec.ofBool s.perr
    ++ BitVec.ofBool s.done ++ 0#1 ++ s.err.code ++ BitVec.ofBool s.busy

/-- A host write of `v` to STATUS: each of DONE, PERR, OVF, ILL, DROP whose bit in `v` is 1 is cleared; nothing else changes.
R39. -/
def Status.writeOneToClear (s : Status) (v : Word) : Status :=
  { s with
    done := s.done && !v.getLsbD 4
    perr := s.perr && !v.getLsbD 5
    ovf  := s.ovf && !v.getLsbD 6
    ill  := s.ill && !v.getLsbD 7
    drop := s.drop && !v.getLsbD 8 }

/-- What issue does to STATUS: BUSY is set, nothing else changes. R251. -/
def Status.issued (s : Status) : Status := { s with busy := true }

/-- What a dropped write does to STATUS: DROP is set, nothing else changes. R208, R253. -/
def Status.dropped (s : Status) : Status := { s with drop := true }

/-- What a completion with outcome `o` does to STATUS: ERR takes its code, the sticky bit of its kind is set, DONE is set, BUSY
is cleared. R203, R40. -/
def Status.completed (s : Status) (o : CmdOutcome) : Status :=
  { s with
    busy := false
    err  := o
    done := true
    perr := s.perr || o == .parseError
    ovf  := s.ovf || o == .arithmeticOverflow
    ill  := s.ill || o == .illegalCommand }

/-- CTRL as the host reads it: IE in bit 0, bits 63:1 read 0. R41. -/
def State.ctrlWord (s : State) : Word := 0#63 ++ BitVec.ofBool s.ie

/-- The interrupt output: IRQ = CTRL.IE AND STATUS.DONE, computed and not stored (log 19). R210. -/
def State.irq (s : State) : Bool := s.ie && s.status.done

end Sys2Proof.Machine
end

