-- ==== Sys2Proof/Machine/Operands.lean ====
section
/-! DEFINITION. Every operand form of RDEC: a decimal register read as a pair (00_scope.md R11, 30_encoding.md R82), the implicit text
of DPARSE (43_text.md R160), the record taken at issue (70_reset_and_hazards.md R251), and the storage a use reads (R243). -/

namespace Sys2Proof.Machine

/-- Decimal register Di with its written marks. R20. -/
def State.reg (s : State) (i : DIx) : DReg := s.d[i]

/-- TBUF byte k with its written mark. R33. -/
def State.cell (s : State) (k : Fin 64) : Held Byte := s.tbuf[k]

/-- `d[i]`: decimal register Di as a pair. R11. -/
def State.pair (s : State) (i : DIx) : Pair := ⟨(s.reg i).whole.val, (s.reg i).frac.val⟩

/-- `TBUF[k]`. R11, R33. -/
def State.byte (s : State) (k : Fin 64) : Byte := (s.cell k).val

/-- TBUF[0 .. n - 1]; all 64 bytes when n is larger. R33, R160. -/
def State.text (s : State) (n : Nat) : Text := (s.tbuf.toList.take n).map Held.val

/-- Whether a location has been written since the last reset. R243. -/
def State.isWritten (s : State) : Loc → Bool
  | .whole n => (s.reg n).whole.written
  | .frac n => (s.reg n).frac.written
  | .byte k => (s.cell k).written

/-- The zero pair: what stands in the record where R251 records no pair (log 11). -/
def Pair.zero : Pair := ⟨0#64, 0#64⟩

/-- The in-flight record that issue of command word `c` takes from the state. R251. -/
def State.capture (s : State) (c : Word) : InFlight :=
  match decode c with
  | .ok (.dadd _ rs1 rs2) => ⟨c, s.pair rs1, s.pair rs2, 0#8, []⟩
  | .ok (.dsub _ rs1 rs2) => ⟨c, s.pair rs1, s.pair rs2, 0#8, []⟩
  | .ok (.dmul _ rs1 rs2) => ⟨c, s.pair rs1, s.pair rs2, 0#8, []⟩
  | .ok (.dparse _) => ⟨c, Pair.zero, Pair.zero, s.tlen, if s.tlen.toNat ≤ Config.tbufLen then s.text s.tlen.toNat else []⟩
  | .ok (.dfmt rs1) => ⟨c, s.pair rs1, Pair.zero, 0#8, []⟩
  | .error _ => ⟨c, Pair.zero, Pair.zero, 0#8, []⟩

/-- Both words of a decimal register. R243. -/
def pairLocs (i : DIx) : List Loc := [.whole i, .frac i]

/-- The storage that issue of command word `c` reads. R243, R251; an illegal word reads no operand (R202). -/
def State.operandLocs (s : State) (c : Word) : List Loc :=
  match decode c with
  | .ok (.dadd _ rs1 rs2) => pairLocs rs1 ++ pairLocs rs2
  | .ok (.dsub _ rs1 rs2) => pairLocs rs1 ++ pairLocs rs2
  | .ok (.dmul _ rs1 rs2) => pairLocs rs1 ++ pairLocs rs2
  | .ok (.dparse _) =>
    if s.tlen.toNat ≤ Config.tbufLen then ((List.finRange 64).take s.tlen.toNat).map Loc.byte else []
  | .ok (.dfmt rs1) => pairLocs rs1
  | .error _ => []

/-- The first location of a use that has not been written since the last reset, if there is one. R243. -/
def State.firstUnwritten (s : State) (locs : List Loc) : Option Loc := locs.find? fun l => !s.isWritten l

/-- A use of storage: R243's UninitializedRead is recorded if it is the run's first, and nothing else changes (log 3). -/
def State.noteUse (s : State) (locs : List Loc) : State :=
  { s with unwrittenUse := s.unwrittenUse.or (s.firstUnwritten locs) }

/-- The operand record `exec` works on: the one taken at issue (R252); with nothing in flight, the one issue would take now
(DESIGN CHOICE, log 7: `step` runs `exec` only on a command in flight). -/
def State.record (s : State) (i : Instr) : InFlight := s.inflight.getD (s.capture (encode i))

end Sys2Proof.Machine
end

