-- ==== Sys2Proof/Machine/Ops.lean ====
section
/-! DEFINITION. The named operations over the registers and the window: writing a decimal register, the text buffer and its length;
recording an outcome (60_exceptions.md R203: RDEC's whole answer to an error, there being no trap entry and no return, R211, R212);
the register map and the host's access to it (20_memory.md R52 to R61); issue (70_reset_and_hazards.md R251), the dropped
write (R253) and reset (R240 to R242). -/

namespace Sys2Proof.Machine

/-! ### Results of a command -/

/-- `d[i] <- (w, f)`: both words together, and both are written from then on. R11, R24, R243. -/
def State.setPair (s : State) (i : DIx) (v : Pair) : State :=
  { s with d := s.d.set i ⟨⟨v.w, true⟩, ⟨v.f, true⟩⟩ }

/-- The 64 bytes TBUF holds after a text was written to its start: the text, then 0x00. R171. -/
def textCells (t : Text) : List (Held Byte) :=
  List.take 64 (t.map (fun b => Held.mk b true) ++ List.replicate (64 - t.length) (Held.mk 0#8 true))

theorem textCells_size (t : Text) : (textCells t).toArray.size = 64 := by
  simp [textCells]; omega

/-- DFMT's implicit result: the text to TBUF[0 .. n - 1], 0x00 to the rest of TBUF, n to TLEN. R171. -/
def State.setText (s : State) (t : Text) : State :=
  { s with
    tbuf := ⟨(textCells t).toArray, textCells_size t⟩
    tlen := BitVec.ofNat 8 t.length }

/-- The STATUS part of a completion with outcome `o`, and the in-flight record consumed. R203. -/
def State.recordOutcome (s : State) (o : CmdOutcome) : State :=
  { s with status := s.status.completed o, inflight := none }

/-- The completion of a command whose result is a pair for `rd`, or whose outcome is the error `onFail`, and then it writes
nothing but STATUS. R203, R24. -/
def State.finishPair (s : State) (rd : DIx) (onFail : CmdOutcome) : Option Pair → State
  | some v => (s.setPair rd v).recordOutcome .ok
  | none => s.recordOutcome onFail

/-- The completion of DFMT. R170, R203. -/
def State.finishText (s : State) (t : Text) : State := (s.setText t).recordOutcome .ok

/-- The completion of a command word that decodes to no row. R202, R203. -/
def State.finishIllegal (s : State) : State := s.recordOutcome .illegalCommand

/-! ### The register map -/

/-- The registers of the window. R52. -/
inductive WindowReg where
  | cmd
  | status
  | ctrl
  | tlen
  | whole (n : DIx)
  | frac (n : DIx)
  | tbuf (k : Fin 8)
  | reserved
  deriving DecidableEq, Repr

/-- An index of a group of eight registers, from the position inside the group. -/
def groupIx (pos stride : Nat) : Fin 8 := Fin.ofNat 8 (pos / stride)

/-- The register at a window offset that is a multiple of 8. R52. -/
def windowReg (off : Offset) : WindowReg :=
  let o := off.toNat
  if o = 0x000 then .cmd
  else if o = 0x008 then .status
  else if o = 0x010 then .ctrl
  else if o = 0x018 then .tlen
  else if 0x100 ≤ o ∧ o < 0x180 then
    if o % 16 < 8 then .whole (groupIx (o - 0x100) 16) else .frac (groupIx (o - 0x100) 16)
  else if 0x200 ≤ o ∧ o < 0x240 then .tbuf (groupIx (o - 0x200) 8)
  else .reserved

/-- A host access is well formed: 8 bytes wide, at a multiple of 8. R53. -/
def accessOk (off : Offset) (width : Nat) : Bool := width == 8 && off.toNat % 8 == 0

/-- Byte index 8k + j of TBUF. R57. -/
def tbufIx (k j : Fin 8) : Fin 64 := ⟨8 * k.val + j.val, by omega⟩

/-- TBUFk: bits 8j+7 : 8j are TBUF[8k + j]. R57. -/
def State.tbufWord (s : State) (k : Fin 8) : Word :=
  s.byte (tbufIx k 7) ++ s.byte (tbufIx k 6) ++ s.byte (tbufIx k 5) ++ s.byte (tbufIx k 4)
    ++ s.byte (tbufIx k 3) ++ s.byte (tbufIx k 2) ++ s.byte (tbufIx k 1) ++ s.byte (tbufIx k 0)

/-- Byte lane j of a 64-bit value: bits 8j+7 : 8j. R56, R57. -/
def lane (v : Word) (j : Nat) : Byte := v.extractLsb' (8 * j) 8

/-- The content of a window register as the host reads it. R52; CMD and reserved offsets read 0 (R35, R55). -/
def State.window (s : State) : WindowReg → Word
  | .cmd => 0#64
  | .status => s.status.toWord
  | .ctrl => s.ctrlWord
  | .tlen => s.tlen.setWidth 64
  | .whole n => (s.reg n).whole.val
  | .frac n => (s.reg n).frac.val
  | .tbuf k => s.tbufWord k
  | .reserved => 0#64

/-- The storage a host read of a window register uses. R243. -/
def WindowReg.locs : WindowReg → List Loc
  | .whole n => [.whole n]
  | .frac n => [.frac n]
  | .tbuf k => (List.finRange 8).map fun j => .byte (tbufIx k j)
  | .cmd | .status | .ctrl | .tlen | .reserved => []

/-- The registers whose write is dropped while BUSY = 1. R253. -/
def WindowReg.guarded : WindowReg → Bool
  | .cmd | .tlen | .whole _ | .frac _ | .tbuf _ => true
  | .status | .ctrl | .reserved => false

/-! ### Host writes -/

/-- A host write of DnW: any pattern, no check. R23, R60. -/
def State.setWhole (s : State) (n : DIx) (v : Word) : State :=
  { s with d := s.d.set n { s.reg n with whole := ⟨v, true⟩ } }

/-- A host write of DnF: any pattern, no check. R23, R60. -/
def State.setFrac (s : State) (n : DIx) (v : Word) : State :=
  { s with d := s.d.set n { s.reg n with frac := ⟨v, true⟩ } }

/-- A host write of TBUFk: all eight bytes 8k .. 8k+7 at once. R57. -/
def State.setTbufWord (s : State) (k : Fin 8) (v : Word) : State :=
  { s with tbuf := (List.finRange 8).foldl (fun b j => b.set (tbufIx k j) ⟨lane v j.val, true⟩) s.tbuf }

/-- A host write of TLEN: bits 7:0. R34. -/
def State.setTlen (s : State) (v : Word) : State := { s with tlen := v.setWidth 8 }

/-- A host write of STATUS. R39. -/
def State.clearStatus (s : State) (v : Word) : State := { s with status := s.status.writeOneToClear v }

/-- A host write of CTRL: bit 0. R41. -/
def State.setCtrl (s : State) (v : Word) : State := { s with ie := v.getLsbD 0 }

/-- A dropped host write. R208, R253. -/
def State.dropWrite (s : State) : State := { s with status := s.status.dropped }

/-- The state after command word `c` is accepted: the record taken, BUSY set, nothing else. R251. -/
def State.accept (s : State) (c : Word) : State :=
  { s with inflight := some (s.capture c), status := s.status.issued }

/-- Issue of command word `c` (BUSY = 0): the operands are read here, so a use of unwritten storage is recorded here. R243, R251. -/
def State.issue (s : State) (c : Word) : State := (s.accept c).noteUse (s.operandLocs c)

/-- The write of `v` to a window register. R52, R60: STATUS and CTRL take effect whatever BUSY is; the others are dropped while
BUSY = 1 (R253); reserved offsets ignore it (R55). -/
def State.writeWindow (s : State) (r : WindowReg) (v : Word) : State :=
  match r with
  | .status => s.clearStatus v
  | .ctrl => s.setCtrl v
  | .reserved => s
  | .cmd => if s.status.busy then s.dropWrite else s.issue v
  | .tlen => if s.status.busy then s.dropWrite else s.setTlen v
  | .whole n => if s.status.busy then s.dropWrite else s.setWhole n v
  | .frac n => if s.status.busy then s.dropWrite else s.setFrac n v
  | .tbuf k => if s.status.busy then s.dropWrite else s.setTbufWord k v

/-! ### Host accesses -/

/-- The value a host read returned joins the observation of the run. R19. -/
def State.observe (s : State) (off : Offset) (v : Word) : State := { s with reads := ⟨off, v⟩ :: s.reads }

/-- MemRead(off, width): the register's content, with no side effect on the unit (R53, R59); a use of unwritten storage is recorded
(R243); a malformed access faults (R54, R209); while RST is asserted it returns 0 (R240). That a malformed access faults under RST
too is DEDUCED, log 8. -/
def State.hostRead (s : State) (off : Offset) (width : Nat) : Host.Outcome State Fault Refusal :=
  if !accessOk off width then .fault (.hostAccessFault off width false)
  else if s.rst then .next (s.observe off 0#64)
  else .next ((s.noteUse (windowReg off).locs).observe off (s.window (windowReg off)))

/-- MemWrite(off, width, v). R53, R54, R60; no effect while RST is asserted (R240). -/
def State.hostWrite (s : State) (off : Offset) (width : Nat) (v : Word) : Host.Outcome State Fault Refusal :=
  if !accessOk off width then .fault (.hostAccessFault off width true)
  else if s.rst then .next s
  else .next (s.writeWindow (windowReg off) v)

/-! ### Reset -/

/-- RST is asserted: the reset values (R241), a command in flight discarded (R242), every D word and TBUF byte unwritten again
and at its named reset value (logs 1, 2, 9). What lies outside the unit stays: the host's coming accesses, what it has read, and
what the run has recorded (R243). -/
def State.enterReset (s : State) : State :=
  { State.reset with rst := true, unwrittenUse := s.unwrittenUse, port := s.port, reads := s.reads }

/-- The reset input changes to a level. R240. -/
def State.setRst (s : State) (asserted : Bool) : State := if asserted then s.enterReset else { s with rst := false }

end Sys2Proof.Machine
end

