-- ==== Sys2Proof/Machine/AddSub.lean ====
section
/-! DEFINITION. DADD and DSUB (41_addsub.md R100 to R117). -/

namespace Sys2Proof.Machine

/-- The exact whole word, checked against [IMIN, IMAX] once, joined with the fraction word. R104, R113. -/
def narrow (whole : Int) (lo : Word) : Option Pair :=
  if inRange whole then some ⟨BitVec.ofInt 64 whole, lo⟩ else none

/-- The selected fraction operation of a + b: summed when the signs match, else subtracted. R101, R102. -/
def addSelect (a b : Pair) : Word × Bool :=
  let sum := overflowingAdd a.f b.f
  let diff := overflowingSub a.f b.f
  if neg a.w = neg b.w then sum else diff

/-- The selected fraction operation of a - b: subtracted when the signs match, else summed. R101, R111. -/
def subSelect (a b : Pair) : Word × Bool :=
  let sum := overflowingAdd a.f b.f
  let diff := overflowingSub a.f b.f
  if neg a.w = neg b.w then diff else sum

/-- The exact whole word of a + b. R104. -/
def addWhole (a b : Pair) : Int := a.w.toInt + b.w.toInt + carry (addSelect a b).2 a.w

/-- The exact whole word of a - b: the carry is subtracted. R112, R113. -/
def subWhole (a b : Pair) : Int := a.w.toInt - b.w.toInt - carry (subSelect a b).2 a.w

/-- The pair DADD writes, none when the outcome is ArithmeticOverflow. R100. -/
def addPair (a b : Pair) : Option Pair := narrow (addWhole a b) (addSelect a b).1

/-- The pair DSUB writes, none when the outcome is ArithmeticOverflow. R110. -/
def subPair (a b : Pair) : Option Pair := narrow (subWhole a b) (subSelect a b).1

/-- DADD rd, rs1, rs2, on the pairs read at issue. R100, R252. -/
def execDadd (rd rs1 rs2 : DIx) (s : State) : Host.Outcome State Fault Refusal :=
  let r := s.record (.dadd rd rs1 rs2)
  .next (s.finishPair rd .arithmeticOverflow (addPair r.a r.b))

/-- DSUB rd, rs1, rs2, on the pairs read at issue. R110, R252. -/
def execDsub (rd rs1 rs2 : DIx) (s : State) : Host.Outcome State Fault Refusal :=
  let r := s.record (.dsub rd rs1 rs2)
  .next (s.finishPair rd .arithmeticOverflow (subPair r.a r.b))

end Sys2Proof.Machine
end

