-- ==== Sys2Proof/Machine/Mul.lean ====
section
/-! DEFINITION. DMUL and the decimal-scaling helper (42_mul.md R130 to R141). -/

namespace Sys2Proof.Machine

open Sys2Proof.Config

/-- The magnitude of an operand in units of 10^-19: |w| * D + f, a carry-pending fraction at its full value. R131. -/
def Pair.magnitude (v : Pair) : Nat := v.w.toInt.natAbs * decimalMax + v.f.toNat

/-- P, the magnitude of the product in units of 10^-19, truncated. R131, R136. -/
def truncatedProduct (a b : Pair) : Nat := a.magnitude * b.magnitude / decimalMax

/-- The sign of the product: the XOR of the operands' signs. R133. -/
def productSign (a b : Pair) : Bool := xor (neg a.w) (neg b.w)

/-- The pair (0, 0), "exactly zero". R132. -/
def exactlyZero : Pair := ⟨0#64, 0#64⟩

/-- The pair (1, 0), "exactly one". R132. -/
def exactlyOne : Pair := ⟨1#64, 0#64⟩

/-- The whole word is IMIN. R132. -/
def Pair.isSignedMin (v : Pair) : Bool := decide (v.w.toInt = iMin)

/-- The signed-minimum special case: `m` is the operand whose whole word is IMIN, `other` the other one, compared word for
word. R132. -/
def signedMinProduct (m other : Pair) : Option Pair :=
  if other = exactlyZero then some exactlyZero
  else if other = exactlyOne then some m
  else none

/-- The pair of sign `n` and magnitude W + F / D, with the boundary fold one unit past the range; none is
ArithmeticOverflow. R135 (a) to (e). -/
def encodeProduct (n : Bool) (W F : Nat) : Option Pair :=
  if (W : Int) ≤ iMax then some (Pair.ofInts (if n then -W else W) F)
  else if W = 2 ^ 63 ∧ n = false then
    if F ≤ uMax - decimalMax then some (Pair.ofInts iMax (F + decimalMax)) else none
  else if W = 2 ^ 63 ∧ n = true then some (Pair.ofInts iMin F)
  else if W = 2 ^ 63 + 1 ∧ n = true then
    if F ≤ uMax - decimalMax then some (Pair.ofInts iMin (F + decimalMax)) else none
  else none

/-- The pair DMUL writes, none when the outcome is ArithmeticOverflow. R130. -/
def mulPair (a b : Pair) : Option Pair :=
  if a.isSignedMin then signedMinProduct a b
  else if b.isSignedMin then signedMinProduct b a
  else
    let P := truncatedProduct a b
    encodeProduct (productSign a b) (P / decimalMax) (P % decimalMax)

/-- decimalize(p) = (p div D, p mod D), the quotient unbounded (65 bits for a 128-bit p). R140. -/
def decimalize (p : Nat) : Nat × Nat := (p / decimalMax, p % decimalMax)

/-- The column form of the product: (W, F), the magnitude's whole part and fraction. R141, informative: no meaning uses it. -/
def columnForm (a b : Pair) : Nat × Nat :=
  let ah := a.w.toInt.natAbs
  let al := a.f.toNat
  let bh := b.w.toInt.natAbs
  let bl := b.f.toNat
  let c0 := decimalize (al * bl)
  let c1 := decimalize (ah * bl)
  let c2 := decimalize (al * bh)
  let t := c0.1 + c1.2 + c2.2
  (ah * bh + c1.1 + c2.1 + t / decimalMax, t % decimalMax)

/-- DMUL rd, rs1, rs2, on the pairs read at issue. R130, R252. -/
def execDmul (rd rs1 rs2 : DIx) (s : State) : Host.Outcome State Fault Refusal :=
  let r := s.record (.dmul rd rs1 rs2)
  .next (s.finishPair rd .arithmeticOverflow (mulPair r.a r.b))

end Sys2Proof.Machine
end

