-- ==== Sys2Proof/Machine/TextCodec.lean ====
section
/-! DEFINITION. The text codec: DPARSE (43_text.md R160 to R169) and DFMT (R170 to R175), over the text functions of
00_scope.md R12. -/

namespace Sys2Proof.Machine

open Sys2Proof.Config

/-! ### Characters and spellings -/

/-- '.', '+', '-' and '0'. R12 (the ASCII codes: PRESUMED, log 18). -/
def dot : Byte := 0x2E#8
def plus : Byte := 0x2B#8
def minus : Byte := 0x2D#8
def zeroChar : Byte := 0x30#8

/-- The ASCII bytes of a character list. R12. -/
def ascii (cs : List Char) : Text := cs.map fun c => BitVec.ofNat 8 c.toNat

/-- The character of a decimal digit. R12. -/
def digitChar (d : Nat) : Byte := BitVec.ofNat 8 (0x30 + d)

/-- The byte is '0' .. '9'. R12. -/
def isDigit (c : Byte) : Bool := 0x30 ≤ c.toNat && c.toNat ≤ 0x39

/-- The value of a digit character. R12. -/
def digitVal (c : Byte) : Nat := c.toNat - 0x30

/-- The integer spelt by a sequence of digit characters, the first the most significant. R163, R164. -/
def spelled (t : Text) : Nat := t.foldl (fun acc c => 10 * acc + digitVal c) 0

/-- The digits of n with no leading zeros, "0" for zero. R12. -/
def decNat (n : Nat) : Text := if n = 0 then [zeroChar] else (Nat.digits 10 n).reverse.map digitChar

/-- dec(n): a '-' if n < 0, then the digits of |n|. R12. -/
def dec (n : Int) : Text := if n < 0 then minus :: decNat n.natAbs else decNat n.natAbs

/-- pad19(n), for n < D: its 19-digit spelling with leading '0' bytes. R12. -/
def pad19 (n : Nat) : Text := (List.range 19).map fun k => digitChar (n / 10 ^ (18 - k) % 10)

/-- strip0(s): the trailing '0' bytes removed. R12. -/
def strip0 (t : Text) : Text := t.rdropWhile (· == zeroChar)

/-- The boundary string signed_min - 1. R166. -/
def boundaryLow : Text :=
  ascii ['-', '9', '2', '2', '3', '3', '7', '2', '0', '3', '6', '8', '5', '4', '7', '7', '5', '8', '0', '9']

/-- The boundary string signed_max + 1. R166. -/
def boundaryHigh : Text :=
  ascii ['9', '2', '2', '3', '3', '7', '2', '0', '3', '6', '8', '5', '4', '7', '7', '5', '8', '0', '8']

/-! ### DPARSE -/

/-- The digits after the separator, right-padded to 19: none is a ParseError. R163. -/
def parseFraction (t : Text) : Option Nat :=
  if t.length ≤ 19 ∧ t.all isDigit = true then some (spelled (t ++ List.replicate (19 - t.length) zeroChar)) else none

/-- One or more digits. R164. -/
def parseDigits (t : Text) : Option Nat := if t ≠ [] ∧ t.all isDigit = true then some (spelled t) else none

/-- ('+' | '-')? ('0'..'9')+ and the integer it spells; none is a ParseError. R164. -/
def parseWhole : Text → Option Int
  | [] => none
  | c :: ds =>
    if c = plus then (parseDigits ds).map fun (n : Nat) => (n : Int)
    else if c = minus then (parseDigits ds).map fun (n : Nat) => -(n : Int)
    else (parseDigits (c :: ds)).map fun (n : Nat) => (n : Int)

/-- The whole word of a boundary string, byte for byte; none for every other text. R166. -/
def boundaryWhole (t : Text) : Option Int :=
  if t = boundaryLow then some iMin else if t = boundaryHigh then some iMax else none

/-- The bytes before the first separator. R160. -/
def beforeDot (t : Text) : Text := t.takeWhile (· != dot)

/-- The bytes after the first separator. R160. -/
def afterDot (t : Text) : Text := (t.dropWhile (· != dot)).tail

/-- The pair of a text, none when the outcome is ParseError. R160, R162 to R167. -/
def parseText (t : Text) : Option Pair :=
  if t.count dot ≠ 1 then none
  else
    match parseFraction (afterDot t), parseWhole (beforeDot t) with
    | some f, some v =>
      if inRange v then some (Pair.ofInts v f)
      else
        match boundaryWhole (beforeDot t) with
        | some w => if f + decimalMax > uMax then none else some (Pair.ofInts w (f + decimalMax))
        | none => none
    | _, _ => none

/-- DPARSE on a recorded length and text: a length above TBUF_LEN reads no byte. R160, R161. -/
def parseRecord (len : BitVec 8) (t : Text) : Option Pair := if len.toNat > tbufLen then none else parseText t

/-- DPARSE rd, on the length and text read at issue. R160, R169, R252. -/
def execDparse (rd : DIx) (s : State) : Host.Outcome State Fault Refusal :=
  let r := s.record (.dparse rd)
  .next (s.finishPair rd .parseError (parseRecord r.len r.text))

/-! ### DFMT -/

/-- The fraction after the normalization of rendering. R172. -/
def fmtFraction (v : Pair) : Nat := if decimalMax ≤ v.f.toNat then v.f.toNat - decimalMax else v.f.toNat

/-- The whole part as text: the whole word, one unit further from zero when the fraction held a carry, the two boundary
strings where that unit does not fit. R172, R173. -/
def fmtWhole (v : Pair) : Text :=
  if decimalMax ≤ v.f.toNat then
    if 0 ≤ v.w.toInt then (if v.w.toInt = iMax then boundaryHigh else dec (v.w.toInt + 1))
    else (if v.w.toInt = iMin then boundaryLow else dec (v.w.toInt - 1))
  else dec v.w.toInt

/-- The fraction part as text. R174. -/
def fmtFractionText (f : Nat) : Text := if f = 0 then [dot, zeroChar] else dot :: strip0 (pad19 f)

/-- The canonical text of a pair. R170. -/
def fmtText (v : Pair) : Text := fmtWhole v ++ fmtFractionText (fmtFraction v)

/-- DFMT rs1, on the pair read at issue. R170, R171, R252. -/
def execDfmt (rs1 : DIx) (s : State) : Host.Outcome State Fault Refusal :=
  let r := s.record (.dfmt rs1)
  .next (s.finishText (fmtText r.a))

end Sys2Proof.Machine
end

