-- ==== Sys2Proof/Machine/Dispatch.lean ====
section
/-! DEFINITION. One arm per command: the meaning the completion of R252 evaluates. -/

namespace Sys2Proof.Machine

def exec (i : Instr) (s : State) : Host.Outcome State Fault Refusal :=
  match i with
  | .dadd rd rs1 rs2 => Sys2Proof.Machine.execDadd rd rs1 rs2 s
  | .dsub rd rs1 rs2 => Sys2Proof.Machine.execDsub rd rs1 rs2 s
  | .dmul rd rs1 rs2 => Sys2Proof.Machine.execDmul rd rs1 rs2 s
  | .dparse rd => Sys2Proof.Machine.execDparse rd s
  | .dfmt rs1 => Sys2Proof.Machine.execDfmt rs1 s

end Sys2Proof.Machine
end

