-- ==== Sys2Proof/Machine/Agents.lean ====
section
/-! DEFINITION. The two agents (00_scope.md R17, 70_reset_and_hazards.md R258): the unit, whose only step is the completion of the
command in flight, and the host, whose steps are its accesses; and the reset input. -/

namespace Sys2Proof.Machine

/-- The completion of a command whose record is `f`: the decoded command's meaning, or the outcome IllegalCommand. R252, R202. -/
def State.complete (s : State) (f : InFlight) : Host.Outcome State Fault Refusal :=
  match decode f.word with
  | .ok i => exec i s
  | .error _ => .next s.finishIllegal

/-- The unit's step: possible only while BUSY = 1 and RST is not asserted (R240, R258); otherwise the unit holds its state
(R220). BUSY = 1 without a record does not arise (R42; log 10). -/
def State.unitStep (s : State) : Host.Outcome State Fault Refusal :=
  if s.rst || !s.status.busy then .next s
  else match s.inflight with
    | some f => s.complete f
    | none => .next s

/-- What one port event does. R258, R240. -/
def State.onEvent (s : State) : PortEvent → Host.Outcome State Fault Refusal
  | .read off width => s.hostRead off width
  | .write off width v => s.hostWrite off width v
  | .completion => s.unitStep
  | .rst asserted => .next (s.setRst asserted)

/-- The step: the first port event, taken off the port, or, with none left, the unit's own step (R259: a command in flight
always completes; log 4). -/
def State.advance (s : State) : Host.Outcome State Fault Refusal :=
  match s.port with
  | [] => s.unitStep
  | e :: rest => ({ s with port := rest } : State).onEvent e

/-- The state in which command word `c` has just been accepted and the very next event is its completion; what RST and an
earlier command would hold back is out of the way (log 6). -/
def State.placeCommand (s : State) (c : Word) : State :=
  { s.issue c with rst := false, port := .completion :: s.port }

end Sys2Proof.Machine
end

