-- ==== Sys2Proof/Machine/Step.lean ====
section
/-! DEFINITION. The step of the machine, and how the host's checks place one command. -/

namespace Sys2Proof.Machine

/-- One step of RDEC. R258. -/
def step (s : State) : Host.Outcome State Fault Refusal := s.advance

/-- `s` with the command of an opcode-table word accepted and its completion next, so that `step` runs exactly it. Commands reach
RDEC as CMD writes, never by fetch (R36, R65); log 6. -/
def State.withFetchWord (s : State) (nbits w : Nat) : State := s.placeCommand (tableWord nbits w)

end Sys2Proof.Machine
end

