-- ==== Sys2Proof/Machine/HostProgram.lean ====
section
/-! DEFINITION. What a host program is made of (30_encoding.md R88, R89): the assembler's forms of the five commands and the host's
pseudo-instructions, each expanded into port events. -/

namespace Sys2Proof.Machine

/-- The offset of CMD, STATUS, CTRL and TLEN. R52. -/
def offCmd : Offset := 0x000#12
def offStatus : Offset := 0x008#12
def offCtrl : Offset := 0x010#12
def offTlen : Offset := 0x018#12

/-- The offsets of DnW, DnF and TBUFk. R52. -/
def offWhole (n : DIx) : Offset := BitVec.ofNat 12 (0x100 + 16 * n.val)
def offFrac (n : DIx) : Offset := BitVec.ofNat 12 (0x108 + 16 * n.val)
def offTbuf (k : Fin 8) : Offset := BitVec.ofNat 12 (0x200 + 8 * k.val)

/-- A line of a host program. R88, R89. -/
inductive HostOp where
  | wr (off : Offset) (v : Word)
  | rd (off : Offset)
  | dli (n : DIx) (w : Int) (f : Word)
  | dtext (t : Text)
  /-- `dwait` whose polling loop reads STATUS `busyPolls` times before the completion and once after it. How many times it does
  is the timing's (R259, log 16). -/
  | dwait (busyPolls : Nat)
  /-- No access: the unit takes its step here, before the command's `dwait` does (R250, R258; DESIGN CHOICE, log 21). -/
  | unitStep
  | command (i : Instr)
  /-- `.word v`: any 64-bit command word, illegal ones included. -/
  | word (v : Word)
  deriving DecidableEq, Repr

/-- Word k of a text: byte 8k + j in bits 8j+7 : 8j, bytes past the end 0x00. R57, R89. -/
def packWord (t : Text) (k : Nat) : Word :=
  t.getD (8 * k + 7) 0#8 ++ t.getD (8 * k + 6) 0#8 ++ t.getD (8 * k + 5) 0#8 ++ t.getD (8 * k + 4) 0#8
    ++ t.getD (8 * k + 3) 0#8 ++ t.getD (8 * k + 2) 0#8 ++ t.getD (8 * k + 1) 0#8 ++ t.getD (8 * k) 0#8

/-- An 8-byte host write and an 8-byte host read. R53. -/
def wr8 (off : Offset) (v : Word) : PortEvent := .write off 8 v
def rd8 (off : Offset) : PortEvent := .read off 8

/-- The accesses a line stands for. R89. Where a command completes among the accesses after it is open (R250, R258), and R89's lines do
not say it: a `unitStep` line puts the completion in its own place, and without one it falls inside the command's `dwait`, after
every access before that (DESIGN CHOICE, log 21). A `dwait` after the completion keeps its completion event, which then does nothing;
its `busyPolls` is 0 there. -/
def HostOp.expand : HostOp → List PortEvent
  | .wr off v => [wr8 off v]
  | .rd off => [rd8 off]
  | .dli n w f => [wr8 (offWhole n) (BitVec.ofInt 64 w), wr8 (offFrac n) f]
  | .dtext t =>
    ((List.range ((t.length + 7) / 8)).map fun k => wr8 (BitVec.ofNat 12 (0x200 + 8 * k)) (packWord t k))
      ++ [wr8 offTlen (BitVec.ofNat 64 t.length)]
  | .dwait busyPolls => List.replicate busyPolls (rd8 offStatus) ++ [.completion, rd8 offStatus]
  | .unitStep => [.completion]
  | .command i => [wr8 offCmd (encode i)]
  | .word v => [wr8 offCmd v]

/-- A host program as port events. R89. -/
def expandProgram (p : List HostOp) : List PortEvent := p.flatMap HostOp.expand

/-- The register a token `d0` .. `d7` names; none is an assembler error. R88 (lower case only: log 17). -/
def regToken : List Char → Option DIx
  | [r, n] =>
    if r = 'd' ∧ '0'.toNat ≤ n.toNat ∧ n.toNat ≤ '7'.toNat then some (Fin.ofNat 8 (n.toNat - '0'.toNat)) else none
  | _ => none

/-- One command line, already split into its mnemonic and its operands (log 17): mnemonics are case-insensitive; an operand
outside d0 .. d7, a missing or an extra operand is an assembler error. R88. -/
def assemble (mnemonic : List Char) (operands : List (List Char)) : Option Instr :=
  let m := mnemonic.map Char.toLower
  match operands with
  | [x, y, z] =>
    match regToken x, regToken y, regToken z with
    | some rd, some rs1, some rs2 =>
      if m = ['d', 'a', 'd', 'd'] then some (.dadd rd rs1 rs2)
      else if m = ['d', 's', 'u', 'b'] then some (.dsub rd rs1 rs2)
      else if m = ['d', 'm', 'u', 'l'] then some (.dmul rd rs1 rs2)
      else none
    | _, _, _ => none
  | [x] =>
    match regToken x with
    | some r =>
      if m = ['d', 'p', 'a', 'r', 's', 'e'] then some (.dparse r)
      else if m = ['d', 'f', 'm', 't'] then some (.dfmt r)
      else none
    | none => none
  | _ => none

/-- The token of a register. R88. -/
def regName (r : DIx) : List Char := ['d', Char.ofNat ('0'.toNat + r.val)]

/-- The assembler's spelling of a command, split as `assemble` takes it. R88. -/
def Instr.spelling : Instr → List Char × List (List Char)
  | .dadd rd rs1 rs2 => (['d', 'a', 'd', 'd'], [regName rd, regName rs1, regName rs2])
  | .dsub rd rs1 rs2 => (['d', 's', 'u', 'b'], [regName rd, regName rs1, regName rs2])
  | .dmul rd rs1 rs2 => (['d', 'm', 'u', 'l'], [regName rd, regName rs1, regName rs2])
  | .dparse rd => (['d', 'p', 'a', 'r', 's', 'e'], [regName rd])
  | .dfmt rs1 => (['d', 'f', 'm', 't'], [regName rs1])

end Sys2Proof.Machine
end

