-- ==== Sys2Proof/Machine/Timing.lean ====
section
/-! DEFINITION. Fixed latencies (70_reset_and_hazards.md R250, R257, R258): from the cycle of each access and the six latencies, the
order in which accesses and completions reach the unit. Its result is one of the schedules the open model allows. -/

namespace Sys2Proof.Machine

open Sys2Proof.Config

/-- The latency of a command word: its opcode class alone decides it. R250, R257. -/
def latency (l : Latencies) (c : Word) : Nat :=
  match decode c with
  | .ok (.dadd _ _ _) => l.add
  | .ok (.dsub _ _ _) => l.sub
  | .ok (.dmul _ _ _) => l.mul
  | .ok (.dparse _) => l.parse
  | .ok (.dfmt _) => l.fmt
  | .error _ => l.ill

/-- What the schedule keeps between two accesses: the cycle at which the command in flight completes, whether RST is asserted, and
the cycle of the last dropped write. -/
structure Clock where
  due     : Option Nat
  rst     : Bool
  dropped : Option Nat
  deriving DecidableEq, Repr

/-- The completion is due before cycle `t`. An access in the very cycle of a completion comes first, so that a bit the completion
sets and the access clears ends set (R39; DEDUCED, log 12). -/
def Clock.passed (k : Clock) (t : Nat) : Bool :=
  match k.due with
  | some c => decide (c < t)
  | none => false

/-- The clock after the event of cycle `t`: with no command in flight a CMD write is accepted and starts a latency (R251); with one
in flight a write to CMD, DnW, DnF, TBUFk or TLEN is dropped (R253); RST discards the command (R242) and clears STATUS (R241). -/
def Clock.after (l : Latencies) (k : Clock) (t : Nat) : PortEvent → Clock
  | .write off width v =>
    if k.rst || !accessOk off width then k
    else if k.due.isSome then (if (windowReg off).guarded then { k with dropped := some t } else k)
    else if windowReg off = .cmd then { k with due := some (t + latency l v) } else k
  | .rst asserted => if asserted then ⟨none, true, none⟩ else { k with rst := false }
  | .read _ _ => k
  | .completion => { k with due := none }

/-- A STATUS write value without its bit for DROP. R37, R39. -/
def withoutDropBit (v : Word) : Word := v &&& ~~~0x100#64

/-- The event of cycle `t` as it acts in that cycle: a STATUS write does not clear the DROP that a dropped write of the same cycle
has set, since a bit that one cycle both sets and clears ends set. R39, R206. -/
def Clock.inCycle (k : Clock) (t : Nat) : PortEvent → PortEvent
  | .write off width v =>
    .write off width (if windowReg off = .status ∧ k.dropped = some t then withoutDropBit v else v)
  | .read off width => .read off width
  | .completion => .completion
  | .rst asserted => .rst asserted

/-- Accesses stamped with their cycles, in order, as a port. Accesses of one cycle keep their list order (DESIGN CHOICE, log 22), and a
bit that the cycle both sets and clears ends set (R39). -/
def timedPort (l : Latencies) : Clock → List (Nat × PortEvent) → List PortEvent
  | k, [] => if k.due.isSome then [.completion] else []
  | k, (t, e) :: rest =>
    if k.passed t then
      .completion :: k.inCycle t e :: timedPort l (Clock.after l { k with due := none } t e) rest
    else k.inCycle t e :: timedPort l (Clock.after l k t e) rest

end Sys2Proof.Machine
end

