-- ==== Sys2Proof/Machine/Value.lean ====
section
/-! DEFINITION. What a pair means (10_state.md R25 to R31). No command reads a value; claims do. -/

namespace Sys2Proof.Machine

open Sys2Proof.Config

/-- The value in units of 10^-19: w * D + sgn(w) * f. R25, R30. -/
def Pair.units (v : Pair) : Int := v.w.toInt * decimalMax + sgn v.w * v.f.toNat

/-- value(w, f) = w + sgn(w) * f / D, an exact rational. R25. -/
def Pair.value (v : Pair) : Rat := (v.w.toInt : Rat) + (sgn v.w : Rat) * (v.f.toNat : Rat) / (decimalMax : Rat)

/-- Normalized: f < D. R28. -/
def Pair.normalized (v : Pair) : Bool := decide (v.f.toNat < decimalMax)

/-- Carry-pending: f >= D. R15, R28. -/
def Pair.carryPending (v : Pair) : Bool := decide (decimalMax ≤ v.f.toNat)

/-- A boundary encoding: carry-pending at IMIN or IMAX, one unit past the signed range. R29. -/
def Pair.boundary (v : Pair) : Bool :=
  v.carryPending && (decide (v.w.toInt = iMin) || decide (v.w.toInt = iMax))

/-- The pair of the same value with the carry moved into the whole word where it can be: R31; a normalized pair and a boundary
encoding (R29) stay as they are. -/
def Pair.normalize (v : Pair) : Pair :=
  if v.normalized || v.boundary then v
  else Pair.ofInts (v.w.toInt + sgn v.w) (v.f.toNat - decimalMax)

end Sys2Proof.Machine
end

