-- ==== Sys2Proof/WellFormed.lean ====
section
/-! DEFINITION. The checks on what a host or an assembler supplies: the command word of an instruction (30_encoding.md R84, R86), the
text of `dtext` (R89), the open parameters (20_memory.md R51, 70_reset_and_hazards.md R250). -/

namespace Sys2Proof

/-- A command word is well formed: it is a row of the opcode map, so every reserved bit and every unused field is 0. R84, R86. -/
def wellFormedWord (c : Word) : Bool := opcodeMap.any fun r => r.matches c

/-- An instruction is well formed: its command word is. The operands are in range by their type (R82, R88). -/
def wellFormed (i : Instr) : Bool := wellFormedWord (encode i)

/-- A text that `dtext` can place: at most TBUF_LEN bytes. R89. -/
def textFits (t : Text) : Bool := decide (t.length ≤ Config.tbufLen)

/-- Every latency is at least one cycle. R250. -/
def latenciesOk (l : Config.Latencies) : Bool :=
  decide (1 ≤ l.add) && decide (1 ≤ l.sub) && decide (1 ≤ l.mul) && decide (1 ≤ l.parse) && decide (1 ≤ l.fmt) && decide (1 ≤ l.ill)

/-- RDEC_BASE is aligned to 4096 bytes, and the latencies are legal. R51, R250. -/
def platformOk (p : Config.Platform) : Bool := decide (p.base % 4096 = 0) && latenciesOk p.lat

end Sys2Proof
end

