-- ==== Sys2Proof/Safety.lean ====
section
/-! DEFINITION. The terms claims about RDEC use: the end of a run and its launch premises (70_reset_and_hazards.md R260, R261),
the host's one duty (R254), the invariant of the state. -/

namespace Sys2Proof.Machine

/-- `rdec_no_fault`: no fault has been recorded. UninitializedRead is recorded in the state (log 3); a HostAccessFault leads to no
state. R260, R261. -/
def State.noFault (s : State) : Prop := s.unwrittenUse = none

/-- The end of a run: the host has made its last access, BUSY = 0, and no fault has been recorded. R19, R260. -/
def State.quiescent (s : State) : Prop := s.port = [] ∧ s.status.busy = false ∧ s.noFault

/-- A run as R243 gives it to a model: it stops, with no state, at the first use of unwritten storage (log 3). -/
def strictRun : Nat → State → Option State
  | 0, s => if s.unwrittenUse = none then some s else none
  | k + 1, s =>
    if s.unwrittenUse = none then
      match step s with
      | .next t => strictRun k t
      | .fault _ => none
      | .refused _ => none
    else none

/-- What the unit holds, without the model's own fields. -/
def State.unit (s : State) : State := { s with unwrittenUse := none, port := [], reads := [] }

/-- `rdec_clean`: the reset state, nothing written. R261. -/
def State.clean (s : State) : Prop := s.unit = State.reset

/-- The value of a location, a byte widened to a word. -/
def State.valueAt (s : State) : Loc → Word
  | .whole n => (s.reg n).whole.val
  | .frac n => (s.reg n).frac.val
  | .byte k => (s.byte k).setWidth 64

/-- `rdec_written(S)`: each location of a named set has been written, with a stated value. R261. -/
def State.writtenWith (s : State) (named : List (Loc × Word)) : Prop :=
  ∀ p ∈ named, s.isWritten p.1 = true ∧ s.valueAt p.1 = p.2

/-- No command in flight and RST not asserted: the unit accepts a command. -/
def State.idle (s : State) : Prop := s.status.busy = false ∧ s.inflight = none ∧ s.rst = false

/-- The host's one duty: after a CMD write, a completion comes before the next write to CMD, DnW, DnF, TBUFk or TLEN.
`pending` says that a command may still be in flight. R254. -/
def waits : Bool → List PortEvent → Bool
  | _, [] => true
  | p, .read _ _ :: es => waits p es
  | p, .write off width _ :: es =>
    if accessOk off width && (windowReg off).guarded then !p && waits (windowReg off == .cmd) es else waits p es
  | _, .completion :: es => waits false es
  | p, .rst asserted :: es => waits (p && !asserted) es

/-- Every access of the port is well formed. R53. -/
def accessesOk (es : List PortEvent) : Bool :=
  es.all fun
    | .read off width => accessOk off width
    | .write off width _ => accessOk off width
    | .completion | .rst _ => true

/-- The record has the shape R251 gives it for its command word; what R251 does not record is zero (log 11). -/
abbrev InFlight.shaped (f : InFlight) : Prop :=
  match decode f.word with
  | .ok (.dadd _ _ _) => f.len = 0#8 ∧ f.text = []
  | .ok (.dsub _ _ _) => f.len = 0#8 ∧ f.text = []
  | .ok (.dmul _ _ _) => f.len = 0#8 ∧ f.text = []
  | .ok (.dparse _) =>
    f.a = Pair.zero ∧ f.b = Pair.zero ∧ f.text.length = if f.len.toNat ≤ Config.tbufLen then f.len.toNat else 0
  | .ok (.dfmt _) => f.b = Pair.zero ∧ f.len = 0#8 ∧ f.text = []
  | .error _ => f.a = Pair.zero ∧ f.b = Pair.zero ∧ f.len = 0#8 ∧ f.text = []

/-- R42: the record is non-empty exactly when BUSY = 1. -/
abbrev State.busyMatches (s : State) : Prop := s.status.busy = s.inflight.isSome

/-- The record, if there is one, has its command's shape. R251. -/
abbrev State.recordShaped (s : State) : Prop := ∀ f ∈ s.inflight, f.shaped

/-- While RST is asserted the unit holds its reset values. R240, R241. -/
abbrev State.resetHeld (s : State) : Prop := s.rst = true → s.unit = { State.reset with rst := true }

/-- Storage not written since reset holds the value named for reset. R243; logs 1, 2. -/
abbrev State.unwrittenHolds (s : State) : Prop :=
  (∀ n : DIx, ((s.reg n).whole.written = false → (s.reg n).whole.val = 0#64) ∧ ((s.reg n).frac.written = false → (s.reg n).frac.val = 0#64))
    ∧ ∀ k : Fin 64, (s.cell k).written = false → (s.cell k).val = 0#8

/-- The invariant of RDEC: it holds at reset and every step keeps it. -/
structure State.Inv (s : State) : Prop where
  busyMatches    : s.busyMatches
  recordShaped   : s.recordShaped
  resetHeld      : s.resetHeld
  unwrittenHolds : s.unwrittenHolds

end Sys2Proof.Machine
end

