-- ==== Sys2Proof/Certificates/Slice0/Obligations.lean ====
section
/-! DEFINITION. The statements for the provers, from the numbered rules of spec/. The vocabulary first; then one definition per
statement, in the order of OBLIGATIONS.json. -/

namespace Sys2Proof.Machine

open Sys2Proof.Config

/-! ### Vocabulary -/

/-- The pairs a three-register command works on: those read at issue (R251, R252), or, with nothing in flight, the registers
themselves (log 7). -/
def sourcePairs (s : State) (rs1 rs2 : DIx) (a b : Pair) : Prop :=
  match s.inflight with
  | some f => a = f.a ∧ b = f.b
  | none => a = s.pair rs1 ∧ b = s.pair rs2

/-- The pair DFMT works on: the one read at issue, or, with nothing in flight, the register itself (log 7). R170. -/
def sourcePair (s : State) (rs1 : DIx) (a : Pair) : Prop :=
  match s.inflight with
  | some f => a = f.a
  | none => a = s.pair rs1

/-- The length and text DPARSE works on: those read at issue, or, with nothing in flight, TLEN and TBUF themselves (log 7); a length
above TBUF_LEN reads no byte. R160, R161, R251. -/
def sourceText (s : State) (len : BitVec 8) (text : Text) : Prop :=
  match s.inflight with
  | some f => len = f.len ∧ text = f.text
  | none => len = s.tlen ∧ (s.tlen.toNat ≤ 64 → text = s.text s.tlen.toNat)

/-- What every completion leaves unchanged: CTRL, the reset input, the host's coming accesses, what the host has read, what
the run has recorded (R243). -/
def sameOutside (s t : State) : Prop :=
  t.ie = s.ie ∧ t.rst = s.rst ∧ t.port = s.port ∧ t.reads = s.reads ∧ t.unwrittenUse = s.unwrittenUse

/-- R203 for outcome OK: ERR = 0, DONE set, BUSY cleared, the record consumed, every sticky bit as it was. -/
def completedOk (s t : State) : Prop :=
  t.inflight = none ∧ t.status = { s.status with busy := false, err := .ok, done := true }

/-- `t` is `s` after a command that wrote the pair `v` to Drd: both words of Drd, no other decimal register, no TBUF byte, not
TLEN; the outcome OK. R24, R40, R203. -/
def wrotePair (s t : State) (rd : DIx) (v : Pair) : Prop :=
  t.reg rd = ⟨⟨v.w, true⟩, ⟨v.f, true⟩⟩ ∧ (∀ i : DIx, i ≠ rd → t.reg i = s.reg i) ∧ t.tbuf = s.tbuf ∧ t.tlen = s.tlen
    ∧ completedOk s t ∧ sameOutside s t

/-- `t` is `s` after a command with the error outcome `o`: no result, and STATUS as R203 says. R201, R203, R204. -/
def failedWith (s t : State) (o : CmdOutcome) : Prop :=
  t.d = s.d ∧ t.tbuf = s.tbuf ∧ t.tlen = s.tlen ∧ t.inflight = none
    ∧ t.status =
      { s.status with
        busy := false, err := o, done := true
        perr := s.status.perr || o == .parseError
        ovf := s.status.ovf || o == .arithmeticOverflow
        ill := s.status.ill || o == .illegalCommand }
    ∧ sameOutside s t

/-- `t` is `s` after DFMT wrote the text `x`: x in TBUF[0 .. n - 1], 0x00 in TBUF[n .. 63], n in TLEN, no decimal register.
R171, R203. -/
def wroteText (s t : State) (x : Text) : Prop :=
  t.d = s.d ∧ (∀ k : Fin 64, t.cell k = ⟨x.getD k.val 0#8, true⟩) ∧ t.tlen.toNat = x.length ∧ completedOk s t ∧ sameOutside s t

/-- a is a signed 64-bit integer. R104. -/
def fits (a : Int) : Prop := -2 ^ 63 ≤ a ∧ a ≤ 2 ^ 63 - 1

/-- The digit characters of a list of digits: '0' .. '9' are the bytes 0x30 .. 0x39. R12 (ASCII: PRESUMED by the spec, log 18). -/
def digitText (ds : List (Fin 10)) : Text := ds.map fun d => BitVec.ofNat 8 (0x30 + d.val)

/-- The integer a list of digits spells, the first the most significant. R163, R164. -/
def digitsValue (ds : List (Fin 10)) : Nat := ds.foldl (fun n d => 10 * n + d.val) 0

/-- A spelling R164 accepts for the integer `v`: an optional sign, '+' (0x2B) or '-' (0x2D), then one or more digits. -/
def wholeSpelling (x : Text) (v : Int) : Prop :=
  ∃ ds : List (Fin 10), ds ≠ [] ∧
    ((x = digitText ds ∧ v = digitsValue ds) ∨ (x = 0x2B#8 :: digitText ds ∧ v = digitsValue ds)
      ∨ (x = 0x2D#8 :: digitText ds ∧ v = -digitsValue ds))

/-- A spelling R163 accepts for the fraction word `f`: at most 19 digits, read as if padded with '0' on the right to 19. -/
def fractionSpelling (x : Text) (f : Nat) : Prop :=
  ∃ ds : List (Fin 10), x = digitText ds ∧ ds.length ≤ 19 ∧ f = digitsValue ds * 10 ^ (19 - ds.length)

/-- The two boundary strings, "-9223372036854775809" and "9223372036854775808". R166. -/
def lowString : Text := 0x2D#8 :: digitText [9, 2, 2, 3, 3, 7, 2, 0, 3, 6, 8, 5, 4, 7, 7, 5, 8, 0, 9]
def highString : Text := digitText [9, 2, 2, 3, 3, 7, 2, 0, 3, 6, 8, 5, 4, 7, 7, 5, 8, 0, 8]

/-- A value DPARSE can give from the text of R160: the text is x '.' y, where '.' is the byte 0x2E and no other (R162), and the pair
is R164's or R166's with R167's fold. -/
def parsesTo (text : Text) (v : Pair) : Prop :=
  ∃ x y w f, text = x ++ 0x2E#8 :: y ∧ 0x2E#8 ∉ x ∧ 0x2E#8 ∉ y ∧ fractionSpelling y f ∧ wholeSpelling x w
    ∧ ((fits w ∧ v = Pair.ofInts w f)
      ∨ (x = lowString ∧ f + decimalMax ≤ uMax ∧ v = Pair.ofInts iMin (f + decimalMax))
      ∨ (x = highString ∧ f + decimalMax ≤ uMax ∧ v = Pair.ofInts iMax (f + decimalMax)))

/-- The plain decimal spelling of an integer: no '+', no leading zeros, "0" for zero. R12. -/
def decimalSpelling (x : Text) (n : Int) : Prop :=
  ∃ ds : List (Fin 10), ds ≠ [] ∧ (ds.head? ≠ some 0 ∨ ds = [0])
    ∧ (if n < 0 then x = 0x2D#8 :: digitText ds ∧ n = -digitsValue ds else x = digitText ds ∧ n = digitsValue ds)

/-- The canonical text of a pair. The whole part is the plain decimal of the whole word, moved one unit away from zero when f >= D
(R172, R173: at IMAX and IMIN that is the one-past-range string); the fraction part is ".0", or '.' and the 19 digits without
their trailing zeros (R174). -/
def rendering (v : Pair) (x : Text) : Prop :=
  let carried := decimalMax ≤ v.f.toNat
  let f := if carried then v.f.toNat - decimalMax else v.f.toNat
  let n := if carried then v.w.toInt + (if v.w.toInt < 0 then -1 else 1) else v.w.toInt
  ∃ y z, x = y ++ 0x2E#8 :: z ∧ decimalSpelling y n
    ∧ ((f = 0 ∧ z = [0x30#8]) ∨ (f ≠ 0 ∧ fractionSpelling z f ∧ z ≠ [] ∧ z.getLast? ≠ some 0x30#8))

/-- The destination register of a command, if it has one. R82, R84. -/
def destination : Instr → Option DIx
  | .dadd rd _ _ | .dsub rd _ _ | .dmul rd _ _ | .dparse rd => some rd
  | .dfmt _ => none

/-- The command writes TBUF and TLEN. R83. -/
def writesText : Instr → Bool
  | .dfmt _ => true
  | .dadd _ _ _ | .dsub _ _ _ | .dmul _ _ _ | .dparse _ => false

/-- An event with the bit for DROP taken out of a STATUS write. -/
def eraseDropBit : PortEvent → PortEvent
  | .write off width v => .write off width (if windowReg off = .status then v &&& ~~~0x100#64 else v)
  | .read off width => .read off width
  | .completion => .completion
  | .rst asserted => .rst asserted

/-- A port event that neither completes a command nor changes RST. -/
def isAccess : PortEvent → Bool
  | .read _ _ | .write _ _ _ => true
  | .completion | .rst _ => false

end Sys2Proof.Machine

open Sys2Proof Sys2Proof.Machine Sys2Proof.Config

/-! ### Encoding -/

/-- R84, R85, R88: the words the decoder accepts are exactly the words the assembler emits, each for its own command. -/
def Obligations.DecodeAcceptsExactlyTheEncodings : Prop :=
  ∀ (c : Word) (i : Instr), decode c = .ok i ↔ c = encode i

/-- R86: the illegal words, bit by bit; and what an illegal word does from a state that accepts a command: it sets BUSY, and its
completion has outcome IllegalCommand and writes no result. -/
def Obligations.IllegalWordsAreThoseListed : Prop :=
  ∀ c : Word,
    let opc := c.extractLsb' 0 8
    let rd := c.extractLsb' 8 3
    let rs1 := c.extractLsb' 12 3
    let rs2 := c.extractLsb' 16 3
    let illegal :=
      (opc ≠ 0x01#8 ∧ opc ≠ 0x02#8 ∧ opc ≠ 0x03#8 ∧ opc ≠ 0x10#8 ∧ opc ≠ 0x11#8)
        ∨ c.extractLsb' 20 44 ≠ 0#44 ∨ c.getLsbD 19 = true ∨ c.getLsbD 15 = true ∨ c.getLsbD 11 = true
        ∨ (opc = 0x10#8 ∧ (rs1 ≠ 0#3 ∨ rs2 ≠ 0#3)) ∨ (opc = 0x11#8 ∧ (rd ≠ 0#3 ∨ rs2 ≠ 0#3))
    ((∃ e, decode c = .error e) ↔ illegal)
      ∧ (illegal → ∀ s : State, s.idle → ∃ t u f, s.hostWrite offCmd 8 c = .next t ∧ t.status.busy = true
          ∧ t.inflight = some f ∧ f.word = c ∧ t.onEvent .completion = .next u ∧ failedWith t u .illegalCommand)

/-- R90: the encoding examples, both ways. -/
def Obligations.EncodingExamples : Prop :=
  (encode (.dadd 2 0 1) = 0x0000000000010201#64 ∧ encode (.dsub 3 0 1) = 0x0000000000010302#64
    ∧ encode (.dmul 7 6 5) = 0x0000000000056703#64 ∧ encode (.dparse 4) = 0x0000000000000410#64
    ∧ encode (.dfmt 2) = 0x0000000000002011#64)
  ∧ (decode 0x0000000000010201#64 = .ok (.dadd 2 0 1) ∧ decode 0x0000000000010302#64 = .ok (.dsub 3 0 1)
    ∧ decode 0x0000000000056703#64 = .ok (.dmul 7 6 5) ∧ decode 0x0000000000000410#64 = .ok (.dparse 4)
    ∧ decode 0x0000000000002011#64 = .ok (.dfmt 2) ∧ ∃ e, decode 0x0000000000002111#64 = .error e)

/-- R88: the assembler reads back every command from its own spelling, whatever the case of the mnemonic's letters. -/
def Obligations.AssemblerReadsEverySpelling : Prop :=
  ∀ i : Instr, assemble (Instr.spelling i).1 (Instr.spelling i).2 = some i
    ∧ assemble ((Instr.spelling i).1.map Char.toUpper) (Instr.spelling i).2 = some i

/-! ### The register window -/

/-- R53, R54: a host access of another width or at an offset that is not a multiple of 8 is the fault HostAccessFault with its
offset, width and direction, in every state; no well-formed access is. That this holds while RST is asserted too, where R240 gives an
access no effect, is the model's choice (log 8). -/
def Obligations.MalformedAccessFaults : Prop :=
  ∀ (s : State) (off : Offset) (width : Nat) (v : Word),
    ((width ≠ 8 ∨ off.toNat % 8 ≠ 0) →
      s.hostRead off width = .fault (.hostAccessFault off width false)
        ∧ s.hostWrite off width v = .fault (.hostAccessFault off width true))
    ∧ ((width = 8 ∧ off.toNat % 8 = 0) →
      (∀ o w b, s.hostRead off width ≠ .fault (.hostAccessFault o w b))
        ∧ ∀ o w b, s.hostWrite off width v ≠ .fault (.hostAccessFault o w b))

/-- R52: which register stands at each aligned offset. -/
def Obligations.RegisterMapOffsets : Prop :=
  windowReg 0x000#12 = .cmd ∧ windowReg 0x008#12 = .status ∧ windowReg 0x010#12 = .ctrl ∧ windowReg 0x018#12 = .tlen
  ∧ (∀ n : DIx, windowReg (BitVec.ofNat 12 (0x100 + 16 * n.val)) = .whole n)
  ∧ (∀ n : DIx, windowReg (BitVec.ofNat 12 (0x108 + 16 * n.val)) = .frac n)
  ∧ (∀ k : Fin 8, windowReg (BitVec.ofNat 12 (0x200 + 8 * k.val)) = .tbuf k)
  ∧ ∀ off : Offset, off.toNat % 8 = 0 →
    (windowReg off = .reserved ↔
      (0x020 ≤ off.toNat ∧ off.toNat ≤ 0x0F8) ∨ (0x180 ≤ off.toNat ∧ off.toNat ≤ 0x1F8) ∨ (0x240 ≤ off.toNat ∧ off.toNat ≤ 0xFF8))

/-- R59: a host read returns the register's content and has no side effect; a second read of the same offset returns the same
value. Beside what the host has read, only the model's record of a use of unwritten storage can change (R243, log 3). R52, R35: the
content of DnW is the whole word of Dn, that of DnF its fraction word, and CMD reads 0. -/
def Obligations.HostReadHasNoSideEffect : Prop :=
  ∀ s : State,
    (∀ off : Offset, off.toNat % 8 = 0 → s.rst = false →
      ∃ t, s.hostRead off 8 = .next t
        ∧ t = { s with unwrittenUse := t.unwrittenUse, reads := ⟨off, s.window (windowReg off)⟩ :: s.reads }
        ∧ t.hostRead off 8 = .next { t with reads := ⟨off, s.window (windowReg off)⟩ :: t.reads })
    ∧ (∀ n : DIx, s.window (.whole n) = (s.pair n).w ∧ s.window (.frac n) = (s.pair n).f
      ∧ s.pair n = ⟨(s.reg n).whole.val, (s.reg n).frac.val⟩)
    ∧ s.window .cmd = 0#64

/-- R55: reserved offsets read 0 and ignore writes, with no status bit set, whatever BUSY is; reserved bits of TLEN, CTRL and STATUS
read 0, and what is written to them changes nothing. -/
def Obligations.ReservedReadsZeroWritesIgnored : Prop :=
  ∀ (s : State) (v : Word), s.rst = false →
    (∀ off : Offset, off.toNat % 8 = 0 → windowReg off = .reserved →
      s.hostRead off 8 = .next (s.observe off 0#64) ∧ s.hostWrite off 8 v = .next s)
    ∧ (s.window .tlen).toNat < 2 ^ 8 ∧ (s.window .ctrl).toNat < 2 ^ 1
    ∧ (s.window .status).getLsbD 3 = false ∧ (s.window .status).toNat < 2 ^ 9
    ∧ s.hostWrite offTlen 8 v = s.hostWrite offTlen 8 (v &&& 0xFF#64)
    ∧ s.hostWrite offCtrl 8 v = s.hostWrite offCtrl 8 (v &&& 0x1#64)
    ∧ s.hostWrite offStatus 8 v = s.hostWrite offStatus 8 (v &&& 0x1F0#64)

/-- R57: TBUFk packs TBUF[8k + j] in bits 8j+7 : 8j, and a host write of TBUFk writes its eight bytes and no other. -/
def Obligations.TextBufferPacking : Prop :=
  ∀ (s : State) (k j : Fin 8) (v : Word),
    (tbufIx k j).val = 8 * k.val + j.val
    ∧ (s.window (.tbuf k)).extractLsb' (8 * j.val) 8 = s.byte (tbufIx k j)
    ∧ (s.status.busy = false → s.rst = false → ∃ t, s.hostWrite (offTbuf k) 8 v = .next t
        ∧ (∀ i : Fin 8, t.byte (tbufIx k i) = v.extractLsb' (8 * i.val) 8 ∧ t.isWritten (.byte (tbufIx k i)) = true)
        ∧ (∀ (m i : Fin 8), m ≠ k → t.cell (tbufIx m i) = s.cell (tbufIx m i)) ∧ t = { s with tbuf := t.tbuf })

/-- R23: a host write of DnW or DnF while no command is in flight takes any pattern, changes the one word and nothing else. -/
def Obligations.RegisterWordWrite : Prop :=
  ∀ (s : State) (n : DIx) (v : Word), s.status.busy = false → s.rst = false →
    (∃ t, s.hostWrite (offWhole n) 8 v = .next t ∧ t.pair n = ⟨v, (s.pair n).f⟩ ∧ t.isWritten (.whole n) = true
      ∧ t.isWritten (.frac n) = s.isWritten (.frac n) ∧ (∀ i : DIx, i ≠ n → t.reg i = s.reg i) ∧ t = { s with d := t.d })
    ∧ (∃ t, s.hostWrite (offFrac n) 8 v = .next t ∧ t.pair n = ⟨(s.pair n).w, v⟩ ∧ t.isWritten (.frac n) = true
      ∧ t.isWritten (.whole n) = s.isWritten (.whole n) ∧ (∀ i : DIx, i ≠ n → t.reg i = s.reg i) ∧ t = { s with d := t.d })

/-- R34, R41: TLEN takes bits 7:0 of a host write and CTRL bit 0 (CTRL whatever BUSY is); each reads back with its reserved bits
0, and nothing else changes. -/
def Obligations.LengthAndControlWrite : Prop :=
  ∀ (s : State) (v : Word), s.rst = false →
    (s.status.busy = false → ∃ t, s.hostWrite offTlen 8 v = .next t ∧ t.tlen = v.setWidth 8 ∧ t.window .tlen = v &&& 0xFF#64
      ∧ t = { s with tlen := t.tlen })
    ∧ ∃ t, s.hostWrite offCtrl 8 v = .next t ∧ t.ie = v.getLsbD 0 ∧ t.window .ctrl = v &&& 0x1#64 ∧ t = { s with ie := t.ie }

/-- R39: write one to clear; and a bit that a completion or a dropped write sets after the clearing write ends set. -/
def Obligations.StatusWriteOneToClear : Prop :=
  ∀ (s : State) (v : Word), s.rst = false →
    ∃ t, s.hostWrite offStatus 8 v = .next t ∧ t = { s with status := t.status }
      ∧ t.status.busy = s.status.busy ∧ t.status.err = s.status.err
      ∧ t.status.done = (if v.getLsbD 4 then false else s.status.done)
      ∧ t.status.perr = (if v.getLsbD 5 then false else s.status.perr)
      ∧ t.status.ovf = (if v.getLsbD 6 then false else s.status.ovf)
      ∧ t.status.ill = (if v.getLsbD 7 then false else s.status.ill)
      ∧ t.status.drop = (if v.getLsbD 8 then false else s.status.drop)
      ∧ (∀ o, (t.recordOutcome o).status.done = true
        ∧ (o = .parseError → (t.recordOutcome o).status.perr = true)
        ∧ (o = .arithmeticOverflow → (t.recordOutcome o).status.ovf = true)
        ∧ (o = .illegalCommand → (t.recordOutcome o).status.ill = true))
      ∧ t.dropWrite.status.drop = true

/-- R37, R201: the layout of STATUS as the host reads it, and the four codes of ERR. -/
def Obligations.StatusLayout : Prop :=
  ∀ s : State,
    let v := s.window .status
    v.getLsbD 0 = s.status.busy ∧ v.extractLsb' 1 2 = s.status.err.code ∧ v.getLsbD 3 = false ∧ v.getLsbD 4 = s.status.done
      ∧ v.getLsbD 5 = s.status.perr ∧ v.getLsbD 6 = s.status.ovf ∧ v.getLsbD 7 = s.status.ill ∧ v.getLsbD 8 = s.status.drop
      ∧ (∀ i, 9 ≤ i → v.getLsbD i = false) ∧ v = s.status.toWord
      ∧ CmdOutcome.code .ok = 0#2 ∧ CmdOutcome.code .parseError = 1#2 ∧ CmdOutcome.code .arithmeticOverflow = 2#2
      ∧ CmdOutcome.code .illegalCommand = 3#2

/-- R210: the interrupt output. It is CTRL.IE and DONE; every completion leaves it at CTRL.IE; a STATUS write with bit 4 set and a
CTRL write with bit 0 clear take it away; a dropped write does not raise it; after reset it is 0. -/
def Obligations.InterruptLine : Prop :=
  ∀ s : State,
    (s.irq = true ↔ s.ie = true ∧ s.status.done = true)
    ∧ (∀ o, (s.recordOutcome o).irq = s.ie)
    ∧ (∀ v : Word, v.getLsbD 4 = true → (s.clearStatus v).irq = false)
    ∧ (∀ v : Word, v.getLsbD 0 = false → (s.setCtrl v).irq = false)
    ∧ s.dropWrite.irq = s.irq ∧ State.reset.irq = false

/-! ### Issue, busy, reset -/

/-- R251: issue. While BUSY = 0 the record takes the command word and the operands read now, BUSY is set and nothing else changes;
while BUSY = 1 the CMD write issues nothing. The model's record of a use of unwritten storage is the one field beside these (R243,
log 3). -/
def Obligations.IssueRecordsOperands : Prop :=
  ∀ (s : State) (c : Word), s.rst = false →
    (s.status.busy = true → ∃ t, s.hostWrite offCmd 8 c = .next t ∧ t.inflight = s.inflight)
    ∧ (s.status.busy = false → ∃ t f, s.hostWrite offCmd 8 c = .next t
      ∧ t = { s with status := { s.status with busy := true }, inflight := some f, unwrittenUse := t.unwrittenUse }
      ∧ f.word = c
      ∧ (∀ rd rs1 rs2, c = encode (.dadd rd rs1 rs2) ∨ c = encode (.dsub rd rs1 rs2) ∨ c = encode (.dmul rd rs1 rs2) →
        f.a = s.pair rs1 ∧ f.b = s.pair rs2)
      ∧ (∀ rs1, c = encode (.dfmt rs1) → f.a = s.pair rs1)
      ∧ (∀ rd, c = encode (.dparse rd) → f.len = s.tlen ∧ (s.tlen.toNat ≤ 64 → f.text = s.text s.tlen.toNat)))

/-- R243: UninitializedRead. An issue or a host read that uses storage not written since reset records it, with a location it used, and
one that does not records nothing; the record stays, and nothing else makes one. That the machine goes on after it, with the value named
at reset, is the model's choice (log 3). -/
def Obligations.UnwrittenUseIsRecorded : Prop :=
  ∀ s : State,
    (s.rst = false → s.unwrittenUse = none →
      (∀ c, s.status.busy = false → ∃ t, s.hostWrite offCmd 8 c = .next t
        ∧ (t.unwrittenUse = none ↔ ∀ l ∈ s.operandLocs c, s.isWritten l = true)
        ∧ ∀ l, t.unwrittenUse = some l → l ∈ s.operandLocs c ∧ s.isWritten l = false)
      ∧ ∀ off : Offset, off.toNat % 8 = 0 → ∃ t, s.hostRead off 8 = .next t
        ∧ (t.unwrittenUse = none ↔ ∀ l ∈ (windowReg off).locs, s.isWritten l = true)
        ∧ ∀ l, t.unwrittenUse = some l → l ∈ (windowReg off).locs ∧ s.isWritten l = false)
    ∧ ∀ e t, s.onEvent e = .next t →
      (∀ l, s.unwrittenUse = some l → t.unwrittenUse = some l)
        ∧ (t.unwrittenUse ≠ s.unwrittenUse →
          (∃ off, e = .read off 8) ∨ ∃ off v, e = .write off 8 v ∧ windowReg off = .cmd ∧ s.status.busy = false)

/-- R243: the storage each use reads. A three-register command reads both words of RS1 and RS2, DFMT both words of RS1, DPARSE the
bytes of its text and none at all when TLEN exceeds TBUF_LEN, an illegal word nothing; a host read of DnW or DnF that one word, of
TBUFk its eight bytes, of any other register nothing. -/
def Obligations.OperandStorage : Prop :=
  ∀ (s : State) (l : Loc) (rd rs1 rs2 : DIx) (c : Word),
    (c = encode (.dadd rd rs1 rs2) ∨ c = encode (.dsub rd rs1 rs2) ∨ c = encode (.dmul rd rs1 rs2) →
      (l ∈ s.operandLocs c ↔ l = .whole rs1 ∨ l = .frac rs1 ∨ l = .whole rs2 ∨ l = .frac rs2))
    ∧ (l ∈ s.operandLocs (encode (.dfmt rs1)) ↔ l = .whole rs1 ∨ l = .frac rs1)
    ∧ (l ∈ s.operandLocs (encode (.dparse rd)) ↔ s.tlen.toNat ≤ 64 ∧ ∃ k : Fin 64, k.val < s.tlen.toNat ∧ l = .byte k)
    ∧ ((∃ e, decode c = .error e) → s.operandLocs c = [])
    ∧ (∀ n : DIx, (WindowReg.whole n).locs = [.whole n] ∧ (WindowReg.frac n).locs = [.frac n])
    ∧ (∀ k : Fin 8, l ∈ (WindowReg.tbuf k).locs ↔ ∃ m : Fin 64, m.val / 8 = k.val ∧ l = .byte m)
    ∧ ∀ r : WindowReg, (∀ n, r ≠ .whole n) → (∀ n, r ≠ .frac n) → (∀ k, r ≠ .tbuf k) → r.locs = []

/-- R253, R208: while BUSY = 1 a write of CMD, DnW, DnF, TBUFk or TLEN changes none of them and sets DROP and nothing else; the command
in flight is not affected: it completes as if the write had not happened. Writes of STATUS, CTRL and reserved offsets are as always and do not set DROP. -/
def Obligations.WriteWhileBusyIsDropped : Prop :=
  ∀ (s : State) (off : Offset) (v : Word), s.status.busy = true → s.rst = false → off.toNat % 8 = 0 →
    ((windowReg off = .cmd ∨ windowReg off = .tlen ∨ (∃ n, windowReg off = .whole n) ∨ (∃ n, windowReg off = .frac n)
        ∨ ∃ k, windowReg off = .tbuf k) →
      s.hostWrite off 8 v = .next { s with status := { s.status with drop := true } }
        ∧ ∀ f t, s.complete f = .next t →
          ({ s with status := { s.status with drop := true } } : State).complete f
            = .next { t with status := { t.status with drop := true } })
    ∧ (windowReg off = .status → s.hostWrite off 8 v = .next (s.clearStatus v))
    ∧ (windowReg off = .ctrl → s.hostWrite off 8 v = .next (s.setCtrl v))
    ∧ (windowReg off = .reserved → s.hostWrite off 8 v = .next s)

/-- R255, R253: while a command is in flight, no host access changes a decimal register, TBUF, TLEN, the command in flight, BUSY or
ERR, and a host read of any register returns its content from before the completion. -/
def Obligations.HostAccessesLeaveTheCommandAlone : Prop :=
  ∀ (s t : State) (e : PortEvent), s.status.busy = true → isAccess e = true → s.onEvent e = .next t →
    t.d = s.d ∧ t.tbuf = s.tbuf ∧ t.tlen = s.tlen ∧ t.inflight = s.inflight ∧ t.status.busy = true ∧ t.status.err = s.status.err
      ∧ (s.rst = false → ∀ off width, e = .read off width → t.reads = ⟨off, s.window (windowReg off)⟩ :: s.reads)

/-- R241: the reset state, everything the rule gives a value. -/
def Obligations.ResetValues : Prop :=
  State.reset.window .status = 0#64 ∧ State.reset.window .ctrl = 0#64 ∧ State.reset.window .tlen = 0#64
    ∧ State.reset.inflight = none ∧ State.reset.irq = false ∧ ∀ l, State.reset.isWritten l = false

/-- R240, R242: asserting RST in any state, a command in flight included, gives the reset values, an empty record with BUSY = 0 and
every D word and TBUF byte unwritten; while it is asserted a read returns 0, a write and a completion do nothing. -/
def Obligations.ResetInput : Prop :=
  ∀ s : State,
    (∃ t, s.onEvent (.rst true) = .next t ∧ t.rst = true ∧ t.status = Status.reset ∧ t.ie = false ∧ t.tlen = 0#8
      ∧ t.inflight = none ∧ (∀ l, t.isWritten l = false) ∧ t.port = s.port ∧ t.reads = s.reads
      ∧ t.unwrittenUse = s.unwrittenUse)
    ∧ (s.rst = true → (∀ off : Offset, off.toNat % 8 = 0 →
          s.onEvent (.read off 8) = .next { s with reads := ⟨off, 0#64⟩ :: s.reads } ∧ ∀ v, s.onEvent (.write off 8 v) = .next s)
        ∧ s.onEvent .completion = .next s)
    ∧ ∃ t, s.onEvent (.rst false) = .next t ∧ t = { s with rst := false }

/-! ### Addition and subtraction -/

/-- R100 to R104: DADD. The fraction words are added when the signs match and subtracted when not, modulo 2^64; a wrap carries
±1 with the sign of the first whole word; the exact whole word decides overflow. R203: the completion, and what it leaves alone. With
nothing in flight the operands are the registers, the model's choice (log 7). -/
def Obligations.AddResult : Prop :=
  ∀ (s : State) (rd rs1 rs2 : DIx) (a b : Pair), sourcePairs s rs1 rs2 a b →
    let same := (a.w.toInt < 0 ↔ b.w.toInt < 0)
    let lo := if same then (a.f.toNat + b.f.toNat) % 2 ^ 64 else (a.f.toNat + 2 ^ 64 - b.f.toNat) % 2 ^ 64
    let wrapped := if same then 2 ^ 64 ≤ a.f.toNat + b.f.toNat else a.f.toNat < b.f.toNat
    let c : Int := if wrapped then (if a.w.toInt < 0 then -1 else 1) else 0
    let W := a.w.toInt + b.w.toInt + c
    (fits W → ∃ t v, exec (.dadd rd rs1 rs2) s = .next t ∧ v.w.toInt = W ∧ v.f.toNat = lo ∧ wrotePair s t rd v)
    ∧ (¬ fits W → ∃ t, exec (.dadd rd rs1 rs2) s = .next t ∧ failedWith s t .arithmeticOverflow)

/-- R110 to R113, R103: DSUB. The fraction words are subtracted when the signs match and added when not, modulo 2^64; the carry
of a wrap is subtracted; the exact whole word decides overflow. R203: the completion, and what it leaves alone. With nothing in
flight the operands are the registers, the model's choice (log 7). -/
def Obligations.SubResult : Prop :=
  ∀ (s : State) (rd rs1 rs2 : DIx) (a b : Pair), sourcePairs s rs1 rs2 a b →
    let same := (a.w.toInt < 0 ↔ b.w.toInt < 0)
    let lo := if same then (a.f.toNat + 2 ^ 64 - b.f.toNat) % 2 ^ 64 else (a.f.toNat + b.f.toNat) % 2 ^ 64
    let wrapped := if same then a.f.toNat < b.f.toNat else 2 ^ 64 ≤ a.f.toNat + b.f.toNat
    let c : Int := if wrapped then (if a.w.toInt < 0 then -1 else 1) else 0
    let W := a.w.toInt - b.w.toInt - c
    (fits W → ∃ t v, exec (.dsub rd rs1 rs2) s = .next t ∧ v.w.toInt = W ∧ v.f.toNat = lo ∧ wrotePair s t rd v)
    ∧ (¬ fits W → ∃ t, exec (.dsub rd rs1 rs2) s = .next t ∧ failedWith s t .arithmeticOverflow)

/-- R106 as the spec writes it: a DADD result has the exact value exactly when the selected operation did not wrap and a sign or zero
condition holds; DADD is commutative when the signs match, and need not be when they differ. Expected to FAIL, by its first clause:
(1, 0) + (-5, 4223372036854775808) wraps and is exact (log 13). -/
def Obligations.AddExactnessAsTheSpecWritesIt : Prop :=
  (∀ a b r : Pair, addPair a b = some r →
    (r.value = a.value + b.value ↔
      (addSelect a b).2 = false ∧ (neg a.w = neg b.w ∨ neg r.w = neg a.w ∨ r.f = 0#64)))
  ∧ (∀ a b : Pair, neg a.w = neg b.w → addPair a b = addPair b a)
  ∧ ∃ a b : Pair, neg a.w ≠ neg b.w ∧ addPair a b ≠ addPair b a

/-- R106 with the coincidence it leaves out (log 13): a DADD result has the exact value when nothing wrapped and the spec's condition
holds, or when a borrow meets a change of sign and 2 * (bf - af) = 2^64 - D; and in no other case. DADD is commutative, word for
word, when the signs match. -/
def Obligations.AddExactnessAndCommutativity : Prop :=
  (∀ a b r : Pair, addPair a b = some r →
    (r.value = a.value + b.value ↔
      ((addSelect a b).2 = false ∧ (neg a.w = neg b.w ∨ neg r.w = neg a.w ∨ r.f = 0#64))
        ∨ ((addSelect a b).2 = true ∧ neg a.w ≠ neg b.w ∧ neg r.w ≠ neg a.w
            ∧ 2 * ((b.f.toNat : Int) - a.f.toNat) = 2 ^ 64 - decimalMax)))
  ∧ ∀ a b : Pair, neg a.w = neg b.w → addPair a b = addPair b a

/-- R116 as the spec writes it. Expected to FAIL: (0, 0) - (0, 14223372036854775808) borrows and is exact (log 13). -/
def Obligations.SubExactnessAsTheSpecWritesIt : Prop :=
  ∀ a b r : Pair, subPair a b = some r →
    (r.value = a.value - b.value ↔
      (subSelect a b).2 = false ∧ (neg a.w ≠ neg b.w ∨ neg r.w = neg a.w ∨ r.f = 0#64))

/-- R116 with the coincidence it leaves out (log 13): a DSUB result has the exact value when nothing wrapped and the spec's condition
holds, or when a borrow meets a change of sign and 2 * (bf - af) = 2^64 + D; and in no other case. -/
def Obligations.SubExactness : Prop :=
  ∀ a b r : Pair, subPair a b = some r →
    (r.value = a.value - b.value ↔
      ((subSelect a b).2 = false ∧ (neg a.w ≠ neg b.w ∨ neg r.w = neg a.w ∨ r.f = 0#64))
        ∨ ((subSelect a b).2 = true ∧ neg a.w = neg b.w ∧ neg r.w ≠ neg a.w
            ∧ 2 * ((b.f.toNat : Int) - a.f.toNat) = 2 ^ 64 + decimalMax))

/-- R117: subtraction undoes addition and addition undoes subtraction when the result keeps the sign of the first operand; outside
that condition the inverse can fail. -/
def Obligations.AdditiveInverse : Prop :=
  (∀ a b r : Pair, addPair a b = some r → neg r.w = neg a.w → subPair r b = some a)
  ∧ (∀ a b r : Pair, subPair a b = some r → neg r.w = neg a.w → addPair r b = some a)
  ∧ addPair (Pair.ofInts 1 3) (Pair.ofInts (-5) 1) = some (Pair.ofInts (-4) 2)
  ∧ subPair (Pair.ofInts (-4) 2) (Pair.ofInts (-5) 1) = some (Pair.ofInts 1 1)

/-! ### Multiplication -/

/-- R131, R132, R133, R135: DMUL. A signed-minimum operand takes the special case; otherwise the truncated exact product is encoded
with the boundary fold, or overflows. R203: the completion, and what it leaves alone. With nothing in flight the operands are the
registers, the model's choice (log 7). -/
def Obligations.MulResult : Prop :=
  ∀ (s : State) (rd rs1 rs2 : DIx) (a b : Pair), sourcePairs s rs1 rs2 a b →
    let writes := fun v => ∃ t, exec (.dmul rd rs1 rs2) s = .next t ∧ wrotePair s t rd v
    let fails := ∃ t, exec (.dmul rd rs1 rs2) s = .next t ∧ failedWith s t .arithmeticOverflow
    let special := fun m other : Pair =>
      (other = Pair.ofInts 0 0 → writes (Pair.ofInts 0 0)) ∧ (other = Pair.ofInts 1 0 → writes m)
        ∧ (other ≠ Pair.ofInts 0 0 → other ≠ Pair.ofInts 1 0 → fails)
    let n := ¬ (a.w.toInt < 0 ↔ b.w.toInt < 0)
    let A := a.w.toInt.natAbs * decimalMax + a.f.toNat
    let B := b.w.toInt.natAbs * decimalMax + b.f.toNat
    let P := A * B / decimalMax
    let W := P / decimalMax
    let F := P % decimalMax
    (a.w.toInt = iMin → special a b)
    ∧ (a.w.toInt ≠ iMin → b.w.toInt = iMin → special b a)
    ∧ (a.w.toInt ≠ iMin → b.w.toInt ≠ iMin →
        (W < 2 ^ 63 → writes (Pair.ofInts (if n then -(W : Int) else W) F))
        ∧ (W = 2 ^ 63 → ¬ n → F + decimalMax ≤ uMax → writes (Pair.ofInts iMax (F + decimalMax)))
        ∧ (W = 2 ^ 63 → ¬ n → uMax < F + decimalMax → fails)
        ∧ (W = 2 ^ 63 → n → writes (Pair.ofInts iMin F))
        ∧ (W = 2 ^ 63 + 1 → n → F + decimalMax ≤ uMax → writes (Pair.ofInts iMin (F + decimalMax)))
        ∧ (W = 2 ^ 63 + 1 → n → uMax < F + decimalMax → fails)
        ∧ (W = 2 ^ 63 + 1 → ¬ n → fails)
        ∧ (2 ^ 63 + 1 < W → fails))

/-- R138: the laws of DMUL. (i) commutativity, outcomes included; (ii) zero; (iii) identity; (iv) the sign; (v) normalized results
and boundary encodings. -/
def Obligations.MulLaws : Prop :=
  (∀ a b, mulPair a b = mulPair b a)
  ∧ (∀ a, mulPair a (Pair.ofInts 0 0) = some (Pair.ofInts 0 0))
  ∧ (∀ a, ∃ r, mulPair a (Pair.ofInts 1 0) = some r ∧ r.value = a.value
      ∧ (a.normalized = true ∨ a.w.toInt = iMin ∨ a.w.toInt = iMax → r = a)
      ∧ (a.carryPending = true → a.w.toInt ≠ iMin → a.w.toInt ≠ iMax → r = a.normalize ∧ r.normalized = true))
  ∧ (∀ a b r, a.w.toInt ≠ iMin → b.w.toInt ≠ iMin → mulPair a b = some r →
      (neg r.w = true ↔ productSign a b = true ∧ 1 ≤ truncatedProduct a b / decimalMax))
  ∧ ∀ a b r, a.w.toInt ≠ iMin → b.w.toInt ≠ iMin → mulPair a b = some r →
      let W := truncatedProduct a b / decimalMax
      (W < 2 ^ 63 ∨ (W = 2 ^ 63 ∧ productSign a b = true) → r.normalized = true)
        ∧ ((W = 2 ^ 63 ∧ productSign a b = false) ∨ W = 2 ^ 63 + 1 → r.boundary = true)

/-- R140: the decimal-scaling helper is exact on every 128-bit product, and its quotient takes 64 bits up to D * 2^64 - 1 and 65 bits
above. -/
def Obligations.DecimalScaling : Prop :=
  ∀ p : Nat, p < 2 ^ 128 →
    p = (decimalize p).1 * decimalMax + (decimalize p).2 ∧ (decimalize p).2 < decimalMax
      ∧ ((decimalize p).1 < 2 ^ 64 ↔ p ≤ 184467440737095516159999999999999999999) ∧ (decimalize p).1 ≤ 34028236692093846346
      ∧ (decimalize (2 ^ 128 - 1)).1 = 34028236692093846346

/-- R141: the column form computes the W and F of the exact truncated product, within the stated widths. -/
def Obligations.ColumnFormIsTheExactProduct : Prop :=
  ∀ a b : Pair,
    let al := a.f.toNat
    let bl := b.f.toNat
    let ah := a.w.toInt.natAbs
    let bh := b.w.toInt.natAbs
    let t := (decimalize (al * bl)).1 + (decimalize (ah * bl)).2 + (decimalize (al * bh)).2
    columnForm a b = (truncatedProduct a b / decimalMax, truncatedProduct a b % decimalMax)
      ∧ truncatedProduct a b = (columnForm a b).1 * decimalMax + (columnForm a b).2
      ∧ (decimalize (al * bl)).1 < 2 ^ 65 ∧ (decimalize (ah * bl)).1 < 2 ^ 64 ∧ (decimalize (al * bh)).1 < 2 ^ 64
      ∧ t < 2 ^ 66 ∧ t / decimalMax ≤ 5

/-! ### Text -/

/-- R160 to R167: DPARSE writes the pair of a text that the grammar accepts. With nothing in flight the text is TBUF's and the length
TLEN's, the model's choice (log 7). -/
def Obligations.ParseAccepts : Prop :=
  ∀ (s : State) (rd : DIx) (len : BitVec 8) (text : Text) (v : Pair), sourceText s len text → len.toNat ≤ 64 →
    parsesTo text v → ∃ t, exec (.dparse rd) s = .next t ∧ wrotePair s t rd v

/-- R161 to R167: every text the grammar does not accept, and every length above TBUF_LEN, is a ParseError. With nothing in flight the text
is TBUF's and the length TLEN's, the model's choice (log 7). -/
def Obligations.ParseRejects : Prop :=
  ∀ (s : State) (rd : DIx) (len : BitVec 8) (text : Text), sourceText s len text →
    (64 < len.toNat ∨ ∀ v, ¬ parsesTo text v) →
    ∃ t, exec (.dparse rd) s = .next t ∧ failedWith s t .parseError

/-- R170 to R174: DFMT writes the canonical text, of 3 to 40 bytes, zero-fills TBUF and sets TLEN. With nothing in flight the pair is
the register's, the model's choice (log 7). -/
def Obligations.FormatResult : Prop :=
  ∀ (s : State) (rs1 : DIx) (v : Pair), sourcePair s rs1 v →
    ∃ t x, exec (.dfmt rs1) s = .next t ∧ wroteText s t x ∧ rendering v x ∧ 3 ≤ x.length ∧ x.length ≤ 40

/-- R176: from a state with no command in flight, DFMT of a register and then DPARSE give a pair of the same value whose text is the
same; it is the same pair word for word when the pair is normalized or its whole word is IMIN or IMAX, and the normalized pair
otherwise. Both commands run here with nothing in flight, on the registers, the model's choice (log 7). -/
def Obligations.FormatThenParseRoundTrip : Prop :=
  ∀ (s : State) (rs1 rd : DIx), s.inflight = none →
    ∃ t u, exec (.dfmt rs1) s = .next t ∧ t.text t.tlen.toNat = fmtText (s.pair rs1) ∧ exec (.dparse rd) t = .next u ∧ u.status.err = .ok
      ∧ (u.pair rd).value = (s.pair rs1).value
      ∧ fmtText (u.pair rd) = fmtText (s.pair rs1)
      ∧ ((s.pair rs1).normalized = true ∨ (s.pair rs1).w.toInt = iMin ∨ (s.pair rs1).w.toInt = iMax → u.pair rd = s.pair rs1)
      ∧ ((s.pair rs1).carryPending = true → (s.pair rs1).w.toInt ≠ iMin → (s.pair rs1).w.toInt ≠ iMax →
          u.pair rd = (s.pair rs1).normalize ∧ (u.pair rd).normalized = true)

/-! ### Values -/

/-- R25, R30: the range of a value, that every value is an integer multiple of 10^-19, and the constants of R8 and R9. -/
def Obligations.ValueRange : Prop :=
  ∀ v : Pair, v.value = (v.units : Rat) / decimalMax
    ∧ (Pair.ofInts iMin uMax).value ≤ v.value ∧ v.value ≤ (Pair.ofInts iMax uMax).value
    ∧ (Pair.ofInts iMin uMax).value = -((9223372036854775809 : Rat) + 8446744073709551615 / decimalMax)
    ∧ (Pair.ofInts iMax uMax).value = (9223372036854775808 : Rat) + 8446744073709551615 / decimalMax
    ∧ decimalMax = 10 ^ 19 ∧ iMin = -2 ^ 63 ∧ iMax = 2 ^ 63 - 1 ∧ uMax = 2 ^ 64 - 1 ∧ tbufLen = 64

/-- R27, R31: no value lies in (-1, 0); the value 0 has exactly one pair; moving a carry into the whole word keeps the value; the
normalized pair of a value is unique. -/
def Obligations.ValueAndPairs : Prop :=
  (∀ v : Pair, v.value < 0 → v.value ≤ -1)
  ∧ (∀ v : Pair, v.value = 0 ↔ v = Pair.ofInts 0 0)
  ∧ (∀ v : Pair, v.w.toInt ≠ iMin → v.w.toInt ≠ iMax → v.carryPending = true →
      (Pair.ofInts (v.w.toInt + sgn v.w) (v.f.toNat - decimalMax)).value = v.value)
  ∧ ∀ v u : Pair, v.normalized = true → u.normalized = true → v.value = u.value → v = u

/-! ### Outcomes -/

/-- R200, R201, R203: every command, and every illegal word, completes with exactly one outcome, of a kind its command may have, and
with DONE set, BUSY clear and the record consumed. "Every state" includes those with nothing in flight (log 7). -/
def Obligations.EveryCommandCompletesWithItsOutcome : Prop :=
  ∀ s : State,
    (∀ i, ∃ t, exec i s = .next t ∧ t.status.done = true ∧ t.status.busy = false ∧ t.inflight = none
      ∧ t.status = s.status.completed t.status.err)
    ∧ (∀ rd rs1 rs2 i t, (i = .dadd rd rs1 rs2 ∨ i = .dsub rd rs1 rs2 ∨ i = .dmul rd rs1 rs2) → exec i s = .next t →
        t.status.err = .ok ∨ t.status.err = .arithmeticOverflow)
    ∧ (∀ rd t, exec (.dparse rd) s = .next t → t.status.err = .ok ∨ t.status.err = .parseError)
    ∧ (∀ rs1 t, exec (.dfmt rs1) s = .next t → t.status.err = .ok)
    ∧ ∀ f e, decode f.word = .error e → ∃ t, s.complete f = .next t ∧ failedWith s t .illegalCommand

/-- R204: the state after an erroneous command differs from the state before it only in STATUS (and the consumed record). -/
def Obligations.ErrorsArePrecise : Prop :=
  ∀ (s t : State) (f : InFlight), s.complete f = .next t → t.status.err ≠ .ok →
    t = { s with status := t.status, inflight := none }

/-- R24, R32, R40: the frame of every command, through the host's read of the window: every register but STATUS, the destination
pair and, for DFMT, TBUF and TLEN reads as before; the written marks and everything outside the unit's results stay. -/
def Obligations.CommandFrame : Prop :=
  ∀ (s t : State) (i : Instr), exec i s = .next t →
    (∀ r : WindowReg, r ≠ .status → (∀ rd, destination i = some rd → r ≠ .whole rd ∧ r ≠ .frac rd) →
      (writesText i = true → r ≠ .tlen ∧ ∀ k, r ≠ .tbuf k) → t.window r = s.window r)
    ∧ (∀ n, destination i ≠ some n → t.reg n = s.reg n)
    ∧ (writesText i = false → t.tbuf = s.tbuf ∧ t.tlen = s.tlen)
    ∧ t.status.drop = s.status.drop ∧ sameOutside s t

/-- R18: the result of a command depends on the operands it reads and on nothing else of the state. -/
def Obligations.ResultIsAFunctionOfTheOperands : Prop :=
  ∀ (i : Instr) (s s' t t' : State), s.record i = s'.record i → exec i s = .next t → exec i s' = .next t' →
    t.status.err = t'.status.err
      ∧ (t.status.err = .ok → ∀ rd, destination i = some rd → t.reg rd = t'.reg rd)
      ∧ (writesText i = true → t.tbuf = t'.tbuf ∧ t.tlen = t'.tlen)

/-- R207: ERR is the outcome of the most recent completion; PERR, OVF, ILL and DROP accumulate until a STATUS write or RST. -/
def Obligations.StickyBitsAccumulate : Prop :=
  ∀ (s t : State) (e : PortEvent), s.onEvent e = .next t → e ≠ .rst true →
    (∀ off width v, e = .write off width v → windowReg off ≠ .status) →
    (s.status.perr = true → t.status.perr = true) ∧ (s.status.ovf = true → t.status.ovf = true)
      ∧ (s.status.ill = true → t.status.ill = true) ∧ (s.status.drop = true → t.status.drop = true)
      ∧ (s.status.done = true → t.status.done = true)

/-- R38: BUSY is set only by a CMD write and cleared only by a completion or RST; ERR changes only at a completion or RST. -/
def Obligations.BusyAndErrChangeOnlyAt : Prop :=
  ∀ (s t : State) (e : PortEvent), s.onEvent e = .next t →
    (s.status.busy = false → t.status.busy = true → ∃ off v, e = .write off 8 v ∧ windowReg off = .cmd)
    ∧ (s.status.busy = true → t.status.busy = false → e = .completion ∨ e = .rst true)
    ∧ (t.status.err ≠ s.status.err → e = .completion ∨ e = .rst true)

/-! ### The step -/

/-- R252, R258: a completion step runs the decoded command: with a legal command in flight and the completion next on the port, or
the port empty, the step is `exec` of that command on the rest of the state. R202: with an illegal word in flight it completes with
outcome IllegalCommand and no result. -/
def Obligations.StepRunsTheDecodedCommand : Prop :=
  ∀ (s : State) (f : InFlight) (rest : List PortEvent), s.rst = false → s.status.busy = true → s.inflight = some f →
    (∀ i, decode f.word = .ok i →
      (s.port = .completion :: rest → step s = exec i { s with port := rest }) ∧ (s.port = [] → step s = exec i s))
    ∧ ∀ e, decode f.word = .error e →
      (s.port = .completion :: rest → ∃ t, step s = .next t ∧ failedWith { s with port := rest } t .illegalCommand)
        ∧ (s.port = [] → ∃ t, step s = .next t ∧ failedWith s t .illegalCommand)

/-- R62, R220: the port is served in order, one event a step; with nothing on it and nothing in flight the unit holds its state. -/
def Obligations.StepServesThePortInOrder : Prop :=
  ∀ s : State,
    (∀ e rest, s.port = e :: rest → step s = ({ s with port := rest } : State).onEvent e)
    ∧ (s.port = [] → s.status.busy = false → step s = .next s)

/-- Log 7, R24: from a state that accepts a command, the CMD write and the completion together are `exec` on that state, beside what
the issue recorded of its use of unwritten storage (R243, log 3). -/
def Obligations.IssueAndCompletionAreExec : Prop :=
  ∀ (s : State) (i : Instr), s.idle →
    ∃ t u, s.hostWrite offCmd 8 (encode i) = .next t ∧ exec i s = .next u
      ∧ t.onEvent .completion = .next { u with unwrittenUse := t.unwrittenUse }

/-- R63, R255, R259: a command and its polling loop. Whatever the number of polls before the completion, each of them returns
BUSY = 1 beside the old STATUS, the last one the STATUS after the command, and the state is that of `exec` before the issue, with nothing
in flight (log 7), beside what the issue recorded of its use of unwritten storage (R243, log 3). The number of polls is `dwait`'s own
(log 16); the completion falls inside `dwait` (log 21). -/
def Obligations.CommandRunWithPolling : Prop :=
  ∀ (s : State) (i : Instr) (n : Nat), s.idle → s.port = [] →
    ∃ t, exec i s = .next t
      ∧ Host.Core.run Sys2Proof.core (n + 3) ({ s with port := expandProgram [.command i, .dwait n] } : State)
        = .next ({ t with
            unwrittenUse := (s.noteUse (s.operandLocs (encode i))).unwrittenUse
            reads := ⟨offStatus, t.status.toWord⟩
              :: (List.replicate n ⟨offStatus, ({ s.status with busy := true } : Status).toWord⟩ ++ s.reads) } : State)

/-- R89, R245: `dtext` places its text, written and ready for DPARSE, fills its last word with 0x00 and writes no further word; `dli`
places its pair, both words written. -/
def Obligations.HostPseudoInstructions : Prop :=
  ∀ s : State, s.status.busy = false → s.rst = false → s.port = [] →
    (∀ x : Text, x.length ≤ 64 → ∃ t,
      Host.Core.run Sys2Proof.core ((HostOp.dtext x).expand.length) ({ s with port := (HostOp.dtext x).expand } : State) = .next t
        ∧ t.tlen.toNat = x.length ∧ t.text x.length = x
        ∧ (∀ k : Fin 64, k.val < 8 * ((x.length + 7) / 8) → t.isWritten (.byte k) = true ∧ (x.length ≤ k.val → t.byte k = 0#8))
        ∧ (∀ k : Fin 64, 8 * ((x.length + 7) / 8) ≤ k.val → t.cell k = s.cell k)
        ∧ t = { s with tbuf := t.tbuf, tlen := t.tlen })
    ∧ ∀ (n : DIx) (w : Int) (f : Word), ∃ t,
      Host.Core.run Sys2Proof.core 2 ({ s with port := (HostOp.dli n w f).expand } : State) = .next t
        ∧ t.pair n = ⟨BitVec.ofInt 64 w, f⟩ ∧ t.writtenWith [(.whole n, BitVec.ofInt 64 w), (.frac n, f)]
        ∧ (∀ i : DIx, i ≠ n → t.reg i = s.reg i) ∧ t = { s with d := t.d }

/-! ### The whole machine -/

/-- R241, R261: the invariant holds at reset, which is clean and has recorded no fault, and in every state that differs from it only outside the unit, whatever the host is
about to do. Its last clause names the reset contents the model chose (logs 1, 2). -/
def Obligations.InvariantAtReset : Prop := State.reset.Inv ∧ State.reset.clean ∧ State.reset.noFault ∧ ∀ s : State, s.clean → s.Inv

/-- The invariant is kept by every step: R42 (the record is non-empty exactly when BUSY = 1), R251 (its shape), R240 (reset values
under RST), and storage not written since reset still holds its named value (logs 1, 2). -/
def Obligations.StepKeepsTheInvariant : Prop :=
  ∀ s t : State, s.Inv → step s = .next t → t.Inv

/-- R254: a host that waits for each completion never loses a write: DROP is not set by any run. -/
def Obligations.WaitingHostLosesNoWrite : Prop :=
  ∀ (k : Nat) (s t : State), s.Inv → waits s.status.busy s.port = true →
    Host.Core.run Sys2Proof.core k s = .next t → (t.status.drop = true → s.status.drop = true)

/-- R259, R260: with well-formed accesses a run comes to its end: the port empty and no command in flight, after one step more than the
port has events. It is a run R260 calls over when it has recorded no use of unwritten storage (R243, log 3). -/
def Obligations.EveryRunComesToItsEnd : Prop :=
  ∀ s : State, s.Inv → accessesOk s.port = true →
    ∃ t, Host.Core.run Sys2Proof.core (s.port.length + 1) s = .next t ∧ t.port = [] ∧ t.status.busy = false
      ∧ (t.unwrittenUse = none → t.quiescent)

/-! ### Time -/

/-- R250, R257: the latency of each command and of an illegal word, its own parameter whatever the operands. R250, R258: under fixed
latencies the accesses reach the unit in their order, with completions between them, word for word when no two have one stamp; where
stamps are equal, only a STATUS write's bit for DROP can differ (R39). Reads stamped up to the cycle of the completion come before it,
later ones after it. That a read in the completion's own cycle comes before it is the model's choice (log 12), and so is the list order
of accesses with one stamp (log 22). -/
def Obligations.TimedScheduleOrder : Prop :=
  (∀ (l : Latencies) (rd rs1 rs2 : DIx),
    latency l (encode (.dadd rd rs1 rs2)) = l.add ∧ latency l (encode (.dsub rd rs1 rs2)) = l.sub
      ∧ latency l (encode (.dmul rd rs1 rs2)) = l.mul ∧ latency l (encode (.dparse rd)) = l.parse ∧ latency l (encode (.dfmt rs1)) = l.fmt)
  ∧ (∀ l c e, decode c = .error e → latency l c = l.ill)
  ∧ (∀ l k es, ((timedPort l k es).filter (· ≠ .completion)).map eraseDropBit
      = ((es.map Prod.snd).filter (· ≠ .completion)).map eraseDropBit)
  ∧ (∀ l k es, k.dropped = none → (es.map Prod.fst).Pairwise (· < ·) →
      (timedPort l k es).filter (· ≠ .completion) = (es.map Prod.snd).filter (· ≠ .completion))
  ∧ ∀ (l : Latencies) (c : Word) (t : Nat) (early late : List (Nat × Offset)),
      (∀ p ∈ early, p.1 ≤ t + latency l c) → (∀ p ∈ late, t + latency l c < p.1) →
      timedPort l ⟨none, false, none⟩
          ((t, wr8 offCmd c) :: (early ++ late).map fun p => (p.1, rd8 p.2))
        = wr8 offCmd c :: early.map (fun p => rd8 p.2) ++ .completion :: late.map fun p => rd8 p.2

/-- R51: a host address in the window reaches the offset it was made from, and no address outside the window reaches any. -/
def Obligations.WindowAddresses : Prop :=
  ∀ (p : Platform),
    (∀ off, p.offset? (p.address off) = some off) ∧ ∀ addr off, p.offset? addr = some off → addr = p.address off

/-! ### A host that waits, step by step -/

/-- R254, R253: a step keeps the invariant together with the host's duty, and does not set DROP. -/
def Obligations.StepKeepsAWaitingHost : Prop :=
  ∀ s t : State, s.Inv → waits s.status.busy s.port = true → step s = .next t →
    t.Inv ∧ waits t.status.busy t.port = true ∧ (t.status.drop = true → s.status.drop = true)

/-! ### Runs as R243 has them -/

/-- R243, R260: the runs that stop at the first use of unwritten storage are exactly the runs of the machine that end with none
recorded. -/
def Obligations.StrictRunsAreTheRunsWithoutUnwrittenUse : Prop :=
  ∀ (k : Nat) (s t : State), strictRun k s = some t ↔ Host.Core.run Sys2Proof.core k s = .next t ∧ t.unwrittenUse = none

/-! ### One cycle -/

/-- R39, R206: a sticky bit that one cycle both sets and clears ends set. A command is in flight until cycle `c`, and `es` are the
accesses of one cycle `t`, none later than `c`: after them DROP is set if one of them was a dropped write, whatever STATUS writes stand
among them; and after the completion DONE, the bit of its outcome and that DROP are set. That the accesses of the completion's own cycle
come before it is the model's order (log 12), as is the list order of the accesses (log 22). -/
def Obligations.SetWinsOverClearInOneCycle : Prop :=
  ∀ (l : Latencies) (k : Clock) (c t : Nat) (es : List PortEvent) (s : State) (f : InFlight),
    k.due = some c → k.rst = false → t ≤ c → s.rst = false → s.status.busy = true → s.inflight = some f →
    es.all isAccess = true → accessesOk es = true →
    ∃ u x, Host.Core.run Sys2Proof.core es.length ({ s with port := timedPort l k (es.map fun e => (t, e)) } : State) = .next u
      ∧ Host.Core.run Sys2Proof.core (es.length + 1) ({ s with port := timedPort l k (es.map fun e => (t, e)) } : State) = .next x
      ∧ ((∃ off v, PortEvent.write off 8 v ∈ es ∧ windowReg off ≠ .status ∧ windowReg off ≠ .ctrl ∧ windowReg off ≠ .reserved) →
          u.status.drop = true ∧ x.status.drop = true)
      ∧ x.status.busy = false ∧ x.status.done = true
      ∧ (x.status.err = .parseError → x.status.perr = true) ∧ (x.status.err = .arithmeticOverflow → x.status.ovf = true)
      ∧ (x.status.err = .illegalCommand → x.status.ill = true)
end

