-- ==== Sys2Proof/Laws/Decode.lean ====
section
/-! SUPPORT. The fields of a command word and the rows of the opcode map, as equations on the whole word. -/

namespace Sys2Proof

theorem regBits_regField (c : Word) (lo : Nat) : regBits (regField c lo) lo = (c.extractLsb' lo 3).setWidth 64 <<< lo := by
  simp only [regBits, regField, BitVec.ofNat_toNat]

/-- The three register fields, taken together, are the word under their mask. -/
theorem and_fields (c : Word) :
    c &&& 0x77700#64 = regBits (fieldRd c) 8 ||| regBits (fieldRs1 c) 12 ||| regBits (fieldRs2 c) 16 := by
  simp only [fieldRd, fieldRs1, fieldRs2, regBits_regField]
  apply BitVec.eq_of_getLsbD_eq
  intro i hi
  simp only [BitVec.getLsbD_and, BitVec.getLsbD_or, BitVec.getLsbD_shiftLeft, BitVec.getLsbD_setWidth, BitVec.getLsbD_extractLsb']
  interval_cases i <;> simp

theorem and_fieldRd (c : Word) : c &&& 0x700#64 = regBits (fieldRd c) 8 := by
  simp only [fieldRd, regBits_regField]
  apply BitVec.eq_of_getLsbD_eq
  intro i hi
  simp only [BitVec.getLsbD_and, BitVec.getLsbD_shiftLeft, BitVec.getLsbD_setWidth, BitVec.getLsbD_extractLsb']
  interval_cases i <;> simp

theorem and_fieldRs1 (c : Word) : c &&& 0x7000#64 = regBits (fieldRs1 c) 12 := by
  simp only [fieldRs1, regBits_regField]
  apply BitVec.eq_of_getLsbD_eq
  intro i hi
  simp only [BitVec.getLsbD_and, BitVec.getLsbD_shiftLeft, BitVec.getLsbD_setWidth, BitVec.getLsbD_extractLsb']
  interval_cases i <;> simp

/-- A word is its bits under a mask joined with its bits outside it. -/
theorem and_or_split (c m n : Word) (h : m ||| n = BitVec.allOnes 64) : (c &&& m) ||| (c &&& n) = c := by
  rw [← BitVec.and_or_distrib_left, h, BitVec.and_allOnes]

/-- A word of a row is its match value joined with the bits the row's mask leaves free. -/
theorem OpRow.word_of_matches (r : OpRow) (c n : Word) (h : r.matches c = true) (hn : r.mask ||| n = BitVec.allOnes 64) :
    c = r.bits ||| (c &&& n) := by
  have hb : c &&& r.mask = r.bits := by simpa [OpRow.matches] using h
  rw [← hb, and_or_split c r.mask n hn]

theorem word_of_rowDadd {c : Word} (h : rowDadd.matches c = true) : c = encode (.dadd (fieldRd c) (fieldRs1 c) (fieldRs2 c)) := by
  have := rowDadd.word_of_matches c 0x77700#64 h (by decide)
  rw [and_fields] at this
  simpa [encode, rowDadd, BitVec.or_assoc] using this

theorem word_of_rowDsub {c : Word} (h : rowDsub.matches c = true) : c = encode (.dsub (fieldRd c) (fieldRs1 c) (fieldRs2 c)) := by
  have := rowDsub.word_of_matches c 0x77700#64 h (by decide)
  rw [and_fields] at this
  simpa [encode, rowDsub, BitVec.or_assoc] using this

theorem word_of_rowDmul {c : Word} (h : rowDmul.matches c = true) : c = encode (.dmul (fieldRd c) (fieldRs1 c) (fieldRs2 c)) := by
  have := rowDmul.word_of_matches c 0x77700#64 h (by decide)
  rw [and_fields] at this
  simpa [encode, rowDmul, BitVec.or_assoc] using this

theorem word_of_rowDparse {c : Word} (h : rowDparse.matches c = true) : c = encode (.dparse (fieldRd c)) := by
  have := rowDparse.word_of_matches c 0x700#64 h (by decide)
  rw [and_fieldRd] at this
  simpa [encode, rowDparse] using this

theorem word_of_rowDfmt {c : Word} (h : rowDfmt.matches c = true) : c = encode (.dfmt (fieldRs1 c)) := by
  have := rowDfmt.word_of_matches c 0x7000#64 h (by decide)
  rw [and_fieldRs1] at this
  simpa [encode, rowDfmt] using this

/-- No word is in two rows: R85. -/
theorem opcodeMap_disjoint : opcodeMap.Pairwise fun r q => r.bits &&& q.mask &&& r.mask ≠ q.bits &&& q.mask &&& r.mask := by decide

theorem decode_encode_dadd : ∀ rd rs1 rs2, decode (encode (.dadd rd rs1 rs2)) = .ok (.dadd rd rs1 rs2) := by decide
theorem decode_encode_dsub : ∀ rd rs1 rs2, decode (encode (.dsub rd rs1 rs2)) = .ok (.dsub rd rs1 rs2) := by decide
theorem decode_encode_dmul : ∀ rd rs1 rs2, decode (encode (.dmul rd rs1 rs2)) = .ok (.dmul rd rs1 rs2) := by decide
theorem decode_encode_dparse : ∀ rd, decode (encode (.dparse rd)) = .ok (.dparse rd) := by decide
theorem decode_encode_dfmt : ∀ rs1, decode (encode (.dfmt rs1)) = .ok (.dfmt rs1) := by decide

/-- The decoder reads back what the assembler emits. -/
@[simp] theorem decode_encode (i : Instr) : decode (encode i) = .ok i := by
  cases i with
  | dadd rd rs1 rs2 => exact decode_encode_dadd rd rs1 rs2
  | dsub rd rs1 rs2 => exact decode_encode_dsub rd rs1 rs2
  | dmul rd rs1 rs2 => exact decode_encode_dmul rd rs1 rs2
  | dparse rd => exact decode_encode_dparse rd
  | dfmt rs1 => exact decode_encode_dfmt rs1

/-- What the decoder can answer: a row's command with the word in that row, or an error with the word in none. -/
theorem decode_cases (c : Word) :
    (rowDadd.matches c = true ∧ decode c = .ok (.dadd (fieldRd c) (fieldRs1 c) (fieldRs2 c)))
    ∨ (rowDsub.matches c = true ∧ decode c = .ok (.dsub (fieldRd c) (fieldRs1 c) (fieldRs2 c)))
    ∨ (rowDmul.matches c = true ∧ decode c = .ok (.dmul (fieldRd c) (fieldRs1 c) (fieldRs2 c)))
    ∨ (rowDparse.matches c = true ∧ decode c = .ok (.dparse (fieldRd c)))
    ∨ (rowDfmt.matches c = true ∧ decode c = .ok (.dfmt (fieldRs1 c)))
    ∨ (wellFormedWord c = false ∧ decode c = .error (illegalReason c)) := by
  unfold decode
  cases h1 : rowDadd.matches c <;> cases h2 : rowDsub.matches c <;> cases h3 : rowDmul.matches c <;>
    cases h4 : rowDparse.matches c <;> cases h5 : rowDfmt.matches c <;>
    simp [wellFormedWord, opcodeMap, h1, h2, h3, h4, h5]

/-- A bit field is a value exactly when its bits are. -/
theorem extractLsb'_eq_iff (c : Word) (lo n : Nat) (x : BitVec n) :
    c.extractLsb' lo n = x ↔ ∀ j, j < n → c.getLsbD (lo + j) = x.getLsbD j := by
  constructor
  · rintro rfl j hj
    simp [hj]
  · intro h
    apply BitVec.eq_of_getLsbD_eq
    intro i hi
    simp [hi, h i hi]

/-- A masked word is a value of the mask exactly when it has its bits there. -/
theorem and_eq_iff (c m x : Word) (h : x &&& m = x) : c &&& m = x ↔ ∀ i, i < 64 → m.getLsbD i = true → c.getLsbD i = x.getLsbD i := by
  constructor
  · rintro rfl i hi hm
    simp [hm]
  · intro hb
    apply BitVec.eq_of_getLsbD_eq
    intro i hi
    rw [← h]
    cases hm : m.getLsbD i
    · simp [hm]
    · simp [hm, hb i hi hm]

/-- Every reserved bit outside the fields is 0. R81, R86. -/
def reservedZero (c : Word) : Prop := c.extractLsb' 20 44 = 0#44 ∧ c.getLsbD 19 = false ∧ c.getLsbD 15 = false ∧ c.getLsbD 11 = false

/-- A row of the opcode map, field by field: its opcode, the reserved bits 0, and each field its mask closes 0. R84. -/
theorem OpRow.matches_iff (r : OpRow) (c : Word) (x : Byte) (pd p1 p2 : Bool)
    (hb : r.bits = x.setWidth 64)
    (hm : r.mask = 0xFFFFFFFFFFF888FF#64 ||| (if pd then 0x700#64 else 0) ||| (if p1 then 0x7000#64 else 0)
      ||| (if p2 then 0x70000#64 else 0)) :
    r.matches c = true ↔ c.extractLsb' 0 8 = x ∧ reservedZero c ∧ (pd = true → c.extractLsb' 8 3 = 0#3) ∧ (p1 = true → c.extractLsb' 12 3 = 0#3) ∧ (p2 = true → c.extractLsb' 16 3 = 0#3) := by
  have key : ∀ i, i < 64 → r.mask.getLsbD i = (decide (i < 8) || decide (20 ≤ i) || i == 19 || i == 15 || i == 11 || (pd && (8 ≤ i && i < 11)) || (p1 && (12 ≤ i && i < 15)) || (p2 && (16 ≤ i && i < 19))) := by
    rw [hm]; cases pd <;> cases p1 <;> cases p2 <;> decide
  have hbit : ∀ i, i < 64 → r.bits.getLsbD i = (decide (i < 8) && x.getLsbD i) := by
    intro i hi; rw [hb]; simp [hi]
    by_cases h : i < 8
    · simp [h]
    · simp [h]; exact BitVec.getLsbD_of_ge _ _ (by omega)
  have hand : r.bits &&& r.mask = r.bits := by
    apply BitVec.eq_of_getLsbD_eq
    intro i hi
    rw [BitVec.getLsbD_and, key i hi, hbit i hi]
    by_cases h : i < 8 <;> simp [h]
  simp only [OpRow.matches, beq_iff_eq]
  rw [and_eq_iff _ _ _ hand]
  unfold reservedZero
  simp only [extractLsb'_eq_iff, BitVec.getLsbD_zero]
  have conv : (∀ i, i < 64 → r.mask.getLsbD i = true → c.getLsbD i = r.bits.getLsbD i) ↔
     (∀ i, i < 64 → (i < 8 ∨ 20 ≤ i ∨ i = 19 ∨ i = 15 ∨ i = 11 ∨ (pd = true ∧ 8 ≤ i ∧ i < 11) ∨ (p1 = true ∧ 12 ≤ i ∧ i < 15) ∨ (p2 = true ∧ 16 ≤ i ∧ i < 19)) → c.getLsbD i = (decide (i < 8) && x.getLsbD i)) := by
    constructor
    · intro h i hi hc
      rw [h i hi, hbit i hi]; rw [key i hi]; simpa [or_assoc] using hc
    · intro h i hi hc
      rw [hbit i hi]; refine h i hi ?_; rw [key i hi] at hc; simpa [or_assoc] using hc
  rw [conv]
  constructor
  · intro h
    refine ⟨fun j hj => ?_, ⟨fun j hj => ?_, ?_, ?_, ?_⟩, fun hp j hj => ?_, fun hp j hj => ?_, fun hp j hj => ?_⟩
    · rw [h _ (by omega) (by omega)]; simp [hj]
    · rw [h _ (by omega) (by omega), decide_eq_false (by omega), Bool.false_and]
    · rw [h _ (by omega) (by omega), decide_eq_false (by omega), Bool.false_and]
    · rw [h _ (by omega) (by omega), decide_eq_false (by omega), Bool.false_and]
    · rw [h _ (by omega) (by omega), decide_eq_false (by omega), Bool.false_and]
    · rw [h _ (by omega) (by simp [hp]; omega), decide_eq_false (by omega), Bool.false_and]
    · rw [h _ (by omega) (by simp [hp]; omega), decide_eq_false (by omega), Bool.false_and]
    · rw [h _ (by omega) (by simp [hp]; omega), decide_eq_false (by omega), Bool.false_and]
  · rintro ⟨h0, ⟨h20, h19, h15, h11⟩, hd, h1, h2⟩ i hi hc
    rcases hc with h | h | rfl | rfl | rfl | ⟨hp, h⟩ | ⟨hp, h⟩ | ⟨hp, h⟩
    · have := h0 i h; simpa [h] using this
    · have := h20 (i - 20) (by omega); rw [show 20 + (i - 20) = i by omega] at this; rw [this, decide_eq_false (by omega), Bool.false_and]
    · rw [h19, decide_eq_false (by omega), Bool.false_and]
    · rw [h15, decide_eq_false (by omega), Bool.false_and]
    · rw [h11, decide_eq_false (by omega), Bool.false_and]
    · have := hd hp (i - 8) (by omega); rw [show 8 + (i - 8) = i by omega] at this; rw [this, decide_eq_false (by omega), Bool.false_and]
    · have := h1 hp (i - 12) (by omega); rw [show 12 + (i - 12) = i by omega] at this; rw [this, decide_eq_false (by omega), Bool.false_and]
    · have := h2 hp (i - 16) (by omega); rw [show 16 + (i - 16) = i by omega] at this; rw [this, decide_eq_false (by omega), Bool.false_and]

/-- The words the decoder rejects are those of no row. R86, R87. -/
theorem decode_error_iff (c : Word) : (∃ e, decode c = .error e) ↔ wellFormedWord c = false := by
  rcases decode_cases c with ⟨h, e⟩ | ⟨h, e⟩ | ⟨h, e⟩ | ⟨h, e⟩ | ⟨h, e⟩ | ⟨h, e⟩ <;> rw [e] <;> simp [h, wellFormedWord, opcodeMap]
  simpa [wellFormedWord, opcodeMap] using h

end Sys2Proof
end

