-- ==== Sys2Proof/Laws/State.lean ====
section
/-! SUPPORT. One lemma per field per update of State, each true by rfl: no proof unfolds a record update. -/

namespace Sys2Proof.Machine

variable (s : State)

/-! ### setPair -/

@[simp] theorem State.setPair_tbuf (i : DIx) (v : Pair) : (s.setPair i v).tbuf = s.tbuf := rfl
@[simp] theorem State.setPair_tlen (i : DIx) (v : Pair) : (s.setPair i v).tlen = s.tlen := rfl
@[simp] theorem State.setPair_status (i : DIx) (v : Pair) : (s.setPair i v).status = s.status := rfl
@[simp] theorem State.setPair_ie (i : DIx) (v : Pair) : (s.setPair i v).ie = s.ie := rfl
@[simp] theorem State.setPair_inflight (i : DIx) (v : Pair) : (s.setPair i v).inflight = s.inflight := rfl
@[simp] theorem State.setPair_rst (i : DIx) (v : Pair) : (s.setPair i v).rst = s.rst := rfl
@[simp] theorem State.setPair_unwrittenUse (i : DIx) (v : Pair) : (s.setPair i v).unwrittenUse = s.unwrittenUse := rfl
@[simp] theorem State.setPair_port (i : DIx) (v : Pair) : (s.setPair i v).port = s.port := rfl
@[simp] theorem State.setPair_reads (i : DIx) (v : Pair) : (s.setPair i v).reads = s.reads := rfl

/-! ### setText -/

@[simp] theorem State.setText_d (t : Text) : (s.setText t).d = s.d := rfl
@[simp] theorem State.setText_tlen (t : Text) : (s.setText t).tlen = BitVec.ofNat 8 t.length := rfl
@[simp] theorem State.setText_status (t : Text) : (s.setText t).status = s.status := rfl
@[simp] theorem State.setText_ie (t : Text) : (s.setText t).ie = s.ie := rfl
@[simp] theorem State.setText_inflight (t : Text) : (s.setText t).inflight = s.inflight := rfl
@[simp] theorem State.setText_rst (t : Text) : (s.setText t).rst = s.rst := rfl
@[simp] theorem State.setText_unwrittenUse (t : Text) : (s.setText t).unwrittenUse = s.unwrittenUse := rfl
@[simp] theorem State.setText_port (t : Text) : (s.setText t).port = s.port := rfl
@[simp] theorem State.setText_reads (t : Text) : (s.setText t).reads = s.reads := rfl

/-! ### recordOutcome -/

@[simp] theorem State.recordOutcome_d (o : CmdOutcome) : (s.recordOutcome o).d = s.d := rfl
@[simp] theorem State.recordOutcome_tbuf (o : CmdOutcome) : (s.recordOutcome o).tbuf = s.tbuf := rfl
@[simp] theorem State.recordOutcome_tlen (o : CmdOutcome) : (s.recordOutcome o).tlen = s.tlen := rfl
@[simp] theorem State.recordOutcome_status (o : CmdOutcome) : (s.recordOutcome o).status = s.status.completed o := rfl
@[simp] theorem State.recordOutcome_ie (o : CmdOutcome) : (s.recordOutcome o).ie = s.ie := rfl
@[simp] theorem State.recordOutcome_inflight (o : CmdOutcome) : (s.recordOutcome o).inflight = none := rfl
@[simp] theorem State.recordOutcome_rst (o : CmdOutcome) : (s.recordOutcome o).rst = s.rst := rfl
@[simp] theorem State.recordOutcome_unwrittenUse (o : CmdOutcome) : (s.recordOutcome o).unwrittenUse = s.unwrittenUse := rfl
@[simp] theorem State.recordOutcome_port (o : CmdOutcome) : (s.recordOutcome o).port = s.port := rfl
@[simp] theorem State.recordOutcome_reads (o : CmdOutcome) : (s.recordOutcome o).reads = s.reads := rfl

/-! ### finishText -/

@[simp] theorem State.finishText_d (t : Text) : (s.finishText t).d = s.d := rfl
@[simp] theorem State.finishText_tlen (t : Text) : (s.finishText t).tlen = BitVec.ofNat 8 t.length := rfl
@[simp] theorem State.finishText_status (t : Text) : (s.finishText t).status = s.status.completed .ok := rfl
@[simp] theorem State.finishText_ie (t : Text) : (s.finishText t).ie = s.ie := rfl
@[simp] theorem State.finishText_inflight (t : Text) : (s.finishText t).inflight = none := rfl
@[simp] theorem State.finishText_rst (t : Text) : (s.finishText t).rst = s.rst := rfl
@[simp] theorem State.finishText_unwrittenUse (t : Text) : (s.finishText t).unwrittenUse = s.unwrittenUse := rfl
@[simp] theorem State.finishText_port (t : Text) : (s.finishText t).port = s.port := rfl
@[simp] theorem State.finishText_reads (t : Text) : (s.finishText t).reads = s.reads := rfl

/-! ### finishIllegal -/

@[simp] theorem State.finishIllegal_d : (s.finishIllegal).d = s.d := rfl
@[simp] theorem State.finishIllegal_tbuf : (s.finishIllegal).tbuf = s.tbuf := rfl
@[simp] theorem State.finishIllegal_tlen : (s.finishIllegal).tlen = s.tlen := rfl
@[simp] theorem State.finishIllegal_status : (s.finishIllegal).status = s.status.completed .illegalCommand := rfl
@[simp] theorem State.finishIllegal_ie : (s.finishIllegal).ie = s.ie := rfl
@[simp] theorem State.finishIllegal_inflight : (s.finishIllegal).inflight = none := rfl
@[simp] theorem State.finishIllegal_rst : (s.finishIllegal).rst = s.rst := rfl
@[simp] theorem State.finishIllegal_unwrittenUse : (s.finishIllegal).unwrittenUse = s.unwrittenUse := rfl
@[simp] theorem State.finishIllegal_port : (s.finishIllegal).port = s.port := rfl
@[simp] theorem State.finishIllegal_reads : (s.finishIllegal).reads = s.reads := rfl

/-! ### setWhole -/

@[simp] theorem State.setWhole_tbuf (n : DIx) (v : Word) : (s.setWhole n v).tbuf = s.tbuf := rfl
@[simp] theorem State.setWhole_tlen (n : DIx) (v : Word) : (s.setWhole n v).tlen = s.tlen := rfl
@[simp] theorem State.setWhole_status (n : DIx) (v : Word) : (s.setWhole n v).status = s.status := rfl
@[simp] theorem State.setWhole_ie (n : DIx) (v : Word) : (s.setWhole n v).ie = s.ie := rfl
@[simp] theorem State.setWhole_inflight (n : DIx) (v : Word) : (s.setWhole n v).inflight = s.inflight := rfl
@[simp] theorem State.setWhole_rst (n : DIx) (v : Word) : (s.setWhole n v).rst = s.rst := rfl
@[simp] theorem State.setWhole_unwrittenUse (n : DIx) (v : Word) : (s.setWhole n v).unwrittenUse = s.unwrittenUse := rfl
@[simp] theorem State.setWhole_port (n : DIx) (v : Word) : (s.setWhole n v).port = s.port := rfl
@[simp] theorem State.setWhole_reads (n : DIx) (v : Word) : (s.setWhole n v).reads = s.reads := rfl

/-! ### setFrac -/

@[simp] theorem State.setFrac_tbuf (n : DIx) (v : Word) : (s.setFrac n v).tbuf = s.tbuf := rfl
@[simp] theorem State.setFrac_tlen (n : DIx) (v : Word) : (s.setFrac n v).tlen = s.tlen := rfl
@[simp] theorem State.setFrac_status (n : DIx) (v : Word) : (s.setFrac n v).status = s.status := rfl
@[simp] theorem State.setFrac_ie (n : DIx) (v : Word) : (s.setFrac n v).ie = s.ie := rfl
@[simp] theorem State.setFrac_inflight (n : DIx) (v : Word) : (s.setFrac n v).inflight = s.inflight := rfl
@[simp] theorem State.setFrac_rst (n : DIx) (v : Word) : (s.setFrac n v).rst = s.rst := rfl
@[simp] theorem State.setFrac_unwrittenUse (n : DIx) (v : Word) : (s.setFrac n v).unwrittenUse = s.unwrittenUse := rfl
@[simp] theorem State.setFrac_port (n : DIx) (v : Word) : (s.setFrac n v).port = s.port := rfl
@[simp] theorem State.setFrac_reads (n : DIx) (v : Word) : (s.setFrac n v).reads = s.reads := rfl

/-! ### setTbufWord -/

@[simp] theorem State.setTbufWord_d (k : Fin 8) (v : Word) : (s.setTbufWord k v).d = s.d := rfl
@[simp] theorem State.setTbufWord_tlen (k : Fin 8) (v : Word) : (s.setTbufWord k v).tlen = s.tlen := rfl
@[simp] theorem State.setTbufWord_status (k : Fin 8) (v : Word) : (s.setTbufWord k v).status = s.status := rfl
@[simp] theorem State.setTbufWord_ie (k : Fin 8) (v : Word) : (s.setTbufWord k v).ie = s.ie := rfl
@[simp] theorem State.setTbufWord_inflight (k : Fin 8) (v : Word) : (s.setTbufWord k v).inflight = s.inflight := rfl
@[simp] theorem State.setTbufWord_rst (k : Fin 8) (v : Word) : (s.setTbufWord k v).rst = s.rst := rfl
@[simp] theorem State.setTbufWord_unwrittenUse (k : Fin 8) (v : Word) : (s.setTbufWord k v).unwrittenUse = s.unwrittenUse := rfl
@[simp] theorem State.setTbufWord_port (k : Fin 8) (v : Word) : (s.setTbufWord k v).port = s.port := rfl
@[simp] theorem State.setTbufWord_reads (k : Fin 8) (v : Word) : (s.setTbufWord k v).reads = s.reads := rfl

/-! ### setTlen -/

@[simp] theorem State.setTlen_d (v : Word) : (s.setTlen v).d = s.d := rfl
@[simp] theorem State.setTlen_tbuf (v : Word) : (s.setTlen v).tbuf = s.tbuf := rfl
@[simp] theorem State.setTlen_tlen (v : Word) : (s.setTlen v).tlen = v.setWidth 8 := rfl
@[simp] theorem State.setTlen_status (v : Word) : (s.setTlen v).status = s.status := rfl
@[simp] theorem State.setTlen_ie (v : Word) : (s.setTlen v).ie = s.ie := rfl
@[simp] theorem State.setTlen_inflight (v : Word) : (s.setTlen v).inflight = s.inflight := rfl
@[simp] theorem State.setTlen_rst (v : Word) : (s.setTlen v).rst = s.rst := rfl
@[simp] theorem State.setTlen_unwrittenUse (v : Word) : (s.setTlen v).unwrittenUse = s.unwrittenUse := rfl
@[simp] theorem State.setTlen_port (v : Word) : (s.setTlen v).port = s.port := rfl
@[simp] theorem State.setTlen_reads (v : Word) : (s.setTlen v).reads = s.reads := rfl

/-! ### clearStatus -/

@[simp] theorem State.clearStatus_d (v : Word) : (s.clearStatus v).d = s.d := rfl
@[simp] theorem State.clearStatus_tbuf (v : Word) : (s.clearStatus v).tbuf = s.tbuf := rfl
@[simp] theorem State.clearStatus_tlen (v : Word) : (s.clearStatus v).tlen = s.tlen := rfl
@[simp] theorem State.clearStatus_status (v : Word) : (s.clearStatus v).status = s.status.writeOneToClear v := rfl
@[simp] theorem State.clearStatus_ie (v : Word) : (s.clearStatus v).ie = s.ie := rfl
@[simp] theorem State.clearStatus_inflight (v : Word) : (s.clearStatus v).inflight = s.inflight := rfl
@[simp] theorem State.clearStatus_rst (v : Word) : (s.clearStatus v).rst = s.rst := rfl
@[simp] theorem State.clearStatus_unwrittenUse (v : Word) : (s.clearStatus v).unwrittenUse = s.unwrittenUse := rfl
@[simp] theorem State.clearStatus_port (v : Word) : (s.clearStatus v).port = s.port := rfl
@[simp] theorem State.clearStatus_reads (v : Word) : (s.clearStatus v).reads = s.reads := rfl

/-! ### setCtrl -/

@[simp] theorem State.setCtrl_d (v : Word) : (s.setCtrl v).d = s.d := rfl
@[simp] theorem State.setCtrl_tbuf (v : Word) : (s.setCtrl v).tbuf = s.tbuf := rfl
@[simp] theorem State.setCtrl_tlen (v : Word) : (s.setCtrl v).tlen = s.tlen := rfl
@[simp] theorem State.setCtrl_status (v : Word) : (s.setCtrl v).status = s.status := rfl
@[simp] theorem State.setCtrl_ie (v : Word) : (s.setCtrl v).ie = v.getLsbD 0 := rfl
@[simp] theorem State.setCtrl_inflight (v : Word) : (s.setCtrl v).inflight = s.inflight := rfl
@[simp] theorem State.setCtrl_rst (v : Word) : (s.setCtrl v).rst = s.rst := rfl
@[simp] theorem State.setCtrl_unwrittenUse (v : Word) : (s.setCtrl v).unwrittenUse = s.unwrittenUse := rfl
@[simp] theorem State.setCtrl_port (v : Word) : (s.setCtrl v).port = s.port := rfl
@[simp] theorem State.setCtrl_reads (v : Word) : (s.setCtrl v).reads = s.reads := rfl

/-! ### dropWrite -/

@[simp] theorem State.dropWrite_d : (s.dropWrite).d = s.d := rfl
@[simp] theorem State.dropWrite_tbuf : (s.dropWrite).tbuf = s.tbuf := rfl
@[simp] theorem State.dropWrite_tlen : (s.dropWrite).tlen = s.tlen := rfl
@[simp] theorem State.dropWrite_status : (s.dropWrite).status = s.status.dropped := rfl
@[simp] theorem State.dropWrite_ie : (s.dropWrite).ie = s.ie := rfl
@[simp] theorem State.dropWrite_inflight : (s.dropWrite).inflight = s.inflight := rfl
@[simp] theorem State.dropWrite_rst : (s.dropWrite).rst = s.rst := rfl
@[simp] theorem State.dropWrite_unwrittenUse : (s.dropWrite).unwrittenUse = s.unwrittenUse := rfl
@[simp] theorem State.dropWrite_port : (s.dropWrite).port = s.port := rfl
@[simp] theorem State.dropWrite_reads : (s.dropWrite).reads = s.reads := rfl

/-! ### accept -/

@[simp] theorem State.accept_d (c : Word) : (s.accept c).d = s.d := rfl
@[simp] theorem State.accept_tbuf (c : Word) : (s.accept c).tbuf = s.tbuf := rfl
@[simp] theorem State.accept_tlen (c : Word) : (s.accept c).tlen = s.tlen := rfl
@[simp] theorem State.accept_status (c : Word) : (s.accept c).status = s.status.issued := rfl
@[simp] theorem State.accept_ie (c : Word) : (s.accept c).ie = s.ie := rfl
@[simp] theorem State.accept_inflight (c : Word) : (s.accept c).inflight = some (s.capture c) := rfl
@[simp] theorem State.accept_rst (c : Word) : (s.accept c).rst = s.rst := rfl
@[simp] theorem State.accept_unwrittenUse (c : Word) : (s.accept c).unwrittenUse = s.unwrittenUse := rfl
@[simp] theorem State.accept_port (c : Word) : (s.accept c).port = s.port := rfl
@[simp] theorem State.accept_reads (c : Word) : (s.accept c).reads = s.reads := rfl

/-! ### observe -/

@[simp] theorem State.observe_d (off : Offset) (v : Word) : (s.observe off v).d = s.d := rfl
@[simp] theorem State.observe_tbuf (off : Offset) (v : Word) : (s.observe off v).tbuf = s.tbuf := rfl
@[simp] theorem State.observe_tlen (off : Offset) (v : Word) : (s.observe off v).tlen = s.tlen := rfl
@[simp] theorem State.observe_status (off : Offset) (v : Word) : (s.observe off v).status = s.status := rfl
@[simp] theorem State.observe_ie (off : Offset) (v : Word) : (s.observe off v).ie = s.ie := rfl
@[simp] theorem State.observe_inflight (off : Offset) (v : Word) : (s.observe off v).inflight = s.inflight := rfl
@[simp] theorem State.observe_rst (off : Offset) (v : Word) : (s.observe off v).rst = s.rst := rfl
@[simp] theorem State.observe_unwrittenUse (off : Offset) (v : Word) : (s.observe off v).unwrittenUse = s.unwrittenUse := rfl
@[simp] theorem State.observe_port (off : Offset) (v : Word) : (s.observe off v).port = s.port := rfl
@[simp] theorem State.observe_reads (off : Offset) (v : Word) : (s.observe off v).reads = ⟨off, v⟩ :: s.reads := rfl

/-! ### noteUse -/

@[simp] theorem State.noteUse_d (l : List Loc) : (s.noteUse l).d = s.d := rfl
@[simp] theorem State.noteUse_tbuf (l : List Loc) : (s.noteUse l).tbuf = s.tbuf := rfl
@[simp] theorem State.noteUse_tlen (l : List Loc) : (s.noteUse l).tlen = s.tlen := rfl
@[simp] theorem State.noteUse_status (l : List Loc) : (s.noteUse l).status = s.status := rfl
@[simp] theorem State.noteUse_ie (l : List Loc) : (s.noteUse l).ie = s.ie := rfl
@[simp] theorem State.noteUse_inflight (l : List Loc) : (s.noteUse l).inflight = s.inflight := rfl
@[simp] theorem State.noteUse_rst (l : List Loc) : (s.noteUse l).rst = s.rst := rfl
@[simp] theorem State.noteUse_unwrittenUse (l : List Loc) : (s.noteUse l).unwrittenUse = s.unwrittenUse.or (s.firstUnwritten l) := rfl
@[simp] theorem State.noteUse_port (l : List Loc) : (s.noteUse l).port = s.port := rfl
@[simp] theorem State.noteUse_reads (l : List Loc) : (s.noteUse l).reads = s.reads := rfl
@[simp] theorem State.noteUse_nil : s.noteUse [] = s := by simp [State.noteUse, State.firstUnwritten]

/-! ### issue -/

@[simp] theorem State.issue_d (c : Word) : (s.issue c).d = s.d := rfl
@[simp] theorem State.issue_tbuf (c : Word) : (s.issue c).tbuf = s.tbuf := rfl
@[simp] theorem State.issue_tlen (c : Word) : (s.issue c).tlen = s.tlen := rfl
@[simp] theorem State.issue_status (c : Word) : (s.issue c).status = s.status.issued := rfl
@[simp] theorem State.issue_ie (c : Word) : (s.issue c).ie = s.ie := rfl
@[simp] theorem State.issue_inflight (c : Word) : (s.issue c).inflight = some (s.capture c) := rfl
@[simp] theorem State.issue_rst (c : Word) : (s.issue c).rst = s.rst := rfl
@[simp] theorem State.issue_port (c : Word) : (s.issue c).port = s.port := rfl
@[simp] theorem State.issue_reads (c : Word) : (s.issue c).reads = s.reads := rfl

/-! ### finishPair -/

@[simp] theorem State.finishPair_tbuf (i : DIx) (o : CmdOutcome) (r : Option Pair) : (s.finishPair i o r).tbuf = s.tbuf := by cases r <;> rfl
@[simp] theorem State.finishPair_tlen (i : DIx) (o : CmdOutcome) (r : Option Pair) : (s.finishPair i o r).tlen = s.tlen := by cases r <;> rfl
@[simp] theorem State.finishPair_ie (i : DIx) (o : CmdOutcome) (r : Option Pair) : (s.finishPair i o r).ie = s.ie := by cases r <;> rfl
@[simp] theorem State.finishPair_rst (i : DIx) (o : CmdOutcome) (r : Option Pair) : (s.finishPair i o r).rst = s.rst := by cases r <;> rfl
@[simp] theorem State.finishPair_unwrittenUse (i : DIx) (o : CmdOutcome) (r : Option Pair) : (s.finishPair i o r).unwrittenUse = s.unwrittenUse := by cases r <;> rfl
@[simp] theorem State.finishPair_port (i : DIx) (o : CmdOutcome) (r : Option Pair) : (s.finishPair i o r).port = s.port := by cases r <;> rfl
@[simp] theorem State.finishPair_reads (i : DIx) (o : CmdOutcome) (r : Option Pair) : (s.finishPair i o r).reads = s.reads := by cases r <;> rfl
@[simp] theorem State.finishPair_inflight (i : DIx) (o : CmdOutcome) (r : Option Pair) : (s.finishPair i o r).inflight = none := by
  cases r <;> rfl
@[simp] theorem State.finishPair_some (i : DIx) (o : CmdOutcome) (v : Pair) :
    s.finishPair i o (some v) = (s.setPair i v).recordOutcome .ok := rfl
@[simp] theorem State.finishPair_none (i : DIx) (o : CmdOutcome) : s.finishPair i o none = s.recordOutcome o := rfl

/-! ### enterReset -/

@[simp] theorem State.enterReset_d : s.enterReset.d = State.reset.d := rfl
@[simp] theorem State.enterReset_tbuf : s.enterReset.tbuf = State.reset.tbuf := rfl
@[simp] theorem State.enterReset_tlen : s.enterReset.tlen = 0#8 := rfl
@[simp] theorem State.enterReset_status : s.enterReset.status = Status.reset := rfl
@[simp] theorem State.enterReset_ie : s.enterReset.ie = false := rfl
@[simp] theorem State.enterReset_inflight : s.enterReset.inflight = none := rfl
@[simp] theorem State.enterReset_rst : s.enterReset.rst = true := rfl
@[simp] theorem State.enterReset_unwrittenUse : s.enterReset.unwrittenUse = s.unwrittenUse := rfl
@[simp] theorem State.enterReset_port : s.enterReset.port = s.port := rfl
@[simp] theorem State.enterReset_reads : s.enterReset.reads = s.reads := rfl
@[simp] theorem State.setRst_true : s.setRst true = s.enterReset := rfl
@[simp] theorem State.setRst_false : s.setRst false = { s with rst := false } := rfl

/-! ### Fields of STATUS -/

variable (st : Status)

@[simp] theorem Status.issued_busy : (st.issued).busy = true := rfl
@[simp] theorem Status.issued_err : (st.issued).err = st.err := rfl
@[simp] theorem Status.issued_done : (st.issued).done = st.done := rfl
@[simp] theorem Status.issued_perr : (st.issued).perr = st.perr := rfl
@[simp] theorem Status.issued_ovf : (st.issued).ovf = st.ovf := rfl
@[simp] theorem Status.issued_ill : (st.issued).ill = st.ill := rfl
@[simp] theorem Status.issued_drop : (st.issued).drop = st.drop := rfl
@[simp] theorem Status.dropped_busy : (st.dropped).busy = st.busy := rfl
@[simp] theorem Status.dropped_err : (st.dropped).err = st.err := rfl
@[simp] theorem Status.dropped_done : (st.dropped).done = st.done := rfl
@[simp] theorem Status.dropped_perr : (st.dropped).perr = st.perr := rfl
@[simp] theorem Status.dropped_ovf : (st.dropped).ovf = st.ovf := rfl
@[simp] theorem Status.dropped_ill : (st.dropped).ill = st.ill := rfl
@[simp] theorem Status.dropped_drop : (st.dropped).drop = true := rfl
@[simp] theorem Status.writeOneToClear_busy (v : Word) : (st.writeOneToClear v).busy = st.busy := rfl
@[simp] theorem Status.writeOneToClear_err (v : Word) : (st.writeOneToClear v).err = st.err := rfl
@[simp] theorem Status.writeOneToClear_done (v : Word) : (st.writeOneToClear v).done = (st.done && !v.getLsbD 4) := rfl
@[simp] theorem Status.writeOneToClear_perr (v : Word) : (st.writeOneToClear v).perr = (st.perr && !v.getLsbD 5) := rfl
@[simp] theorem Status.writeOneToClear_ovf (v : Word) : (st.writeOneToClear v).ovf = (st.ovf && !v.getLsbD 6) := rfl
@[simp] theorem Status.writeOneToClear_ill (v : Word) : (st.writeOneToClear v).ill = (st.ill && !v.getLsbD 7) := rfl
@[simp] theorem Status.writeOneToClear_drop (v : Word) : (st.writeOneToClear v).drop = (st.drop && !v.getLsbD 8) := rfl
@[simp] theorem Status.completed_busy (o : CmdOutcome) : (st.completed o).busy = false := rfl
@[simp] theorem Status.completed_err (o : CmdOutcome) : (st.completed o).err = o := rfl
@[simp] theorem Status.completed_done (o : CmdOutcome) : (st.completed o).done = true := rfl
@[simp] theorem Status.completed_perr (o : CmdOutcome) : (st.completed o).perr = (st.perr || o == .parseError) := rfl
@[simp] theorem Status.completed_ovf (o : CmdOutcome) : (st.completed o).ovf = (st.ovf || o == .arithmeticOverflow) := rfl
@[simp] theorem Status.completed_ill (o : CmdOutcome) : (st.completed o).ill = (st.ill || o == .illegalCommand) := rfl
@[simp] theorem Status.completed_drop (o : CmdOutcome) : (st.completed o).drop = st.drop := rfl

/-! ### The reset state -/

@[simp] theorem State.reset_tlen : State.reset.tlen = 0#8 := rfl
@[simp] theorem State.reset_status : State.reset.status = Status.reset := rfl
@[simp] theorem State.reset_ie : State.reset.ie = false := rfl
@[simp] theorem State.reset_inflight : State.reset.inflight = none := rfl
@[simp] theorem State.reset_rst : State.reset.rst = false := rfl
@[simp] theorem State.reset_unwrittenUse : State.reset.unwrittenUse = none := rfl
@[simp] theorem State.reset_port : State.reset.port = [] := rfl
@[simp] theorem State.reset_reads : State.reset.reads = [] := rfl
@[simp] theorem State.reset_reg (n : DIx) : State.reset.reg n = DReg.reset := by simp [State.reg, State.reset]
@[simp] theorem State.reset_cell (k : Fin 64) : State.reset.cell k = ⟨0#8, false⟩ := by simp [State.cell, State.reset]
@[simp] theorem State.enterReset_reg (n : DIx) : s.enterReset.reg n = DReg.reset := State.reset_reg n
@[simp] theorem State.enterReset_cell (k : Fin 64) : s.enterReset.cell k = ⟨0#8, false⟩ := State.reset_cell k

/-! ### Reading a register or a byte after an update -/

theorem State.reg_congr (s t : State) (h : t.d = s.d) : t.reg = s.reg := by funext i; simp [State.reg, h]
theorem State.cell_congr (s t : State) (h : t.tbuf = s.tbuf) : t.cell = s.cell := by funext k; simp [State.cell, h]
@[simp] theorem State.recordOutcome_reg (o : CmdOutcome) : (s.recordOutcome o).reg = s.reg := rfl
@[simp] theorem State.recordOutcome_pair (o : CmdOutcome) : (s.recordOutcome o).pair = s.pair := rfl
@[simp] theorem State.recordOutcome_cell (o : CmdOutcome) : (s.recordOutcome o).cell = s.cell := rfl
@[simp] theorem State.recordOutcome_text (o : CmdOutcome) : (s.recordOutcome o).text = s.text := rfl
@[simp] theorem State.setPair_cell (i : DIx) (v : Pair) : (s.setPair i v).cell = s.cell := rfl
@[simp] theorem State.setText_reg (x : Text) : (s.setText x).reg = s.reg := rfl
@[simp] theorem State.setText_pair (x : Text) : (s.setText x).pair = s.pair := rfl
@[simp] theorem State.accept_reg (c : Word) : (s.accept c).reg = s.reg := rfl
@[simp] theorem State.accept_cell (c : Word) : (s.accept c).cell = s.cell := rfl
@[simp] theorem State.setTbufWord_reg (k : Fin 8) (v : Word) : (s.setTbufWord k v).reg = s.reg := rfl
@[simp] theorem State.setTlen_reg (v : Word) : (s.setTlen v).reg = s.reg := rfl
@[simp] theorem State.setTlen_cell (v : Word) : (s.setTlen v).cell = s.cell := rfl
@[simp] theorem State.setWhole_cell (n : DIx) (v : Word) : (s.setWhole n v).cell = s.cell := rfl
@[simp] theorem State.setFrac_cell (n : DIx) (v : Word) : (s.setFrac n v).cell = s.cell := rfl
@[simp] theorem State.clearStatus_reg (v : Word) : (s.clearStatus v).reg = s.reg := rfl
@[simp] theorem State.clearStatus_cell (v : Word) : (s.clearStatus v).cell = s.cell := rfl
@[simp] theorem State.setCtrl_reg (v : Word) : (s.setCtrl v).reg = s.reg := rfl
@[simp] theorem State.setCtrl_cell (v : Word) : (s.setCtrl v).cell = s.cell := rfl
@[simp] theorem State.dropWrite_reg : s.dropWrite.reg = s.reg := rfl
@[simp] theorem State.dropWrite_cell : s.dropWrite.cell = s.cell := rfl
@[simp] theorem State.observe_reg (off : Offset) (v : Word) : (s.observe off v).reg = s.reg := rfl
@[simp] theorem State.noteUse_reg (l : List Loc) : (s.noteUse l).reg = s.reg := rfl
@[simp] theorem State.noteUse_cell (l : List Loc) : (s.noteUse l).cell = s.cell := rfl
@[simp] theorem State.noteUse_window (l : List Loc) (r : WindowReg) : (s.noteUse l).window r = s.window r := by cases r <;> rfl
@[simp] theorem State.noteUse_isWritten (l : List Loc) (m : Loc) : (s.noteUse l).isWritten m = s.isWritten m := by cases m <;> rfl
@[simp] theorem State.observe_cell (off : Offset) (v : Word) : (s.observe off v).cell = s.cell := rfl

theorem State.d_ext (s t : State) (h : ∀ i, t.reg i = s.reg i) : t.d = s.d := by
  apply Vector.ext
  intro i hi
  exact h ⟨i, hi⟩
theorem State.tbuf_ext (s t : State) (h : ∀ k, t.cell k = s.cell k) : t.tbuf = s.tbuf := by
  apply Vector.ext
  intro i hi
  exact h ⟨i, hi⟩

@[simp] theorem State.setPair_reg_same (i : DIx) (v : Pair) : (s.setPair i v).reg i = ⟨⟨v.w, true⟩, ⟨v.f, true⟩⟩ := by
  simp [State.setPair, State.reg]
theorem State.setPair_reg_other (i j : DIx) (v : Pair) (h : j ≠ i) : (s.setPair i v).reg j = s.reg j := by
  simp [State.setPair, State.reg, Fin.val_ne_of_ne h.symm]
@[simp] theorem State.setPair_pair_same (i : DIx) (v : Pair) : (s.setPair i v).pair i = v := by simp [State.pair]
@[simp] theorem State.setWhole_reg_same (n : DIx) (v : Word) : (s.setWhole n v).reg n = ⟨⟨v, true⟩, (s.reg n).frac⟩ := by
  simp [State.setWhole, State.reg]
theorem State.setWhole_reg_other (n j : DIx) (v : Word) (h : j ≠ n) : (s.setWhole n v).reg j = s.reg j := by
  simp [State.setWhole, State.reg, Fin.val_ne_of_ne h.symm]
@[simp] theorem State.setFrac_reg_same (n : DIx) (v : Word) : (s.setFrac n v).reg n = ⟨(s.reg n).whole, ⟨v, true⟩⟩ := by
  simp [State.setFrac, State.reg]
theorem State.setFrac_reg_other (n j : DIx) (v : Word) (h : j ≠ n) : (s.setFrac n v).reg j = s.reg j := by
  simp [State.setFrac, State.reg, Fin.val_ne_of_ne h.symm]
theorem textCells_getElem (t : Text) (k : Nat) (h : k < (textCells t).length) :
    (textCells t)[k] = ⟨t.getD k 0#8, true⟩ := by
  simp only [textCells, List.getElem_take]
  by_cases hk : k < t.length
  · rw [List.getElem_append_left (by simpa using hk)]
    simp [List.getD, hk]
  · rw [List.getElem_append_right (by simpa using hk)]
    simp [List.getD, hk]
@[simp] theorem State.setText_cell (t : Text) (k : Fin 64) : (s.setText t).cell k = ⟨t.getD k.val 0#8, true⟩ := by
  have h : k.val < (textCells t).length := by have := textCells_size t; have := k.isLt; simp at *; omega
  exact textCells_getElem t k.val h
@[simp] theorem State.setTbufWord_cell (k : Fin 8) (v : Word) (i : Fin 64) :
    (s.setTbufWord k v).cell i = if i.val / 8 = k.val then ⟨lane v (i.val % 8), true⟩ else s.cell i := by
  obtain ⟨r, hr, hi⟩ : ∃ r, r < 8 ∧ i.val = 8 * (i.val / 8) + r := ⟨i.val % 8, by omega, by omega⟩
  simp only [State.setTbufWord, State.cell, List.finRange_succ, List.finRange_zero, List.map_nil, List.map_cons, List.foldl_cons,
    List.foldl_nil, Fin.getElem_fin, Vector.getElem_set, tbufIx]
  by_cases hk : i.val / 8 = k.val
  · rw [hk] at hi
    rw [if_pos hk]
    interval_cases r <;> simp [hi]
  · have ne : ∀ j, j < 8 → 8 * k.val + j ≠ i.val := by omega
    have ne0 : 8 * k.val ≠ i.val := by omega
    simp [hk, ne, ne0]

end Sys2Proof.Machine
end

