-- ==== Sys2Proof/Laws/Ops.lean ====
section
/-! SUPPORT. For each shared operation, once, everything it can do: later proofs cite these and do not unfold it. -/

namespace Sys2Proof.Machine

variable {s t : State}

/-! ### The operand record -/

theorem State.record_of_inflight {f : InFlight} (h : s.inflight = some f) (i : Instr) : s.record i = f := by
  simp [State.record, h]

theorem State.record_of_idle (h : s.inflight = none) (i : Instr) : s.record i = s.capture (encode i) := by
  simp [State.record, h]

@[simp] theorem State.capture_dadd (rd rs1 rs2 : DIx) :
    s.capture (encode (.dadd rd rs1 rs2)) = ⟨encode (.dadd rd rs1 rs2), s.pair rs1, s.pair rs2, 0#8, []⟩ := by simp [State.capture]
@[simp] theorem State.capture_dsub (rd rs1 rs2 : DIx) :
    s.capture (encode (.dsub rd rs1 rs2)) = ⟨encode (.dsub rd rs1 rs2), s.pair rs1, s.pair rs2, 0#8, []⟩ := by simp [State.capture]
@[simp] theorem State.capture_dmul (rd rs1 rs2 : DIx) :
    s.capture (encode (.dmul rd rs1 rs2)) = ⟨encode (.dmul rd rs1 rs2), s.pair rs1, s.pair rs2, 0#8, []⟩ := by simp [State.capture]
@[simp] theorem State.capture_dparse (rd : DIx) :
    s.capture (encode (.dparse rd)) = ⟨encode (.dparse rd), Pair.zero, Pair.zero, s.tlen,
      if s.tlen.toNat ≤ Config.tbufLen then s.text s.tlen.toNat else []⟩ := by simp [State.capture]
@[simp] theorem State.capture_dfmt (rs1 : DIx) :
    s.capture (encode (.dfmt rs1)) = ⟨encode (.dfmt rs1), s.pair rs1, Pair.zero, 0#8, []⟩ := by simp [State.capture]

@[simp] theorem State.capture_word (c : Word) : (s.capture c).word = c := by
  unfold State.capture
  split <;> rfl

theorem State.text_length (n : Nat) : (s.text n).length = min n 64 := by simp [State.text]

/-- The record depends on the decimal registers, TBUF and TLEN alone. -/
theorem State.capture_congr (hd : t.d = s.d) (hb : t.tbuf = s.tbuf) (hl : t.tlen = s.tlen) (c : Word) : t.capture c = s.capture c := by
  have hp : t.pair = s.pair := by funext i; simp [State.pair, State.reg, hd]
  have ht : t.text = s.text := by funext n; simp [State.text, hb]
  simp only [State.capture, hp, ht, hl]

/-- Issue takes a record of its command's shape. -/
theorem State.capture_shaped (c : Word) : (s.capture c).shaped := by
  rcases decode_cases c with ⟨_, h⟩ | ⟨_, h⟩ | ⟨_, h⟩ | ⟨_, h⟩ | ⟨_, h⟩ | ⟨_, h⟩ <;>
    simp only [InFlight.shaped, State.capture, h, and_self, true_and]
  split
  · next hl => simpa [State.text_length] using hl
  · rfl

/-! ### Uses of unwritten storage -/

theorem State.firstUnwritten_some {l : Loc} {locs : List Loc} (h : s.firstUnwritten locs = some l) : l ∈ locs ∧ s.isWritten l = false :=
  ⟨List.mem_of_find?_eq_some h, by simpa using List.find?_some h⟩

theorem State.firstUnwritten_none {locs : List Loc} : s.firstUnwritten locs = none ↔ ∀ l ∈ locs, s.isWritten l = true := by
  simp [State.firstUnwritten]

/-- Which location is first unwritten depends on the decimal registers and TBUF alone. -/
theorem State.firstUnwritten_congr (hd : t.d = s.d) (hb : t.tbuf = s.tbuf) (locs : List Loc) :
    t.firstUnwritten locs = s.firstUnwritten locs := by
  have hw : t.isWritten = s.isWritten := by
    funext l
    cases l <;> simp only [State.isWritten, State.reg_congr s t hd, State.cell_congr s t hb]
  simp only [State.firstUnwritten, hw]

/-- What an issue records of its use of unwritten storage. -/
theorem State.issue_unwrittenUse (c : Word) : (s.issue c).unwrittenUse = (s.noteUse (s.operandLocs c)).unwrittenUse := by
  simp only [State.issue, State.noteUse_unwrittenUse, State.accept_unwrittenUse, State.firstUnwritten_congr (State.accept_d s c) (State.accept_tbuf s c)]

/-- Noting a use again, in a state with the same storage, records nothing new. -/
theorem State.noteUse_again {locs : List Loc} (hu : t.unwrittenUse = (s.noteUse locs).unwrittenUse) (hd : t.d = s.d)
    (hb : t.tbuf = s.tbuf) : t.noteUse locs = t := by
  have h : (t.noteUse locs).unwrittenUse = t.unwrittenUse := by
    simp only [State.noteUse_unwrittenUse, hu, State.firstUnwritten_congr hd hb]
    cases s.unwrittenUse <;> cases s.firstUnwritten locs <;> rfl
  calc t.noteUse locs = { t with unwrittenUse := (t.noteUse locs).unwrittenUse } := rfl
    _ = t := by rw [h]

/-- What is recorded stays recorded. -/
theorem State.noteUse_recorded {l : Loc} (locs : List Loc) (h : s.unwrittenUse = some l) : (s.noteUse locs).unwrittenUse = some l := by
  simp [h]

/-- A use records its first unwritten location, if the run has recorded none yet. -/
theorem State.noteUse_fresh (locs : List Loc) (h : s.unwrittenUse = none) : (s.noteUse locs).unwrittenUse = s.firstUnwritten locs := by
  simp [h]

/-! ### Completion -/

/-- A completion that ends in a pair or an error: what each field becomes. -/
theorem State.finishPair_cases (s : State) (rd : DIx) (o : CmdOutcome) (r : Option Pair) :
    (∃ v, r = some v ∧ s.finishPair rd o r = (s.setPair rd v).recordOutcome .ok) ∨ (r = none ∧ s.finishPair rd o r = s.recordOutcome o) := by
  cases r with
  | some v => exact .inl ⟨v, rfl, rfl⟩
  | none => exact .inr ⟨rfl, rfl⟩

/-- Every command's meaning, as the one operation it ends in. -/
theorem exec_dadd (rd rs1 rs2 : DIx) : exec (.dadd rd rs1 rs2) s =
    .next (s.finishPair rd .arithmeticOverflow (addPair (s.record (.dadd rd rs1 rs2)).a (s.record (.dadd rd rs1 rs2)).b)) := rfl
theorem exec_dsub (rd rs1 rs2 : DIx) : exec (.dsub rd rs1 rs2) s =
    .next (s.finishPair rd .arithmeticOverflow (subPair (s.record (.dsub rd rs1 rs2)).a (s.record (.dsub rd rs1 rs2)).b)) := rfl
theorem exec_dmul (rd rs1 rs2 : DIx) : exec (.dmul rd rs1 rs2) s =
    .next (s.finishPair rd .arithmeticOverflow (mulPair (s.record (.dmul rd rs1 rs2)).a (s.record (.dmul rd rs1 rs2)).b)) := rfl
theorem exec_dparse (rd : DIx) : exec (.dparse rd) s =
    .next (s.finishPair rd .parseError (parseRecord (s.record (.dparse rd)).len (s.record (.dparse rd)).text)) := rfl
theorem exec_dfmt (rs1 : DIx) : exec (.dfmt rs1) s = .next (s.finishText (fmtText (s.record (.dfmt rs1)).a)) := rfl

/-- What a completion can do: write a pair, fail with an error and write nothing, or write a text. -/
theorem exec_cases {i : Instr} (h : exec i s = .next t) :
    (∃ rd v, t = (s.setPair rd v).recordOutcome .ok) ∨ (∃ o, o ≠ .ok ∧ t = s.recordOutcome o) ∨ (∃ x, t = s.finishText x) := by
  cases i with
  | dadd rd rs1 rs2 =>
    rw [exec_dadd] at h; cases h
    rcases s.finishPair_cases rd .arithmeticOverflow (addPair (s.record (.dadd rd rs1 rs2)).a (s.record (.dadd rd rs1 rs2)).b) with
      ⟨v, -, e⟩ | ⟨-, e⟩
    · exact .inl ⟨rd, v, e⟩
    · exact .inr (.inl ⟨_, by decide, e⟩)
  | dsub rd rs1 rs2 =>
    rw [exec_dsub] at h; cases h
    rcases s.finishPair_cases rd .arithmeticOverflow (subPair (s.record (.dsub rd rs1 rs2)).a (s.record (.dsub rd rs1 rs2)).b) with
      ⟨v, -, e⟩ | ⟨-, e⟩
    · exact .inl ⟨rd, v, e⟩
    · exact .inr (.inl ⟨_, by decide, e⟩)
  | dmul rd rs1 rs2 =>
    rw [exec_dmul] at h; cases h
    rcases s.finishPair_cases rd .arithmeticOverflow (mulPair (s.record (.dmul rd rs1 rs2)).a (s.record (.dmul rd rs1 rs2)).b) with
      ⟨v, -, e⟩ | ⟨-, e⟩
    · exact .inl ⟨rd, v, e⟩
    · exact .inr (.inl ⟨_, by decide, e⟩)
  | dparse rd =>
    rw [exec_dparse] at h; cases h
    rcases s.finishPair_cases rd .parseError (parseRecord (s.record (.dparse rd)).len (s.record (.dparse rd)).text) with
      ⟨v, -, e⟩ | ⟨-, e⟩
    · exact .inl ⟨rd, v, e⟩
    · exact .inr (.inl ⟨_, by decide, e⟩)
  | dfmt rs1 => cases h; exact .inr (.inr ⟨_, rfl⟩)

/-- `exec` always answers a next state. -/
theorem exec_next (i : Instr) (s : State) : ∃ t, exec i s = .next t := by
  cases i <;> exact ⟨_, rfl⟩

/-- What every completion leaves alone, and what it does to the record, to BUSY and to DONE. -/
theorem exec_fields {i : Instr} (h : exec i s = .next t) :
    t.ie = s.ie ∧ t.rst = s.rst ∧ t.port = s.port ∧ t.reads = s.reads ∧ t.unwrittenUse = s.unwrittenUse ∧ t.inflight = none
      ∧ t.status = s.status.completed t.status.err := by
  rcases exec_cases h with ⟨rd, v, rfl⟩ | ⟨o, -, rfl⟩ | ⟨x, rfl⟩ <;> simp [Status.completed]

theorem State.complete_cases {f : InFlight} (h : s.complete f = .next t) :
    (∃ i, decode f.word = .ok i ∧ exec i s = .next t) ∨ ((∃ e, decode f.word = .error e) ∧ t = s.finishIllegal) := by
  unfold State.complete at h
  split at h
  · next i hi => exact .inl ⟨i, hi, h⟩
  · next e he => cases h; exact .inr ⟨⟨e, he⟩, rfl⟩

/-- What every completion, of a command or of an illegal word, does outside the results. -/
theorem State.complete_fields {f : InFlight} (h : s.complete f = .next t) :
    t.ie = s.ie ∧ t.rst = s.rst ∧ t.port = s.port ∧ t.reads = s.reads ∧ t.unwrittenUse = s.unwrittenUse ∧ t.inflight = none
      ∧ t.status = s.status.completed t.status.err := by
  rcases s.complete_cases h with ⟨i, -, h⟩ | ⟨-, rfl⟩
  · exact exec_fields h
  · simp

theorem State.complete_next (s : State) (f : InFlight) : ∃ t, s.complete f = .next t := by
  unfold State.complete
  split
  · exact exec_next _ _
  · exact ⟨_, rfl⟩

/-- The unit's step: nothing, or the completion of the command in flight. -/
theorem State.unitStep_cases (h : s.unitStep = .next t) :
    t = s ∨ (s.rst = false ∧ s.status.busy = true ∧ ∃ f, s.inflight = some f ∧ s.complete f = .next t) := by
  unfold State.unitStep at h
  split at h
  · cases h; exact .inl rfl
  · next hb =>
    split at h
    · next f hf => exact .inr ⟨by simp_all, by simp_all, f, hf, h⟩
    · cases h; exact .inl rfl

theorem State.unitStep_of_inflight {f : InFlight} (hr : s.rst = false) (hb : s.status.busy = true) (hf : s.inflight = some f) :
    s.unitStep = s.complete f := by
  simp [State.unitStep, hr, hb, hf]

theorem State.unitStep_of_not_busy (hb : s.status.busy = false) : s.unitStep = .next s := by simp [State.unitStep, hb]

theorem State.unitStep_of_rst (hr : s.rst = true) : s.unitStep = .next s := by simp [State.unitStep, hr]

/-! ### Host accesses -/

theorem accessOk_iff (off : Offset) (width : Nat) : accessOk off width = true ↔ width = 8 ∧ off.toNat % 8 = 0 := by
  simp [accessOk]

theorem State.hostRead_bad {off : Offset} {width : Nat} (h : accessOk off width = false) :
    s.hostRead off width = .fault (.hostAccessFault off width false) := by simp [State.hostRead, h]

theorem State.hostWrite_bad {off : Offset} {width : Nat} {v : Word} (h : accessOk off width = false) :
    s.hostWrite off width v = .fault (.hostAccessFault off width true) := by simp [State.hostWrite, h]

theorem State.hostRead_rst {off : Offset} {width : Nat} (h : accessOk off width = true) (hr : s.rst = true) :
    s.hostRead off width = .next (s.observe off 0#64) := by simp [State.hostRead, h, hr]

theorem State.hostRead_ok {off : Offset} {width : Nat} (h : accessOk off width = true) (hr : s.rst = false) :
    s.hostRead off width = .next ((s.noteUse (windowReg off).locs).observe off (s.window (windowReg off))) := by
  simp [State.hostRead, h, hr]

theorem State.hostWrite_rst {off : Offset} {width : Nat} {v : Word} (h : accessOk off width = true) (hr : s.rst = true) :
    s.hostWrite off width v = .next s := by simp [State.hostWrite, h, hr]

theorem State.hostWrite_ok {off : Offset} {width : Nat} {v : Word} (h : accessOk off width = true) (hr : s.rst = false) :
    s.hostWrite off width v = .next (s.writeWindow (windowReg off) v) := by simp [State.hostWrite, h, hr]

/-- A host read that goes on changes the observation and what the run has recorded, and nothing else. -/
theorem State.hostRead_cases {off : Offset} {width : Nat} (h : s.hostRead off width = .next t) :
    accessOk off width = true ∧ ((s.rst = true ∧ t = s.observe off 0#64)
      ∨ (s.rst = false ∧ t = (s.noteUse (windowReg off).locs).observe off (s.window (windowReg off)))) := by
  unfold State.hostRead at h
  split at h
  · cases h
  · next ha =>
    refine ⟨by simpa using ha, ?_⟩
    split at h
    · next hr => cases h; exact .inl ⟨hr, rfl⟩
    · next hr => cases h; exact .inr ⟨by simpa using hr, rfl⟩

/-- The same, field by field. -/
theorem State.hostRead_fields {off : Offset} {width : Nat} (h : s.hostRead off width = .next t) :
    accessOk off width = true ∧ ∃ x u, t = { s with unwrittenUse := u, reads := ⟨off, x⟩ :: s.reads } := by
  obtain ⟨ha, ⟨-, rfl⟩ | ⟨-, rfl⟩⟩ := s.hostRead_cases h <;> exact ⟨ha, _, _, rfl⟩

/-- What a write to a window register can do. -/
theorem State.writeWindow_cases {r : WindowReg} {v : Word} (h : s.writeWindow r v = t) :
    (r = .status ∧ t = s.clearStatus v) ∨ (r = .ctrl ∧ t = s.setCtrl v) ∨ (r = .reserved ∧ t = s)
    ∨ (r.guarded = true ∧ s.status.busy = true ∧ t = s.dropWrite)
    ∨ (r = .cmd ∧ s.status.busy = false ∧ t = s.issue v)
    ∨ (r = .tlen ∧ s.status.busy = false ∧ t = s.setTlen v)
    ∨ (∃ n, r = .whole n ∧ s.status.busy = false ∧ t = s.setWhole n v)
    ∨ (∃ n, r = .frac n ∧ s.status.busy = false ∧ t = s.setFrac n v)
    ∨ (∃ k, r = .tbuf k ∧ s.status.busy = false ∧ t = s.setTbufWord k v) := by
  subst h
  cases r <;> cases hb : s.status.busy <;> simp [State.writeWindow, hb, WindowReg.guarded]

/-- What a host write can do. -/
theorem State.hostWrite_cases {off : Offset} {width : Nat} {v : Word} (h : s.hostWrite off width v = .next t) :
    accessOk off width = true ∧ ((s.rst = true ∧ t = s) ∨ (s.rst = false ∧ s.writeWindow (windowReg off) v = t)) := by
  unfold State.hostWrite at h
  split at h
  · cases h
  · next ha =>
    refine ⟨by simpa using ha, ?_⟩
    split at h
    · next hr => cases h; exact .inl ⟨hr, rfl⟩
    · next hr => cases h; exact .inr ⟨by simpa using hr, rfl⟩

/-! ### The register map -/

@[simp] theorem windowReg_offCmd : windowReg offCmd = .cmd := by decide
@[simp] theorem windowReg_offStatus : windowReg offStatus = .status := by decide
@[simp] theorem windowReg_offCtrl : windowReg offCtrl = .ctrl := by decide
@[simp] theorem windowReg_offTlen : windowReg offTlen = .tlen := by decide
@[simp] theorem windowReg_offWhole : ∀ n, windowReg (offWhole n) = .whole n := by decide
@[simp] theorem windowReg_offFrac : ∀ n, windowReg (offFrac n) = .frac n := by decide
@[simp] theorem windowReg_offTbuf : ∀ k, windowReg (offTbuf k) = .tbuf k := by decide
@[simp] theorem accessOk_offCmd : accessOk offCmd 8 = true := by decide
@[simp] theorem accessOk_offStatus : accessOk offStatus 8 = true := by decide
@[simp] theorem accessOk_offCtrl : accessOk offCtrl 8 = true := by decide
@[simp] theorem accessOk_offTlen : accessOk offTlen 8 = true := by decide
@[simp] theorem accessOk_offWhole : ∀ n, accessOk (offWhole n) 8 = true := by decide
@[simp] theorem accessOk_offFrac : ∀ n, accessOk (offFrac n) 8 = true := by decide
@[simp] theorem accessOk_offTbuf : ∀ k, accessOk (offTbuf k) 8 = true := by decide

/-! ### The step -/

/-- What a step can do: take the first event of the port, or, with none, the unit's step. -/
theorem step_cases (s : State) :
    (s.port = [] ∧ step s = s.unitStep) ∨ (∃ e rest, s.port = e :: rest ∧ step s = ({ s with port := rest } : State).onEvent e) := by
  cases hp : s.port with
  | nil => exact .inl ⟨rfl, by simp [step, State.advance, hp]⟩
  | cons e rest => exact .inr ⟨e, rest, rfl, by simp [step, State.advance, hp]⟩

end Sys2Proof.Machine
end

