-- ==== Sys2Proof/Laws/Arith.lean ====
section
/-! SUPPORT. The integers behind the arithmetic: narrowing, the selected fraction operation and the exact whole word as integers
(41_addsub.md R101 to R104, R111 to R113), and the units of a value (10_state.md R25, R30). -/

namespace Sys2Proof.Machine

open Sys2Proof.Config

/-- An integer of the signed 64-bit range survives the round through its bits. R10. -/
theorem toInt_ofInt_of_fits {x : Int} (h1 : iMin ≤ x) (h2 : x ≤ iMax) : (BitVec.ofInt 64 x).toInt = x := by
  unfold iMin at h1
  unfold iMax at h2
  rw [BitVec.toInt_ofInt, Int.bmod_eq_of_le] <;> omega

theorem toInt_bounds (w : Word) : iMin ≤ w.toInt ∧ w.toInt ≤ iMax := by
  have h1 := BitVec.le_toInt w
  have h2 := BitVec.toInt_lt (x := w)
  simp only [iMin, iMax]
  omega

theorem eq_zero_iff_toNat (w : Word) : w = 0#64 ↔ w.toNat = 0 :=
  ⟨fun h => by simp [h], fun h => BitVec.eq_of_toNat_eq (by simpa using h)⟩

/-- The pair of two integers in range is read back. R10. -/
theorem Pair.ofInts_w {x : Int} (h1 : iMin ≤ x) (h2 : x ≤ iMax) (f : Nat) : (Pair.ofInts x f).w.toInt = x := toInt_ofInt_of_fits h1 h2
theorem Pair.ofInts_f (x : Int) {f : Nat} (h : f < 2 ^ 64) : (Pair.ofInts x f).f.toNat = f := by
  simp only [Pair.ofInts, BitVec.toNat_ofNat]
  exact Nat.mod_eq_of_lt h
theorem Pair.ofInts_self (v : Pair) : Pair.ofInts v.w.toInt v.f.toNat = v := by simp [Pair.ofInts]
theorem Pair.eq_iff (v u : Pair) : v = u ↔ v.w.toInt = u.w.toInt ∧ v.f.toNat = u.f.toNat := by
  cases v; cases u
  simp [BitVec.toInt_inj, BitVec.toNat_inj]

/-- `narrow` gives the pair of the exact whole word exactly when that word fits. R104, R113. -/
theorem narrow_some {x : Int} {lo : Word} {r : Pair} (h : narrow x lo = some r) : r.w.toInt = x ∧ r.f = lo ∧ iMin ≤ x ∧ x ≤ iMax := by
  unfold narrow inRange at h
  split at h
  · next hr =>
    cases h
    have hr := of_decide_eq_true hr
    exact ⟨toInt_ofInt_of_fits hr.1 hr.2, rfl, hr⟩
  · cases h
theorem narrow_of_fits {x : Int} {lo : Word} (h1 : iMin ≤ x) (h2 : x ≤ iMax) : narrow x lo = some ⟨BitVec.ofInt 64 x, lo⟩ := by
  simp [narrow, inRange, h1, h2]
theorem narrow_of_not_fits {x : Int} {lo : Word} (h : ¬ (iMin ≤ x ∧ x ≤ iMax)) : narrow x lo = none := by
  rw [narrow, if_neg]
  simpa [inRange] using h

/-- `addWhole` and the fraction it goes with, when the signs match. R102, R103, R104. -/
theorem add_same {a b : Pair} (h : a.w.toInt < 0 ↔ b.w.toInt < 0) :
    (addSelect a b).1.toNat = (a.f.toNat + b.f.toNat) % 2 ^ 64 ∧ (addSelect a b).2 = decide (2 ^ 64 ≤ a.f.toNat + b.f.toNat)
      ∧ addWhole a b = a.w.toInt + b.w.toInt
        + if 2 ^ 64 ≤ a.f.toNat + b.f.toNat then (if a.w.toInt < 0 then -1 else 1) else 0 := by
  simp [addWhole, addSelect, overflowingAdd, carry, sgn, neg, h]
/-- `addWhole` and the fraction it goes with, when the signs differ. -/
theorem add_differ {a b : Pair} (h : ¬ (a.w.toInt < 0 ↔ b.w.toInt < 0)) :
    (addSelect a b).1.toNat = (a.f.toNat + 2 ^ 64 - b.f.toNat) % 2 ^ 64 ∧ (addSelect a b).2 = decide (a.f.toNat < b.f.toNat)
      ∧ addWhole a b = a.w.toInt + b.w.toInt
        + if a.f.toNat < b.f.toNat then (if a.w.toInt < 0 then -1 else 1) else 0 := by
  have h1 := a.f.isLt
  have h2 := b.f.isLt
  have hs : ¬ decide (a.w.toInt < 0) = decide (b.w.toInt < 0) := by simpa using h
  refine ⟨?_, ?_, ?_⟩ <;> simp [addWhole, addSelect, overflowingSub, carry, sgn, neg, hs, BitVec.toNat_sub] <;> omega
/-- `subWhole` and the fraction it goes with, when the signs match. R111, R112, R113. -/
theorem sub_same {a b : Pair} (h : a.w.toInt < 0 ↔ b.w.toInt < 0) :
    (subSelect a b).1.toNat = (a.f.toNat + 2 ^ 64 - b.f.toNat) % 2 ^ 64 ∧ (subSelect a b).2 = decide (a.f.toNat < b.f.toNat)
      ∧ subWhole a b = a.w.toInt - b.w.toInt
        - if a.f.toNat < b.f.toNat then (if a.w.toInt < 0 then -1 else 1) else 0 := by
  have h1 := a.f.isLt
  have h2 := b.f.isLt
  have hs : decide (a.w.toInt < 0) = decide (b.w.toInt < 0) := by simp [h]
  refine ⟨?_, ?_, ?_⟩ <;> simp [subWhole, subSelect, overflowingSub, carry, sgn, neg, hs, BitVec.toNat_sub] <;> omega
/-- `subWhole` and the fraction it goes with, when the signs differ. -/
theorem sub_differ {a b : Pair} (h : ¬ (a.w.toInt < 0 ↔ b.w.toInt < 0)) :
    (subSelect a b).1.toNat = (a.f.toNat + b.f.toNat) % 2 ^ 64 ∧ (subSelect a b).2 = decide (2 ^ 64 ≤ a.f.toNat + b.f.toNat)
      ∧ subWhole a b = a.w.toInt - b.w.toInt
        - if 2 ^ 64 ≤ a.f.toNat + b.f.toNat then (if a.w.toInt < 0 then -1 else 1) else 0 := by
  have hs : ¬ decide (a.w.toInt < 0) = decide (b.w.toInt < 0) := by simpa using h
  simp [subWhole, subSelect, overflowingAdd, carry, sgn, neg, hs]

/-- The value is the units over D. R30. -/
theorem Pair.value_eq_units (v : Pair) : v.value = (v.units : Rat) / decimalMax := by
  unfold Pair.value Pair.units
  have : (decimalMax : Rat) ≠ 0 := by norm_num
  push_cast
  field_simp
theorem Pair.units_eq (v : Pair) :
    v.units = v.w.toInt * decimalMax + (if v.w.toInt < 0 then -1 else 1) * v.f.toNat := by simp [Pair.units, sgn, neg]
theorem Pair.value_eq_iff (r a : Pair) : r.value = a.value ↔ r.units = a.units := by
  rw [r.value_eq_units, a.value_eq_units, div_left_inj' (by norm_num)]
  exact_mod_cast Iff.rfl
theorem Pair.value_eq_add_iff (r a b : Pair) : r.value = a.value + b.value ↔ r.units = a.units + b.units := by
  rw [r.value_eq_units, a.value_eq_units, b.value_eq_units, ← add_div, div_left_inj' (by norm_num)]
  exact_mod_cast Iff.rfl
theorem Pair.value_eq_sub_iff (r a b : Pair) : r.value = a.value - b.value ↔ r.units = a.units - b.units := by
  rw [r.value_eq_units, a.value_eq_units, b.value_eq_units, ← sub_div, div_left_inj' (by norm_num)]
  exact_mod_cast Iff.rfl
theorem Pair.value_lt_iff (v u : Pair) : v.value < u.value ↔ v.units < u.units := by
  rw [v.value_eq_units, u.value_eq_units, div_lt_div_iff_of_pos_right (by norm_num)]
  exact_mod_cast Iff.rfl

end Sys2Proof.Machine
end

