-- ==== Sys2Proof/Laws/Bits.lean ====
section
/-! SUPPORT. STATUS, CTRL and TBUFk as the host reads them, bit by bit and lane by lane (10_state.md R37, R41; 20_memory.md R57). -/

namespace Sys2Proof.Machine

theorem Status.toWord_getLsbD (s : Status) (i : Nat) :
    s.toWord.getLsbD i = (if i = 0 then s.busy else if i = 1 then s.err.code.getLsbD 0 else if i = 2 then s.err.code.getLsbD 1
      else if i = 4 then s.done else if i = 5 then s.perr else if i = 6 then s.ovf else if i = 7 then s.ill
      else if i = 8 then s.drop else false) := by
  unfold Status.toWord
  simp only [BitVec.getLsbD_append, BitVec.getLsbD_ofBool, BitVec.getLsbD_zero]
  by_cases h : i < 9
  · interval_cases i <;> simp
  · obtain ⟨j, rfl⟩ : ∃ j, i = j + 9 := ⟨i - 9, by omega⟩
    simp

theorem State.ctrlWord_getLsbD (s : State) (i : Nat) : s.ctrlWord.getLsbD i = (if i = 0 then s.ie else false) := by
  unfold State.ctrlWord
  simp only [BitVec.getLsbD_append, BitVec.getLsbD_ofBool, BitVec.getLsbD_zero]
  by_cases h : i = 0 <;> simp [h]

theorem State.tbufWord_getLsbD (s : State) (k j : Fin 8) (i : Nat) (h : i < 8) :
    (s.tbufWord k).getLsbD (8 * j.val + i) = (s.byte (tbufIx k j)).getLsbD i := by
  unfold State.tbufWord
  simp only [BitVec.getLsbD_append]
  fin_cases j <;> interval_cases i <;> simp

theorem State.tbufWord_lane (s : State) (k j : Fin 8) : lane (s.tbufWord k) j.val = s.byte (tbufIx k j) := by
  apply BitVec.eq_of_getLsbD_eq
  intro i hi
  simp only [lane, BitVec.getLsbD_extractLsb', hi, decide_true, Bool.true_and]
  exact s.tbufWord_getLsbD k j i hi

theorem tbufIx_div (k j : Fin 8) : (tbufIx k j).val / 8 = k.val := by simp only [tbufIx]; omega
theorem tbufIx_mod (k j : Fin 8) : (tbufIx k j).val % 8 = j.val := by simp only [tbufIx]; omega

/-- Every byte of TBUF is byte j of some TBUFk. -/
theorem exists_tbufIx (i : Fin 64) : ∃ k j : Fin 8, i = tbufIx k j :=
  ⟨⟨i.val / 8, by omega⟩, ⟨i.val % 8, by omega⟩, by apply Fin.ext; simp only [tbufIx]; omega⟩

end Sys2Proof.Machine
end

