-- ==== Sys2Proof/Laws/PerInstr.lean ====
section
/-! SUPPORT. Statements made for every constructor of Instr, one lemma per constructor (LAWS.json). -/

namespace Sys2Proof.Laws.WellFormedWords

/-- The command word of the instruction is a row of the opcode map. R84, R88. -/
def Statement (i : Instr) : Prop := wellFormed i = true

theorem dadd (rd rs1 rs2 : DIx) : Statement (.dadd rd rs1 rs2) := by
  revert rd rs1 rs2
  unfold Statement
  decide

theorem dsub (rd rs1 rs2 : DIx) : Statement (.dsub rd rs1 rs2) := by
  revert rd rs1 rs2
  unfold Statement
  decide

theorem dmul (rd rs1 rs2 : DIx) : Statement (.dmul rd rs1 rs2) := by
  revert rd rs1 rs2
  unfold Statement
  decide

theorem dparse (rd : DIx) : Statement (.dparse rd) := by
  revert rd
  unfold Statement
  decide

theorem dfmt (rs1 : DIx) : Statement (.dfmt rs1) := by
  revert rs1
  unfold Statement
  decide

end Sys2Proof.Laws.WellFormedWords
end

