-- ==== Sys2Proof/Laws/Run.lean ====
section
/-! SUPPORT. Runs one step at a time, what an event leaves alone, and `exec` across the issue of its own command. -/

namespace Sys2Proof.Machine

variable {s t : State}

/-! ### Runs -/

/-- A run over a step that goes on, of any machine. -/
theorem run_succ (M : Host.Core) {k : Nat} {s t : M.State} (h : M.step s = .next t) : M.run (k + 1) s = M.run k t := by
  simp only [Host.Core.run, h]

theorem run_succ_cases (M : Host.Core) {k : Nat} {s t : M.State} (h : M.run (k + 1) s = .next t) :
    ∃ u, M.step s = .next u ∧ M.run k u = .next t := by
  simp only [Host.Core.run] at h
  split at h
  · next u hu => exact ⟨u, hu, h⟩
  · cases h
  · cases h

@[simp] theorem core_run_zero (s : State) : Host.Core.run Sys2Proof.core 0 s = .next s := rfl

/-- A run over a step that goes on. -/
theorem core_run_succ {k : Nat} (h : step s = .next t) : Host.Core.run Sys2Proof.core (k + 1) s = Host.Core.run Sys2Proof.core k t :=
  run_succ Sys2Proof.core h

/-- A run that reached a state went on at its first step. -/
theorem core_run_succ_cases {k : Nat} (h : Host.Core.run Sys2Proof.core (k + 1) s = .next t) :
    ∃ u, step s = .next u ∧ Host.Core.run Sys2Proof.core k u = .next t :=
  run_succ_cases Sys2Proof.core h

theorem step_of_port_nil (h : s.port = []) : step s = s.unitStep := by simp [step, State.advance, h]
theorem step_of_port_cons {e : PortEvent} {rest : List PortEvent} (h : s.port = e :: rest) :
    step s = ({ s with port := rest } : State).onEvent e := by simp [step, State.advance, h]

/-! ### Events -/

/-- An event takes nothing from the port. -/
theorem State.onEvent_port {e : PortEvent} (h : s.onEvent e = .next t) : t.port = s.port := by
  cases e with
  | read off width => obtain ⟨-, x, u, rfl⟩ := State.hostRead_fields h; rfl
  | write off width v =>
    obtain ⟨-, ⟨-, rfl⟩ | ⟨-, h⟩⟩ := State.hostWrite_cases h
    · rfl
    · rcases State.writeWindow_cases h with ⟨-, rfl⟩ | ⟨-, rfl⟩ | ⟨-, rfl⟩ | ⟨-, -, rfl⟩ | ⟨-, -, rfl⟩ | ⟨-, -, rfl⟩ |
        ⟨n, -, -, rfl⟩ | ⟨n, -, -, rfl⟩ | ⟨n, -, -, rfl⟩ <;> rfl
  | completion =>
    rcases State.unitStep_cases h with rfl | ⟨-, -, f, -, h⟩
    · rfl
    · exact (State.complete_fields h).2.2.1
  | rst b => cases b <;> cases h <;> rfl

/-- What an event does to the record of R243: a read and an issue note their use, everything else leaves it. -/
theorem State.onEvent_unwrittenUse {e : PortEvent} (h : s.onEvent e = .next t) :
    t.unwrittenUse = s.unwrittenUse
      ∨ (∃ off width, e = .read off width ∧ s.rst = false ∧ t.unwrittenUse = (s.noteUse (windowReg off).locs).unwrittenUse)
      ∨ (∃ off width v, e = .write off width v ∧ windowReg off = .cmd ∧ s.status.busy = false
        ∧ t.unwrittenUse = (s.noteUse (s.operandLocs v)).unwrittenUse) := by
  cases e with
  | read off width =>
    obtain ⟨-, ⟨-, rfl⟩ | ⟨hr, rfl⟩⟩ := State.hostRead_cases h
    · exact .inl rfl
    · exact .inr (.inl ⟨off, width, rfl, hr, rfl⟩)
  | write off width v =>
    obtain ⟨-, ⟨-, rfl⟩ | ⟨-, h⟩⟩ := State.hostWrite_cases h
    · exact .inl rfl
    · rcases State.writeWindow_cases h with ⟨-, rfl⟩ | ⟨-, rfl⟩ | ⟨-, rfl⟩ | ⟨-, -, rfl⟩ | ⟨hc, hb, rfl⟩ | ⟨-, -, rfl⟩ |
        ⟨n, -, -, rfl⟩ | ⟨n, -, -, rfl⟩ | ⟨n, -, -, rfl⟩ <;>
        first | exact .inl rfl | exact .inr (.inr ⟨off, width, v, rfl, hc, hb, rfl⟩)
  | completion =>
    rcases State.unitStep_cases h with rfl | ⟨-, -, f, -, h⟩
    · exact .inl rfl
    · exact .inl (State.complete_fields h).2.2.2.2.1
  | rst b => cases b <;> cases h <;> exact .inl rfl

/-- What a run has recorded, no event takes away. -/
theorem State.onEvent_recorded {e : PortEvent} {l : Loc} (h : s.onEvent e = .next t) (hl : s.unwrittenUse = some l) :
    t.unwrittenUse = some l := by
  rcases s.onEvent_unwrittenUse h with h | ⟨_, _, -, -, h⟩ | ⟨_, _, _, -, -, -, h⟩
  · rw [h, hl]
  · rw [h, s.noteUse_recorded _ hl]
  · rw [h, s.noteUse_recorded _ hl]

/-- The unit's step always answers a next state. -/
theorem State.unitStep_next (s : State) : ∃ t, s.unitStep = .next t := by
  unfold State.unitStep
  split
  · exact ⟨_, rfl⟩
  · split
    · exact s.complete_next _
    · exact ⟨_, rfl⟩

/-- A well-formed event always answers a next state. -/
theorem State.onEvent_next {e : PortEvent} (h : accessesOk [e] = true) : ∃ t, s.onEvent e = .next t := by
  cases e with
  | read off width =>
    simp only [accessesOk, List.all_cons, List.all_nil, Bool.and_true] at h
    simp only [State.onEvent, State.hostRead, h, Bool.not_true, Bool.false_eq_true, if_false]
    split <;> exact ⟨_, rfl⟩
  | write off width v =>
    simp only [accessesOk, List.all_cons, List.all_nil, Bool.and_true] at h
    simp only [State.onEvent, State.hostWrite, h, Bool.not_true, Bool.false_eq_true, if_false]
    split <;> exact ⟨_, rfl⟩
  | completion => exact s.unitStep_next
  | rst b => exact ⟨_, rfl⟩

/-! ### The invariant -/

/-- While RST is asserted no command is in flight. -/
theorem State.Inv.not_busy_of_rst (h : s.Inv) (hr : s.rst = true) : s.status.busy = false :=
  congrArg (fun u : State => u.status.busy) (h.resetHeld hr)

/-- A busy unit has a record, and RST is not asserted. -/
theorem State.Inv.inflight_of_busy (h : s.Inv) (hb : s.status.busy = true) : s.rst = false ∧ ∃ f, s.inflight = some f := by
  refine ⟨?_, ?_⟩
  · by_contra hr
    rw [h.not_busy_of_rst (by simpa using hr)] at hb
    cases hb
  · have hm := h.busyMatches
    rw [State.busyMatches, hb] at hm
    exact Option.isSome_iff_exists.1 hm.symm

/-- After the unit's step no command is in flight. -/
theorem State.Inv.not_busy_of_unitStep (h : s.Inv) (hu : s.unitStep = .next t) : t.status.busy = false := by
  cases hb : s.status.busy with
  | false => rw [s.unitStep_of_not_busy hb] at hu; cases hu; exact hb
  | true =>
    obtain ⟨hr, f, hf⟩ := h.inflight_of_busy hb
    rw [s.unitStep_of_inflight hr hb hf] at hu
    rw [(State.complete_fields hu).2.2.2.2.2.2]
    rfl

/-! ### Issue, then completion -/

theorem State.record_accept (i : Instr) (h : s.inflight = none) : (s.accept (encode i)).record i = s.record i := by
  simp [State.record, State.accept, h]

/-- A command's meaning is the same just before its word is accepted and just after it. -/
theorem exec_accept (i : Instr) (h : s.inflight = none) : exec i (s.accept (encode i)) = exec i s := by
  have hf : ∀ rd o p, (s.accept (encode i)).finishPair rd o p = s.finishPair rd o p := by
    intro rd o p
    cases p <;> rfl
  have hr := State.record_accept i h
  cases i with
  | dadd rd rs1 rs2 => rw [exec_dadd, exec_dadd, hr, hf]
  | dsub rd rs1 rs2 => rw [exec_dsub, exec_dsub, hr, hf]
  | dmul rd rs1 rs2 => rw [exec_dmul, exec_dmul, hr, hf]
  | dparse rd => rw [exec_dparse, exec_dparse, hr, hf]
  | dfmt rs1 => rw [exec_dfmt, exec_dfmt, hr]; rfl

/-- A command's meaning does not look at what the run has recorded, and does not change it. -/
theorem exec_noteUse (i : Instr) (locs : List Loc) (h : exec i s = .next t) :
    exec i (s.noteUse locs) = .next { t with unwrittenUse := (s.noteUse locs).unwrittenUse } := by
  have hf : ∀ rd o p, (s.noteUse locs).finishPair rd o p = { s.finishPair rd o p with unwrittenUse := (s.noteUse locs).unwrittenUse } := by
    intro rd o p
    cases p <;> rfl
  have hr : (s.noteUse locs).record i = s.record i := rfl
  cases i with
  | dadd rd rs1 rs2 => rw [exec_dadd] at *; rw [hr, hf]; cases h; rfl
  | dsub rd rs1 rs2 => rw [exec_dsub] at *; rw [hr, hf]; cases h; rfl
  | dmul rd rs1 rs2 => rw [exec_dmul] at *; rw [hr, hf]; cases h; rfl
  | dparse rd => rw [exec_dparse] at *; rw [hr, hf]; cases h; rfl
  | dfmt rs1 => rw [exec_dfmt] at *; rw [hr]; cases h; rfl

/-- A command's meaning just after its issue is its meaning just before it, beside the record of what its operands used. -/
theorem exec_issue (i : Instr) (hi : s.inflight = none) (h : exec i s = .next t) :
    exec i (s.issue (encode i)) = .next { t with unwrittenUse := (s.noteUse (s.operandLocs (encode i))).unwrittenUse } :=
  exec_noteUse i _ ((exec_accept i hi).trans h)

end Sys2Proof.Machine
end

