-- ==== Sys2Proof/Laws/Text.lean ====
section
/-! SUPPORT. The text functions of 00_scope.md R12 on texts of digits: what they spell, their length, and the cut at the separator. -/

namespace Sys2Proof.Machine

open Sys2Proof.Config

/-! ### Digits -/

theorem isDigit_digitChar : ∀ d : Fin 10, isDigit (digitChar d.val) = true := by decide
theorem digitVal_digitChar : ∀ d : Fin 10, digitVal (digitChar d.val) = d.val := by decide
theorem digitChar_ne_dot : ∀ d : Fin 10, digitChar d.val ≠ dot := by decide
theorem digitChar_ne_plus : ∀ d : Fin 10, digitChar d.val ≠ plus := by decide
theorem digitChar_ne_minus : ∀ d : Fin 10, digitChar d.val ≠ minus := by decide
theorem digitChar_eq_zeroChar : ∀ d : Fin 10, digitChar d.val = zeroChar ↔ d = 0 := by decide

/-- A digit byte is the character of its value. R12. -/
theorem exists_digit {c : Byte} (h : isDigit c = true) : ∃ d : Fin 10, c = digitChar d.val := by
  simp only [isDigit, Bool.and_eq_true, decide_eq_true_eq] at h
  refine ⟨⟨c.toNat - 0x30, by omega⟩, ?_⟩
  apply BitVec.eq_of_toNat_eq
  simp only [digitChar, BitVec.toNat_ofNat]
  omega

/-- A text of digits, as the list of their values. -/
def charsOf (ds : List (Fin 10)) : Text := ds.map fun d => digitChar d.val

/-- The integer a list of digit values stands for. -/
def valueOf (ds : List (Fin 10)) : Nat := ds.foldl (fun n d => 10 * n + d.val) 0

theorem all_isDigit_charsOf (ds : List (Fin 10)) : (charsOf ds).all isDigit = true := by
  simp [charsOf, isDigit_digitChar]

theorem exists_charsOf {t : Text} (h : t.all isDigit = true) : ∃ ds, t = charsOf ds := by
  induction t with
  | nil => exact ⟨[], rfl⟩
  | cons c t ih =>
    simp only [List.all_cons, Bool.and_eq_true] at h
    obtain ⟨d, rfl⟩ := exists_digit h.1
    obtain ⟨ds, rfl⟩ := ih h.2
    exact ⟨d :: ds, rfl⟩

@[simp] theorem charsOf_length (ds : List (Fin 10)) : (charsOf ds).length = ds.length := by simp [charsOf]
@[simp] theorem charsOf_append (ds es : List (Fin 10)) : charsOf (ds ++ es) = charsOf ds ++ charsOf es := by simp [charsOf]

theorem dot_notMem_charsOf (ds : List (Fin 10)) : dot ∉ charsOf ds := by
  simp only [charsOf, List.mem_map, not_exists, not_and]
  exact fun d _ => digitChar_ne_dot d

theorem foldl_value (ds : List (Fin 10)) : ∀ n : Nat,
    ds.foldl (fun n d => 10 * n + d.val) n = n * 10 ^ ds.length + valueOf ds := by
  induction ds with
  | nil => simp [valueOf]
  | cons d ds ih =>
    intro n
    simp only [valueOf, List.foldl_cons, List.length_cons]
    rw [ih, ih (10 * 0 + d.val), pow_succ]
    ring

@[simp] theorem valueOf_append (ds es : List (Fin 10)) : valueOf (ds ++ es) = valueOf ds * 10 ^ es.length + valueOf es := by
  rw [valueOf, List.foldl_append, foldl_value]
  rfl
theorem valueOf_cons (d : Fin 10) (ds : List (Fin 10)) : valueOf (d :: ds) = d.val * 10 ^ ds.length + valueOf ds := by
  rw [valueOf, List.foldl_cons, foldl_value]
  simp
@[simp] theorem valueOf_replicate_zero (n : Nat) : valueOf (List.replicate n 0) = 0 := by
  induction n with
  | zero => rfl
  | succ n ih => rw [List.replicate_succ, valueOf_cons, ih]; simp

theorem valueOf_lt (ds : List (Fin 10)) : valueOf ds < 10 ^ ds.length := by
  induction ds with
  | nil => decide
  | cons d ds ih =>
    rw [valueOf_cons, List.length_cons, pow_succ]
    have := Nat.mul_le_mul_right (10 ^ ds.length) (show d.val ≤ 9 by omega)
    omega

theorem spelled_charsOf (ds : List (Fin 10)) : spelled (charsOf ds) = valueOf ds := by
  simp only [spelled, charsOf, valueOf, List.foldl_map, digitVal_digitChar]

theorem charsOf_replicate_zero (n : Nat) : charsOf (List.replicate n 0) = List.replicate n zeroChar := by
  simp only [charsOf, List.map_replicate]
  rfl

/-- A digit string padded with '0' on the right. R163. -/
theorem spelled_padded (ds : List (Fin 10)) (n : Nat) :
    spelled (charsOf ds ++ List.replicate n zeroChar) = valueOf ds * 10 ^ n := by
  rw [← charsOf_replicate_zero, ← charsOf_append, spelled_charsOf]
  simp

/-! ### The separator -/

/-- The cut at the separator. R160, R162. -/
theorem cut_of_notMem {x : Text} (y : Text) (h : dot ∉ x) : beforeDot (x ++ dot :: y) = x ∧ afterDot (x ++ dot :: y) = y := by
  have hp : ∀ c ∈ x, (c != dot) = true := fun c hc => by
    simp only [bne_iff_ne, ne_eq]
    rintro rfl
    exact h hc
  constructor
  · simp [beforeDot, List.takeWhile_append_of_pos hp]
  · simp [afterDot, List.dropWhile_append_of_pos hp]

/-- A text with exactly one separator is its two parts. R162. -/
theorem cut_of_count {t : Text} (h : t.count dot = 1) :
    t = beforeDot t ++ dot :: afterDot t ∧ dot ∉ beforeDot t ∧ dot ∉ afterDot t := by
  obtain ⟨x, y, rfl⟩ := List.append_of_mem (List.count_pos_iff.1 (by omega : 0 < t.count dot))
  rw [List.count_append, List.count_cons_self] at h
  have hx : dot ∉ x := List.count_eq_zero.1 (by omega)
  have hy : dot ∉ y := List.count_eq_zero.1 (by omega)
  obtain ⟨h1, h2⟩ := cut_of_notMem y hx
  rw [h1, h2]
  exact ⟨rfl, hx, hy⟩

theorem count_of_cut {x y : Text} (hx : dot ∉ x) (hy : dot ∉ y) : (x ++ dot :: y).count dot = 1 := by
  rw [List.count_append, List.count_cons_self, List.count_eq_zero.2 hx, List.count_eq_zero.2 hy]

/-! ### dec, pad19, strip0 -/

/-- `dec` of a natural number: at least one digit, no leading zero, and it spells the number. R12. -/
theorem decNat_spec (n : Nat) : ∃ ds, decNat n = charsOf ds ∧ ds ≠ [] ∧ (ds.head? ≠ some 0 ∨ ds = [0]) ∧ valueOf ds = n := by
  induction n using Nat.strong_induction_on with
  | _ n ih =>
    by_cases h10 : n < 10
    · refine ⟨[⟨n, h10⟩], ?_, by simp, ?_, by simp [valueOf]⟩
      · unfold decNat
        split
        · next h => subst h; rfl
        · next h => simp [Nat.digits_of_lt 10 n h h10, charsOf]
      · by_cases h : n = 0
        · subst h; exact .inr rfl
        · refine .inl ?_
          simp only [List.head?_cons, ne_eq, Option.some.injEq, Fin.ext_iff]
          exact h
    · obtain ⟨ds, h1, h2, h3, h4⟩ := ih (n / 10) (by omega)
      refine ⟨ds ++ [⟨n % 10, by omega⟩], ?_, by simp, ?_, ?_⟩
      · have hd : n / 10 ≠ 0 := by omega
        rw [decNat, if_neg hd] at h1
        rw [decNat, if_neg (by omega), Nat.digits_def' (by omega) (by omega), List.reverse_cons, List.map_append, h1, charsOf_append]
        rfl
      · left
        rcases h3 with h3 | h3
        · rwa [List.head?_append_of_ne_nil _ h2]
        · subst h3
          simp only [valueOf, List.foldl_cons, List.foldl_nil] at h4
          omega
      · rw [valueOf_append, h4]
        simp only [valueOf, List.foldl_cons, List.foldl_nil, List.length_cons, List.length_nil]
        omega

/-- A list of digits with no leading zero is short when its value is small. -/
theorem length_le_of_valueOf_lt {ds : List (Fin 10)} {k : Nat} (h : ds.head? ≠ some 0 ∨ ds = [0]) (hk : 1 ≤ k)
    (hv : valueOf ds < 10 ^ k) : ds.length ≤ k := by
  rcases h with h | rfl
  · cases ds with
    | nil => simp
    | cons d ds =>
      by_contra hc
      rw [List.length_cons] at hc
      have hd : 1 ≤ d.val := by
        rcases Nat.eq_zero_or_pos d.val with hz | hz
        · exact absurd (by rw [List.head?_cons]; congr; exact Fin.ext hz) h
        · exact hz
      rw [valueOf_cons] at hv
      have h1 := Nat.pow_le_pow_right (show 1 ≤ 10 by omega) (show k ≤ ds.length by omega)
      have h2 := Nat.mul_le_mul_right (10 ^ ds.length) hd
      omega
  · simpa using hk

/-- The m low digits of n, the most significant first. -/
def lowDigits (n m : Nat) : List (Fin 10) := (List.range m).map fun k => ⟨n / 10 ^ (m - 1 - k) % 10, by omega⟩

@[simp] theorem lowDigits_length (n m : Nat) : (lowDigits n m).length = m := by simp [lowDigits]

theorem lowDigits_succ (n m : Nat) : lowDigits n (m + 1) = ⟨n / 10 ^ m % 10, by omega⟩ :: lowDigits n m := by
  simp only [lowDigits, List.range_succ_eq_map, List.map_cons, List.map_map, List.cons.injEq]
  refine ⟨by simp, ?_⟩
  apply List.map_congr_left
  intro k hk
  have hk := List.mem_range.1 hk
  simp only [Function.comp_apply, Fin.mk.injEq]
  rw [show m + 1 - 1 - Nat.succ k = m - 1 - k by omega]

theorem valueOf_lowDigits (n m : Nat) : valueOf (lowDigits n m) = n % 10 ^ m := by
  induction m with
  | zero => simp [lowDigits, valueOf, Nat.mod_one]
  | succ m ih =>
    rw [lowDigits_succ, valueOf_cons, ih, lowDigits_length, Nat.mod_pow_succ]
    ring

theorem pad19_eq (n : Nat) : pad19 n = charsOf (lowDigits n 19) := by
  simp only [pad19, charsOf, lowDigits, List.map_map]
  rfl

/-- `strip0` of a digit text: the digits before some trailing '0's, the last of them not '0'. R12. -/
theorem strip0_charsOf (ds : List (Fin 10)) : ∃ es k, ds = es ++ List.replicate k 0 ∧ strip0 (charsOf ds) = charsOf es ∧ es.getLast? ≠ some 0 := by
  induction ds using List.reverseRecOn with
  | nil => exact ⟨[], 0, rfl, rfl, by simp⟩
  | append_singleton ds d ih =>
    by_cases hd : d = 0
    · obtain ⟨es, k, h1, h2, h3⟩ := ih
      refine ⟨es, k + 1, ?_, ?_, h3⟩
      · rw [h1, hd, List.replicate_succ', List.append_assoc]
      · rw [← h2, charsOf_append, strip0, strip0, hd]
        exact List.rdropWhile_concat_pos _ _ _ (by decide)
    · refine ⟨ds ++ [d], 0, by simp, ?_, by simpa using hd⟩
      rw [charsOf_append, strip0]
      refine List.rdropWhile_concat_neg _ _ _ ?_
      simp only [beq_iff_eq]
      rwa [digitChar_eq_zeroChar]

/-- The text of digits is not '0' at its end when the digits are not 0 there. -/
theorem getLast_charsOf (ds : List (Fin 10)) : (charsOf ds).getLast? = some zeroChar ↔ ds.getLast? = some 0 := by
  rw [charsOf, List.getLast?_map]
  cases ds.getLast? with
  | none => simp
  | some d => simp [digitChar_eq_zeroChar]

end Sys2Proof.Machine
end

