-- ==== Sys2Proof/Laws/Timing.lean ====
section
/-! SUPPORT. The schedule of fixed latencies, one event at a time, and what a cycle's STATUS write leaves set. -/

namespace Sys2Proof.Machine

open Sys2Proof.Config

variable {l : Latencies} {k : Clock} {t : Nat}

/-- With no dropped write in this cycle an event acts as it stands. -/
theorem Clock.inCycle_of_none_dropped (h : k.dropped ≠ some t) (e : PortEvent) : k.inCycle t e = e := by
  cases e <;> simp [Clock.inCycle, h]

/-- Only a STATUS write can act otherwise than it stands. -/
theorem Clock.inCycle_write (off : Offset) (width : Nat) (v : Word) : ∃ w, k.inCycle t (.write off width v) = .write off width w := ⟨_, rfl⟩

/-- Before the cycle of the completion is over, an event is served with no completion in front of it. -/
theorem timedPort_cons_of_due {c : Nat} (hc : k.due = some c) (ht : t ≤ c) (e : PortEvent) (es : List (Nat × PortEvent)) :
    timedPort l k ((t, e) :: es) = k.inCycle t e :: timedPort l (Clock.after l k t e) es := by
  simp [timedPort, Clock.passed, hc, Nat.not_lt.2 ht]

/-- The schedule ends in the completion of a command still in flight. -/
theorem timedPort_nil_of_due {c : Nat} (hc : k.due = some c) : timedPort l k [] = [.completion] := by simp [timedPort, hc]

/-- While a command is in flight a well-formed write is dropped, which the clock keeps, or changes nothing of the clock. -/
theorem Clock.after_write_of_due {c : Nat} (hc : k.due = some c) (hr : k.rst = false) {off : Offset} {width : Nat}
    (ha : accessOk off width = true) (v : Word) :
    Clock.after l k t (.write off width v) = if (windowReg off).guarded then { k with dropped := some t } else k := by
  simp [Clock.after, hc, hr, ha]

/-- A STATUS write without its bit for DROP leaves DROP as it is. R39. -/
theorem Status.writeOneToClear_withoutDropBit (st : Status) (v : Word) : (st.writeOneToClear (withoutDropBit v)).drop = st.drop := by
  simp [withoutDropBit]

end Sys2Proof.Machine
end

