-- ==== Sys2Proof/Tests/Slice0.lean ====
section
/-! SUPPORT. The model's own tests: the smoke test of each WellFormed check, decoding from words written out bit by bit, one step per
instruction on the spec's vectors, and a witness for the hypotheses of every statement. -/

namespace Sys2Proof.Tests

open Sys2Proof.Machine Sys2Proof.Config

/-! ### WellFormed: one ill-formed term for each check -/

/-- R86: opcode 0x04 is unassigned. -/
theorem test_wellFormedWord_refuses_opcode : wellFormedWord 0x0000000000000004#64 = false := by decide
/-- R86: a DADD with bit 11 set. -/
theorem test_wellFormedWord_refuses_reserved : wellFormedWord 0x0000000000000801#64 = false := by decide
/-- R86: a DFMT with RD = 1 and a DPARSE with RS2 = 1. -/
theorem test_wellFormedWord_refuses_fields :
    wellFormedWord 0x0000000000002111#64 = false ∧ wellFormedWord 0x0000000000010010#64 = false := by decide
/-- R89: 64 bytes fit, 65 do not. -/
theorem test_textFits : textFits (List.replicate 64 zeroChar) = true ∧ textFits (List.replicate 65 zeroChar) = false := by decide
/-- R250: a latency of 0 cycles, in each place. -/
theorem test_latenciesOk : latenciesOk ⟨1, 1, 1, 1, 1, 1⟩ = true
    ∧ latenciesOk ⟨0, 1, 1, 1, 1, 1⟩ = false ∧ latenciesOk ⟨1, 0, 1, 1, 1, 1⟩ = false ∧ latenciesOk ⟨1, 1, 0, 1, 1, 1⟩ = false
    ∧ latenciesOk ⟨1, 1, 1, 0, 1, 1⟩ = false ∧ latenciesOk ⟨1, 1, 1, 1, 0, 1⟩ = false ∧ latenciesOk ⟨1, 1, 1, 1, 1, 0⟩ = false := by
  decide
/-- R51: a base that is not aligned to 4096. -/
theorem test_platformOk : platformOk ⟨0x5000, ⟨1, 1, 1, 1, 1, 1⟩, .synchronous⟩ = true
    ∧ platformOk ⟨0x5008, ⟨1, 1, 1, 1, 1, 1⟩, .synchronous⟩ = false
    ∧ platformOk ⟨0x5000, ⟨1, 1, 0, 1, 1, 1⟩, .asynchronous⟩ = false := by decide

/-! ### Decoding: fields of R81 from bit 63 down: zero, RS2, zero, RS1, zero, RD, OPC -/

/-- dadd d2, d0, d1. R84, R90. -/
theorem test_decode_dadd :
    decode (0#44 ++ 0#1 ++ 0b001#3 ++ 0#1 ++ 0b000#3 ++ 0#1 ++ 0b010#3 ++ 0b00000001#8) = .ok (.dadd 2 0 1) := by decide
/-- dsub d3, d0, d1. -/
theorem test_decode_dsub :
    decode (0#44 ++ 0#1 ++ 0b001#3 ++ 0#1 ++ 0b000#3 ++ 0#1 ++ 0b011#3 ++ 0b00000010#8) = .ok (.dsub 3 0 1) := by decide
/-- dmul d7, d6, d5. -/
theorem test_decode_dmul :
    decode (0#44 ++ 0#1 ++ 0b101#3 ++ 0#1 ++ 0b110#3 ++ 0#1 ++ 0b111#3 ++ 0b00000011#8) = .ok (.dmul 7 6 5) := by decide
/-- dparse d4. -/
theorem test_decode_dparse :
    decode (0#44 ++ 0#1 ++ 0b000#3 ++ 0#1 ++ 0b000#3 ++ 0#1 ++ 0b100#3 ++ 0b00010000#8) = .ok (.dparse 4) := by decide
/-- dfmt d2. -/
theorem test_decode_dfmt :
    decode (0#44 ++ 0#1 ++ 0b000#3 ++ 0#1 ++ 0b010#3 ++ 0#1 ++ 0b000#3 ++ 0b00010001#8) = .ok (.dfmt 2) := by decide
/-- The illegal words of 95_test_vectors.md section 2. -/
theorem test_decode_illegal : decode 0#64 = .error .unknownOpcode ∧ decode 0x0100000000000001#64 = .error .reservedBitSet
    ∧ decode 0x0000000000000801#64 = .error .reservedBitSet ∧ decode 0x0000000000010010#64 = .error .unusedFieldSet := by decide
/-- The row of an opcode-table word. -/
theorem test_decodeTableWord : decodeTableWord 64 0x56703 = some (.dmul 7 6 5) ∧ decodeTableWord 64 0x2111 = none := by decide

/-! ### One step: the vectors of 95_test_vectors.md -/

/-- D0 = a, D1 = b, both written. -/
def withPairs (a b : Pair) : State := (State.reset.setPair 0 a).setPair 1 b

/-- TBUF holds a text, and TLEN its length. -/
def withText (x : Text) : State := State.reset.setText x

/-- The outcome of a step that runs the command of `w`, and a register after it. -/
def after (s : State) (w : Nat) (r : DIx) : Option (CmdOutcome × Pair) :=
  match step (s.withFetchWord 64 w) with
  | .next t => some (t.status.err, t.pair r)
  | .fault _ => none
  | .refused _ => none

/-- TLEN, the text and the outcome after a step. -/
def textAfter (s : State) (w : Nat) : Option (CmdOutcome × Text) :=
  match step (s.withFetchWord 64 w) with
  | .next t => some (t.status.err, t.text t.tlen.toNat)
  | .fault _ => none
  | .refused _ => none

/-- DADD 7: opposite signs, a borrow with the sign of the first operand. -/
theorem test_dadd_borrow :
    after (withPairs (Pair.ofInts (-5) 1) (Pair.ofInts 1 3)) 0x10201 2 = some (.ok, Pair.ofInts (-5) 18446744073709551614) := by decide
/-- DADD 9: the carry alone overflows, and the destination keeps its pair. -/
theorem test_dadd_overflow :
    after (withPairs (Pair.ofInts iMax 1) (Pair.ofInts 0 uMax)) 0x10101 1 = some (.arithmeticOverflow, Pair.ofInts 0 uMax) := by decide
/-- DSUB 11: the exact whole word decides, no middle step overflows. -/
theorem test_dsub_exact_range :
    after (withPairs (Pair.ofInts 0 1) (Pair.ofInts iMin uMax)) 0x10202 2 = some (.ok, Pair.ofInts iMax 0) := by decide +kernel
/-- DSUB 13: a source that is also the destination. -/
theorem test_dsub_borrow_in_place :
    after (withPairs (Pair.ofInts (-5) 3000000000000000000) (Pair.ofInts (-2) 7000000000000000000)) 0x10002 0
      = some (.ok, Pair.ofInts (-2) 14446744073709551616) := by decide
/-- DMUL 37: one unit past the range on the negative side. -/
theorem test_dmul_fold :
    after (withPairs (Pair.ofInts (-3) 0) (Pair.ofInts 3074457345618258603 2815581024569850539)) 0x10203 2
      = some (.ok, Pair.ofInts iMin 18446743073709551617) := by decide
/-- DMUL 11: (0, D) has the value 1 but is not the pair (1, 0). -/
theorem test_dmul_signed_min :
    after (withPairs (Pair.ofInts iMin 0) (Pair.ofInts 0 decimalMax)) 0x10003 0 = some (.arithmeticOverflow, Pair.ofInts iMin 0) := by
  decide
/-- DPARSE 2 (S5): the low boundary string. -/
theorem test_dparse_boundary :
    after (withText (ascii "-9223372036854775809.8446744073709551615".toList)) 0x310 3 = some (.ok, Pair.ofInts iMin uMax) := by decide
/-- DPARSE 13: a leading zero is no boundary string. -/
theorem test_dparse_leading_zero :
    after (withText (ascii "09223372036854775808.0".toList)) 0x310 3 = some (.parseError, Pair.ofInts 0 0) := by decide
/-- DFMT 16: a carry moves away from zero, and trailing zeros go. -/
theorem test_dfmt_carry :
    textAfter (withPairs (Pair.ofInts (-7) uMax) (Pair.ofInts 0 0)) 0x11 = some (.ok, ascii "-8.8446744073709551615".toList) := by decide
/-- DFMT 6: the boundary string. -/
theorem test_dfmt_boundary :
    textAfter (withPairs (Pair.ofInts iMin decimalMax) (Pair.ofInts 0 0)) 0x11 = some (.ok, ascii "-9223372036854775809.0".toList) := by
  decide
/-- R177: texts whose canonical spelling differs. -/
theorem test_text_round_trips :
    (parseText (ascii "5.".toList)).map fmtText = some (ascii "5.0".toList)
    ∧ (parseText (ascii "007.50".toList)).map fmtText = some (ascii "7.5".toList)
    ∧ (parseText (ascii "+3.25".toList)).map fmtText = some (ascii "3.25".toList)
    ∧ (parseText (ascii "-0.5".toList)).map fmtText = some (ascii "0.5".toList) := by decide
/-- P3: STATUS after an overflow and then an illegal word. R37, R203. -/
theorem test_illegal_status :
    (match step ((withPairs (Pair.ofInts iMin 0) (Pair.ofInts 2 0)).withFetchWord 64 0x10203) with
      | .next t => t.status.toWord
      | .fault _ => 0#64
      | .refused _ => 0#64) = 0x54#64
    ∧ (match step (({ State.reset with status := ⟨false, .arithmeticOverflow, true, false, true, false, false⟩ } : State).withFetchWord
        64 0x2111) with
      | .next t => t.status.toWord
      | .fault _ => 0#64
      | .refused _ => 0#64) = 0xD6#64 := by decide

/-! ### Witnesses: a state and operands that meet the hypotheses of each statement -/

/-- A command in flight, issued at reset. -/
def busyWith (c : Word) : State := State.reset.accept c

/-- A run that has recorded a use of D3's whole word, unwritten. R243. -/
def recorded : State := { State.reset with unwrittenUse := some (.whole 3) }

/-- RST asserted. -/
def underReset : State := State.reset.enterReset

/-- Every STATUS bit that accumulates is set. -/
def allSet : State := { State.reset with status := ⟨false, .illegalCommand, true, true, true, true, true⟩, ie := true }

theorem busyWith_inv (c : Word) : (busyWith c).Inv :=
  ⟨rfl, fun f hf => (by cases hf; exact State.reset.capture_shaped c), fun h => (by cases h),
    ⟨fun n => by simp [busyWith, DReg.reset], fun k => by simp [busyWith]⟩⟩

theorem reset_inv : State.reset.Inv :=
  ⟨rfl, fun f hf => (by cases hf), fun h => (by cases h), ⟨fun n => by simp [DReg.reset], fun k => by simp⟩⟩

/-- Each case of R86, at its lowest bit, and a state that accepts a command. -/
theorem witness_IllegalWordsAreThoseListed :
    (∀ c ∈ [0x0000000000000000#64, 0x0000000000000004#64, 0x0000000000100001#64, 0x8000000000000001#64, 0x0000000000080001#64,
        0x0000000000008001#64, 0x0000000000000801#64, 0x0000000000001010#64, 0x0000000000010010#64, 0x0000000000000111#64,
        0x0000000000010011#64],
      (c.extractLsb' 0 8 ≠ 0x01#8 ∧ c.extractLsb' 0 8 ≠ 0x02#8 ∧ c.extractLsb' 0 8 ≠ 0x03#8 ∧ c.extractLsb' 0 8 ≠ 0x10#8
          ∧ c.extractLsb' 0 8 ≠ 0x11#8)
        ∨ c.extractLsb' 20 44 ≠ 0#44 ∨ c.getLsbD 19 = true ∨ c.getLsbD 15 = true ∨ c.getLsbD 11 = true
        ∨ (c.extractLsb' 0 8 = 0x10#8 ∧ (c.extractLsb' 12 3 ≠ 0#3 ∨ c.extractLsb' 16 3 ≠ 0#3))
        ∨ (c.extractLsb' 0 8 = 0x11#8 ∧ (c.extractLsb' 8 3 ≠ 0#3 ∨ c.extractLsb' 16 3 ≠ 0#3)))
    ∧ State.reset.idle := ⟨by intro c hc; fin_cases hc <;> simp, rfl, rfl, rfl⟩

theorem witness_MalformedAccessFaults :
    ((7 : Nat) ≠ 8 ∨ (0x000#12).toNat % 8 ≠ 0) ∧ ((16 : Nat) ≠ 8 ∨ (0x008#12).toNat % 8 ≠ 0)
    ∧ ((8 : Nat) ≠ 8 ∨ (0x001#12).toNat % 8 ≠ 0) ∧ ((8 : Nat) ≠ 8 ∨ (0xFFF#12).toNat % 8 ≠ 0)
    ∧ ((8 : Nat) = 8 ∧ (0x000#12).toNat % 8 = 0) ∧ ((8 : Nat) = 8 ∧ (0xFF8#12).toNat % 8 = 0) := by decide

/-- The ends of the reserved ranges and their neighbours. R52. -/
theorem witness_RegisterMapOffsets :
    ([0x020#12, 0x0F8#12, 0x180#12, 0x1F8#12, 0x240#12, 0xFF8#12].all fun off => off.toNat % 8 == 0 && windowReg off == .reserved) = true
    ∧ windowReg 0x018#12 = .tlen ∧ windowReg 0x100#12 = .whole 0 ∧ windowReg 0x178#12 = .frac 7 ∧ windowReg 0x200#12 = .tbuf 0
    ∧ windowReg 0x238#12 = .tbuf 7 := by decide

theorem witness_HostReadHasNoSideEffect :
    ((0x108#12).toNat % 8 = 0 ∧ State.reset.rst = false) ∧ ((0x000#12).toNat % 8 = 0 ∧ (busyWith 0#64).rst = false) :=
  ⟨⟨by decide, rfl⟩, ⟨by decide, rfl⟩⟩

theorem witness_ReservedReadsZeroWritesIgnored : State.reset.rst = false ∧ (busyWith 0#64).rst = false
    ∧ ((0x020#12).toNat % 8 = 0 ∧ windowReg 0x020#12 = .reserved) ∧ ((0xFF8#12).toNat % 8 = 0 ∧ windowReg 0xFF8#12 = .reserved) := by
  decide

theorem witness_TextBufferPacking : State.reset.status.busy = false ∧ State.reset.rst = false ∧ (0 : Fin 8) ≠ 7 := by decide

theorem witness_RegisterWordWrite : State.reset.status.busy = false ∧ State.reset.rst = false ∧ (0 : DIx) ≠ 7 := by decide

theorem witness_LengthAndControlWrite : State.reset.rst = false ∧ State.reset.status.busy = false ∧ (busyWith 0#64).rst = false := by
  decide

/-- A write of 0x1F0 against every bit set. R39. -/
theorem witness_StatusWriteOneToClear : allSet.rst = false
    ∧ (allSet.clearStatus 0x1F0#64).status.toWord = 0x6#64 ∧ (allSet.clearStatus 0x00F#64).status.toWord = 0x1F6#64 := by decide

theorem witness_InterruptLine : (allSet.ie = true ∧ allSet.status.done = true) ∧ (0x10#64).getLsbD 4 = true ∧ (0x0#64).getLsbD 0 = false := by
  decide

theorem witness_IssueRecordsOperands :
    ((busyWith 0x01#64).rst = false ∧ (busyWith 0x01#64).status.busy = true)
    ∧ (State.reset.rst = false ∧ State.reset.status.busy = false) ∧ State.reset.tlen.toNat ≤ 64 := by decide

/-- A use of unwritten storage, one of written storage, one of none, and a run that has recorded one already. -/
theorem witness_UnwrittenUseIsRecorded :
    (State.reset.rst = false ∧ State.reset.unwrittenUse = none ∧ State.reset.status.busy = false)
    ∧ (∃ l ∈ State.reset.operandLocs 0x10201#64, State.reset.isWritten l = false)
    ∧ (∀ l ∈ (withPairs (Pair.ofInts 1 2) (Pair.ofInts 3 4)).operandLocs 0x10201#64,
        (withPairs (Pair.ofInts 1 2) (Pair.ofInts 3 4)).isWritten l = true)
    ∧ State.reset.operandLocs 0x410#64 = []
    ∧ (∃ l ∈ (windowReg 0x238#12).locs, State.reset.isWritten l = false) ∧ (0x238#12).toNat % 8 = 0
    ∧ recorded.unwrittenUse = some (.whole 3) ∧ (∃ t, recorded.onEvent (.read 0x100#12 8) = .next t)
    ∧ ∃ t, State.reset.onEvent (.read 0x100#12 8) = .next t ∧ t.unwrittenUse ≠ State.reset.unwrittenUse := by
  refine ⟨⟨rfl, rfl, rfl⟩, ⟨.whole 0, by decide, by decide⟩, by decide, by decide, ⟨.byte 63, by decide, by decide⟩, by decide, rfl,
    ⟨_, rfl⟩, ⟨_, rfl, by decide⟩⟩

/-- A run that uses D0 unwritten: the machine goes on with the named value, and the run as R243 has it stops. -/
theorem witness_StrictRuns :
    let s : State := { State.reset with port := [rd8 (offWhole 0)] }
    (∃ t, Host.Core.run Sys2Proof.core 1 s = .next t ∧ t.unwrittenUse = some (.whole 0)) ∧ strictRun 1 s = none
    ∧ strictRun 1 { State.reset with port := [rd8 offStatus] } ≠ none := ⟨⟨_, rfl, rfl⟩, rfl, by decide⟩

/-- A length at TBUF_LEN reads every byte, one above it none. R161, R243. -/
theorem witness_OperandStorage :
    (({ State.reset with tlen := 64#8 } : State).operandLocs (encode (.dparse 0))).length = 64
    ∧ ({ State.reset with tlen := 65#8 } : State).operandLocs (encode (.dparse 0)) = []
    ∧ (0x10201#64 = encode (.dadd 2 0 1)) ∧ (∃ e, decode 0x2111#64 = .error e)
    ∧ ((63 : Fin 64).val / 8 = (7 : Fin 8).val ∧ (56 : Fin 64).val / 8 = (7 : Fin 8).val)
    ∧ ∀ r ∈ [WindowReg.cmd, .status, .ctrl, .tlen, .reserved], (∀ n, r ≠ .whole n) ∧ (∀ n, r ≠ .frac n) ∧ ∀ k, r ≠ .tbuf k :=
  ⟨by simp [State.operandLocs], by simp [State.operandLocs], by decide, ⟨_, rfl⟩, by decide,
    by intro r hr; fin_cases hr <;> simp⟩

theorem witness_WriteWhileBusyIsDropped : (busyWith 0x01#64).status.busy = true ∧ (busyWith 0x01#64).rst = false
    ∧ ([0x000#12, 0x018#12, 0x100#12, 0x178#12, 0x200#12, 0x238#12, 0x008#12, 0x010#12, 0x020#12].all fun off => off.toNat % 8 == 0) = true
    ∧ windowReg 0x000#12 = .cmd ∧ windowReg 0x018#12 = .tlen ∧ windowReg 0x100#12 = .whole 0 ∧ windowReg 0x178#12 = .frac 7
    ∧ windowReg 0x200#12 = .tbuf 0 ∧ windowReg 0x238#12 = .tbuf 7 ∧ windowReg 0x008#12 = .status ∧ windowReg 0x010#12 = .ctrl
    ∧ windowReg 0x020#12 = .reserved := by decide

theorem witness_HostAccessesLeaveTheCommandAlone :
    (busyWith 0x01#64).status.busy = true ∧ isAccess (.read 0x100#12 8) = true ∧ isAccess (.write 0x100#12 8 5#64) = true
    ∧ (∃ t, (busyWith 0x01#64).onEvent (.read 0x100#12 8) = .next t) ∧ ∃ t, (busyWith 0x01#64).onEvent (.write 0x100#12 8 5#64) = .next t :=
  ⟨rfl, rfl, rfl, ⟨_, rfl⟩, ⟨_, rfl⟩⟩

theorem witness_ResetInput : underReset.rst = true ∧ (0x018#12).toNat % 8 = 0 := by decide

/-- Operands whose whole word just fits and just does not, for a command in flight and with nothing in flight. R104. -/
theorem witness_AddResult :
    sourcePairs (withPairs (Pair.ofInts 9223372036854775806 0) (Pair.ofInts 1 0)) 0 1 (Pair.ofInts 9223372036854775806 0) (Pair.ofInts 1 0)
    ∧ sourcePairs ((withPairs (Pair.ofInts iMax 0) (Pair.ofInts 1 0)).accept 0x10201#64) 0 1 (Pair.ofInts iMax 0) (Pair.ofInts 1 0)
    ∧ fits (9223372036854775806 + 1) ∧ ¬ fits (iMax + 1) ∧ fits (-9223372036854775807 + -1) ∧ ¬ fits (iMin + -1) := by
  refine ⟨⟨rfl, rfl⟩, ⟨rfl, rfl⟩, ?_⟩
  unfold fits
  decide

theorem witness_SubResult :
    sourcePairs (withPairs (Pair.ofInts iMin 0) (Pair.ofInts 1 0)) 0 1 (Pair.ofInts iMin 0) (Pair.ofInts 1 0)
    ∧ sourcePairs ((withPairs (Pair.ofInts 0 0) (Pair.ofInts iMax 0)).accept 0x10202#64) 0 1 (Pair.ofInts 0 0) (Pair.ofInts iMax 0)
    ∧ ¬ fits (iMin - 1) ∧ fits (0 - iMax) ∧ fits (-1 - iMax) ∧ ¬ fits (-2 - iMax) := by
  refine ⟨⟨rfl, rfl⟩, ⟨rfl, rfl⟩, ?_⟩
  unfold fits
  decide

/-- The case that makes R106 as written fail: 1 + (-5.4223372036854775808) = -3.4223372036854775808 (log 13). -/
theorem witness_AddExactness :
    neg (Pair.ofInts 1 3).w ≠ neg (Pair.ofInts (-5) 1).w
    ∧ addPair (Pair.ofInts 1 0) (Pair.ofInts (-5) 4223372036854775808) = some (Pair.ofInts (-3) 14223372036854775808)
    ∧ addPair (Pair.ofInts 111 555) (Pair.ofInts 222 444) = some (Pair.ofInts 333 999)
    ∧ neg (Pair.ofInts 111 555).w = neg (Pair.ofInts 222 444).w := by decide

/-- The case that makes R116 as written fail: 0 - 1.4223372036854775808 = -1.4223372036854775808 (log 13). -/
theorem witness_SubExactness :
    subPair (Pair.ofInts 0 0) (Pair.ofInts 0 14223372036854775808) = some (Pair.ofInts (-1) 4223372036854775808)
    ∧ subPair (Pair.ofInts 111 555) (Pair.ofInts 222 444) = some (Pair.ofInts (-111) 111) := by decide

theorem witness_AdditiveInverse :
    (addPair (Pair.ofInts 111 555) (Pair.ofInts 222 444) = some (Pair.ofInts 333 999)
      ∧ neg (Pair.ofInts 333 999).w = neg (Pair.ofInts 111 555).w)
    ∧ (subPair (Pair.ofInts 5 3000000000000000000) (Pair.ofInts 2 7000000000000000000) = some (Pair.ofInts 2 14446744073709551616)
      ∧ neg (Pair.ofInts 2 14446744073709551616).w = neg (Pair.ofInts 5 3000000000000000000).w) := by decide

/-- The largest 128-bit product, and the edge of a 64-bit quotient. R140. -/
theorem witness_DecimalScaling : 340282366920938463463374607431768211455 < 2 ^ 128
    ∧ decimalize 184467440737095516159999999999999999999 = (18446744073709551615, 9999999999999999999)
    ∧ decimalize 184467440737095516160000000000000000000 = (18446744073709551616, 0) := by decide

/-- A pair of operands in each case of R132 and R135 (95_test_vectors.md section 5). The columns: W, F and the sign. -/
theorem witness_MulResult :
    sourcePairs (withPairs (Pair.ofInts 1 2) (Pair.ofInts 3 4)) 0 1 (Pair.ofInts 1 2) (Pair.ofInts 3 4)
    ∧ (Pair.ofInts iMin 5).w.toInt = iMin ∧ (Pair.ofInts 1 0).w.toInt ≠ iMin
    ∧ Pair.ofInts 0 decimalMax ≠ Pair.ofInts 0 0 ∧ Pair.ofInts 0 decimalMax ≠ Pair.ofInts 1 0
    ∧ (∀ c ∈ ([(Pair.ofInts 7 0, Pair.ofInts 1 0, 7, 0, false), (Pair.ofInts iMax uMax, Pair.ofInts 1 0, 9223372036854775808, 8446744073709551615, false),
          (Pair.ofInts 4611686018427387904 0, Pair.ofInts 2 2, 9223372036854775808, 9223372036854775808, false),
          (Pair.ofInts (-4611686018427387904) 0, Pair.ofInts 2 0, 9223372036854775808, 0, true),
          (Pair.ofInts (-3) 0, Pair.ofInts 3074457345618258603 2815581024569850539, 9223372036854775809, 8446743073709551617, true),
          (Pair.ofInts (-3) 0, Pair.ofInts 3074457345618258603 2815581024569850540, 9223372036854775809, 8446743073709551620, true),
          (Pair.ofInts iMax 0, Pair.ofInts 1 3, 9223372036854775809, 7670116110564327421, false),
          (Pair.ofInts (-3) 0, Pair.ofInts 3074457345618258603 9999999999999999999, 9223372036854775811, 9999999999999999997, true)]
          : List (Pair × Pair × Nat × Nat × Bool)),
      c.1.w.toInt ≠ iMin ∧ c.2.1.w.toInt ≠ iMin ∧ truncatedProduct c.1 c.2.1 / decimalMax = c.2.2.1
        ∧ truncatedProduct c.1 c.2.1 % decimalMax = c.2.2.2.1 ∧ productSign c.1 c.2.1 = c.2.2.2.2) := by
  refine ⟨⟨rfl, rfl⟩, ?_⟩
  decide

/-- Each law of R138 on operands that meet its premises. -/
theorem witness_MulLaws :
    ((Pair.ofInts 5 15000000000000000000).carryPending = true ∧ (Pair.ofInts 5 15000000000000000000).w.toInt ≠ iMin
      ∧ (Pair.ofInts 5 15000000000000000000).w.toInt ≠ iMax)
    ∧ (Pair.ofInts 5 9999999999999999999).normalized = true ∧ (Pair.ofInts iMin 0).w.toInt = iMin ∧ (Pair.ofInts iMax 0).w.toInt = iMax
    ∧ mulPair (Pair.ofInts (-2) 0) (Pair.ofInts 3 0) = some (Pair.ofInts (-6) 0)
    ∧ mulPair (Pair.ofInts 4611686018427387904 0) (Pair.ofInts 2 0) = some (Pair.ofInts iMax decimalMax)
    ∧ mulPair (Pair.ofInts (-4611686018427387904) 0) (Pair.ofInts 2 0) = some (Pair.ofInts iMin 0)
    ∧ mulPair (Pair.ofInts (-3) 0) (Pair.ofInts 3074457345618258603 0) = some (Pair.ofInts iMin decimalMax) := by decide

/-- "-0.5", the two boundary strings and a full fraction (95_test_vectors.md section 7, rows 2, 6, 9, 29). -/
theorem witness_ParseAccepts :
    sourceText (withText [minus, 0x30#8, dot, 0x35#8]) 4#8 [minus, 0x30#8, dot, 0x35#8] ∧ (4#8).toNat ≤ tbufLen
    ∧ parsesTo [minus, 0x30#8, dot, 0x35#8] (Pair.ofInts 0 5000000000000000000)
    ∧ parsesTo (boundaryHigh ++ [dot]) (Pair.ofInts iMax decimalMax)
    ∧ parsesTo (boundaryLow ++ [dot]) (Pair.ofInts iMin decimalMax) := by
  refine ⟨⟨by decide, fun _ => by decide⟩, by decide, ?_, ?_, ?_⟩
  · exact ⟨[minus, 0x30#8], [0x35#8], 0, 5000000000000000000, by decide, by decide, by decide, ⟨[5], by decide, by decide, by decide⟩,
      ⟨[0], by decide, .inr (.inr ⟨by decide, by decide⟩)⟩, .inl ⟨⟨by decide, by decide⟩, by decide⟩⟩
  · exact ⟨boundaryHigh, [], 9223372036854775808, 0, rfl, by decide, by decide, ⟨[], by decide, by decide, by decide⟩,
      ⟨[9, 2, 2, 3, 3, 7, 2, 0, 3, 6, 8, 5, 4, 7, 7, 5, 8, 0, 8], by decide, .inl ⟨by decide, by decide⟩⟩,
      .inr (.inr ⟨rfl, by decide, by decide⟩)⟩
  · exact ⟨boundaryLow, [], -9223372036854775809, 0, rfl, by decide, by decide, ⟨[], by decide, by decide, by decide⟩,
      ⟨[9, 2, 2, 3, 3, 7, 2, 0, 3, 6, 8, 5, 4, 7, 7, 5, 8, 0, 9], by decide, .inr (.inr ⟨by decide, by decide⟩)⟩,
      .inr (.inl ⟨rfl, by decide, by decide⟩)⟩

/-- A length of 65, and the empty text. R161, R164. -/
theorem witness_ParseRejects :
    (sourceText { State.reset with tlen := 65#8 } 65#8 [] ∧ tbufLen < (65#8).toNat)
    ∧ sourceText State.reset 0#8 [] ∧ ∀ v, ¬ parsesTo [] v := by
  refine ⟨⟨⟨rfl, fun h => absurd h (by decide)⟩, by decide⟩, ⟨rfl, fun _ => rfl⟩, ?_⟩
  rintro v ⟨x, y, -, -, h, -⟩
  simp at h

theorem witness_FormatResult :
    sourcePair (withPairs (Pair.ofInts iMin uMax) (Pair.ofInts 0 0)) 0 (Pair.ofInts iMin uMax)
    ∧ sourcePair ((withPairs (Pair.ofInts 0 0) (Pair.ofInts iMax uMax)).accept 0x1011#64) 1 (Pair.ofInts iMax uMax) := ⟨rfl, rfl⟩

theorem witness_FormatThenParseRoundTrip : (withPairs (Pair.ofInts 5 15000000000000000000) (Pair.ofInts iMin uMax)).inflight = none
    ∧ (Pair.ofInts 5 15000000000000000000).carryPending = true ∧ (Pair.ofInts 5 15000000000000000000).w.toInt ≠ iMin
    ∧ (Pair.ofInts 5 15000000000000000000).w.toInt ≠ iMax ∧ (Pair.ofInts 5 0).normalized = true := by decide

theorem witness_ValueAndPairs :
    ((Pair.ofInts 5 15000000000000000000).w.toInt ≠ iMin ∧ (Pair.ofInts 5 15000000000000000000).w.toInt ≠ iMax
      ∧ (Pair.ofInts 5 15000000000000000000).carryPending = true)
    ∧ (Pair.ofInts (-1) 9999999999999999999).normalized = true ∧ (Pair.ofInts (-1) 0).value < 0 := by
  refine ⟨by decide, by decide, ?_⟩
  rw [Pair.value_eq_units, show (Pair.ofInts (-1) 0).units = -10000000000000000000 by decide]
  norm_num

theorem witness_EveryCommandCompletesWithItsOutcome : (∃ t, exec (.dadd 0 1 2) State.reset = .next t)
    ∧ (∃ t, exec (.dparse 0) State.reset = .next t) ∧ (∃ t, exec (.dfmt 0) State.reset = .next t)
    ∧ ∃ e, decode (State.reset.capture 0x2111#64).word = .error e := ⟨⟨_, rfl⟩, ⟨_, rfl⟩, ⟨_, rfl⟩, ⟨_, rfl⟩⟩

/-- DPARSE of no text at all is a ParseError; the illegal word is an IllegalCommand. -/
theorem witness_ErrorsArePrecise :
    (∃ t, (busyWith 0x310#64).complete (State.reset.capture 0x310#64) = .next t ∧ t.status.err ≠ .ok)
    ∧ ∃ t, (busyWith 0x2111#64).complete (State.reset.capture 0x2111#64) = .next t ∧ t.status.err ≠ .ok :=
  ⟨⟨_, rfl, by decide⟩, ⟨_, rfl, by decide⟩⟩

theorem witness_CommandFrame : (∃ t, exec (.dmul 7 0 1) State.reset = .next t) ∧ (∃ t, exec (.dfmt 0) State.reset = .next t)
    ∧ destination (.dmul 7 0 1) ≠ some 0 ∧ WindowReg.whole 0 ≠ .whole 7 ∧ writesText (.dfmt 0) = true ∧ WindowReg.ctrl ≠ .status := by
  exact ⟨⟨_, rfl⟩, ⟨_, rfl⟩, by decide, by decide, rfl, by decide⟩

theorem witness_ResultIsAFunctionOfTheOperands :
    State.reset.record (.dadd 0 1 2) = allSet.record (.dadd 0 1 2)
    ∧ (∃ t, exec (.dadd 0 1 2) State.reset = .next t ∧ t.status.err = .ok) ∧ ∃ t, exec (.dadd 0 1 2) allSet = .next t :=
  ⟨by decide, ⟨_, rfl, by decide⟩, ⟨_, rfl⟩⟩

theorem witness_StickyBitsAccumulate :
    (∃ t, allSet.onEvent (.write offCtrl 8 0#64) = .next t) ∧ (PortEvent.write offCtrl 8 0#64 ≠ .rst true)
    ∧ windowReg offCtrl ≠ .status ∧ (∃ t, allSet.onEvent .completion = .next t) ∧ allSet.status.drop = true :=
  ⟨⟨_, rfl⟩, by decide, by decide, ⟨_, rfl⟩, rfl⟩

theorem witness_BusyAndErrChangeOnlyAt :
    (∃ t, State.reset.onEvent (.write offCmd 8 0x2111#64) = .next t ∧ State.reset.status.busy = false ∧ t.status.busy = true)
    ∧ ∃ t, (busyWith 0x2111#64).onEvent .completion = .next t ∧ (busyWith 0x2111#64).status.busy = true ∧ t.status.busy = false
      ∧ t.status.err ≠ (busyWith 0x2111#64).status.err :=
  ⟨⟨_, rfl, rfl, rfl⟩, ⟨_, rfl, rfl, rfl, by decide⟩⟩

/-- A legal and an illegal word in flight with the port empty, and with the completion next. -/
theorem witness_StepRunsTheDecodedCommand :
    ((busyWith 0x2011#64).rst = false ∧ (busyWith 0x2011#64).status.busy = true
      ∧ (busyWith 0x2011#64).inflight = some (State.reset.capture 0x2011#64)
      ∧ decode (State.reset.capture 0x2011#64).word = .ok (.dfmt 2) ∧ (busyWith 0x2011#64).port = [])
    ∧ (State.reset.withFetchWord 64 0x2011).port = .completion :: []
    ∧ ((busyWith 0x2111#64).inflight = some (State.reset.capture 0x2111#64)
      ∧ decode (State.reset.capture 0x2111#64).word = .error .unusedFieldSet ∧ (busyWith 0x2111#64).port = [])
    ∧ (State.reset.withFetchWord 64 0x2111).port = .completion :: [] :=
  ⟨⟨rfl, rfl, rfl, by decide, rfl⟩, rfl, ⟨rfl, by decide, rfl⟩, rfl⟩

theorem witness_StepServesThePortInOrder :
    ({ State.reset with port := expandProgram [.rd offStatus] } : State).port = rd8 offStatus :: []
    ∧ State.reset.port = [] ∧ State.reset.status.busy = false := ⟨rfl, rfl, rfl⟩

theorem witness_IssueAndCompletionAreExec : State.reset.idle
    ∧ recorded.idle := ⟨⟨rfl, rfl, rfl⟩, ⟨rfl, rfl, rfl⟩⟩

theorem witness_CommandRunWithPolling : State.reset.idle ∧ State.reset.port = [] := ⟨⟨rfl, rfl, rfl⟩, rfl⟩

/-- A full buffer, and a text of 9 bytes: bytes 8 and 15 are in its last word, byte 16 is past it. R89. -/
theorem witness_HostPseudoInstructions : State.reset.status.busy = false ∧ State.reset.rst = false ∧ State.reset.port = []
    ∧ (List.replicate 64 zeroChar).length ≤ tbufLen ∧ (63 : Fin 64).val < 8 * (((List.replicate 64 zeroChar).length + 7) / 8)
    ∧ (15 : Fin 64).val < 8 * ((9 + 7) / 8) ∧ 9 ≤ (15 : Fin 64).val ∧ 8 * ((9 + 7) / 8) ≤ (16 : Fin 64).val :=
  ⟨rfl, rfl, rfl, by decide⟩

/-- Reset, and a clean state whose host is about to act. R261. -/
theorem witness_InvariantAtReset : State.reset.clean
    ∧ ({ State.reset with port := expandProgram [.dli 0 1 0, .command (.dfmt 0), .dwait 1] } : State).clean := ⟨rfl, rfl⟩

theorem witness_StepKeepsTheInvariant : (busyWith 0x2011#64).Inv ∧ ∃ t, step (busyWith 0x2011#64) = .next t := ⟨busyWith_inv _, ⟨_, rfl⟩⟩

/-- A host that waits, against one that writes D0 before the completion, which the premise rules out. R254. -/
theorem witness_WaitingHostLosesNoWrite :
    State.reset.Inv
    ∧ waits false (expandProgram [.dli 0 1 0, .command (.dfmt 0), .dwait 1, .dli 0 7 0]) = true
    ∧ waits false (expandProgram [.dli 0 1 0, .command (.dfmt 0), .dli 0 7 0, .dwait 1]) = false
    ∧ ∃ t, Host.Core.run Sys2Proof.core 1 State.reset = .next t :=
  ⟨reset_inv, by decide, by decide, ⟨_, rfl⟩⟩

theorem witness_StepKeepsAWaitingHost :
    let s : State := { State.reset with port := expandProgram [.dli 0 1 0, .command (.dfmt 0), .dwait 1, .dli 0 7 0] }
    s.Inv ∧ waits s.status.busy s.port = true ∧ ∃ t, step s = .next t :=
  ⟨⟨rfl, fun f hf => (by cases hf), fun h => (by cases h), reset_inv.unwrittenHolds⟩, by decide, ⟨_, rfl⟩⟩

theorem witness_EveryRunComesToItsEnd : (busyWith 0x2011#64).Inv ∧ (busyWith 0x2011#64).unwrittenUse = none
    ∧ accessesOk (busyWith 0x2011#64).port = true ∧ accessesOk (expandProgram [.dli 0 1 0, .command (.dfmt 0), .dwait 1]) = true :=
  ⟨busyWith_inv _, rfl, by decide, by decide⟩

/-- A latency of 3 cycles: the read in cycle 13 comes before the completion, the read in cycle 14 after it. -/
theorem witness_TimedScheduleOrder :
    (∀ p ∈ ([(13, offStatus)] : List (Nat × Offset)), p.1 ≤ 10 + latency ⟨3, 1, 1, 1, 1, 1⟩ 0x10201#64)
    ∧ (∀ p ∈ ([(14, offStatus)] : List (Nat × Offset)), 10 + latency ⟨3, 1, 1, 1, 1, 1⟩ 0x10201#64 < p.1)
    ∧ decode 0x2111#64 = .error .unusedFieldSet
    ∧ (⟨none, false, none⟩ : Clock).dropped = none
    ∧ ([(5, wr8 offStatus 0x1F0#64), (6, rd8 offStatus)].map Prod.fst).Pairwise (· < ·) := by decide

/-- R39, D25: a dropped write and a clear of every bit, in cycle 5, under a command due in cycle 9. With one stamp the clear leaves
DROP alone, with two it clears it. -/
theorem test_drop_and_clear_in_one_cycle :
    timedPort ⟨9, 1, 1, 1, 1, 1⟩ ⟨some 9, false, none⟩ [(5, wr8 (offWhole 0) 7#64), (5, wr8 offStatus 0x1F0#64)]
      = [wr8 (offWhole 0) 7#64, wr8 offStatus 0x0F0#64, .completion]
    ∧ timedPort ⟨9, 1, 1, 1, 1, 1⟩ ⟨some 9, false, none⟩ [(5, wr8 (offWhole 0) 7#64), (6, wr8 offStatus 0x1F0#64)]
      = [wr8 (offWhole 0) 7#64, wr8 offStatus 0x1F0#64, .completion] := by decide

theorem witness_SetWinsOverClearInOneCycle :
    (⟨some 9, false, none⟩ : Clock).due = some 9 ∧ 9 ≤ 9 ∧ (busyWith 0x10201#64).rst = false ∧ (busyWith 0x10201#64).status.busy = true
    ∧ (busyWith 0x10201#64).inflight = some (State.reset.capture 0x10201#64)
    ∧ [wr8 (offWhole 0) 7#64, wr8 offStatus 0x1F0#64].all isAccess = true
    ∧ accessesOk [wr8 (offWhole 0) 7#64, wr8 offStatus 0x1F0#64] = true
    ∧ (PortEvent.write (offWhole 0) 8 7#64 ∈ [wr8 (offWhole 0) 7#64, wr8 offStatus 0x1F0#64] ∧ windowReg (offWhole 0) ≠ .status
      ∧ windowReg (offWhole 0) ≠ .ctrl ∧ windowReg (offWhole 0) ≠ .reserved) :=
  ⟨rfl, by decide, rfl, rfl, rfl, by decide, by decide, by decide⟩

/-- The last address of the window, and the first one past it. R51. -/
theorem witness_WindowAddresses :
    Platform.offset? ⟨0x4000, ⟨1, 1, 1, 1, 1, 1⟩, .synchronous⟩ 0x4FFF = some 0xFFF#12
    ∧ Platform.offset? ⟨0x4000, ⟨1, 1, 1, 1, 1, 1⟩, .synchronous⟩ 0x5000 = none
    ∧ Platform.offset? ⟨0x4000, ⟨1, 1, 1, 1, 1, 1⟩, .synchronous⟩ 0x3FFF = none := by decide

end Sys2Proof.Tests
end

section
/-! PROOFS. A command's result as a function of its operand record (00_scope.md R18, 70_reset_and_hazards.md R252). -/

namespace Sys2Proof.Machine

/-- The state enters a command's meaning twice: its operand record gives the result, and the completion writes that result into
it. R18, R252. -/
theorem exec_of_record (i : Instr) :
    (∃ rd o, ∃ f : InFlight → Option Pair, destination i = some rd ∧ writesText i = false ∧ o ≠ .ok
      ∧ ∀ s, exec i s = .next (s.finishPair rd o (f (s.record i))))
    ∨ (destination i = none ∧ ∃ f : InFlight → Text, ∀ s, exec i s = .next (s.finishText (f (s.record i)))) := by
  cases i with
  | dadd rd rs1 rs2 => exact .inl ⟨rd, _, fun r => addPair r.a r.b, rfl, rfl, by decide, fun _ => exec_dadd rd rs1 rs2⟩
  | dsub rd rs1 rs2 => exact .inl ⟨rd, _, fun r => subPair r.a r.b, rfl, rfl, by decide, fun _ => exec_dsub rd rs1 rs2⟩
  | dmul rd rs1 rs2 => exact .inl ⟨rd, _, fun r => mulPair r.a r.b, rfl, rfl, by decide, fun _ => exec_dmul rd rs1 rs2⟩
  | dparse rd => exact .inl ⟨rd, _, fun r => parseRecord r.len r.text, rfl, rfl, by decide, fun _ => exec_dparse rd⟩
  | dfmt rs1 => exact .inr ⟨rfl, fun r => fmtText r.a, fun _ => exec_dfmt rs1⟩

/-- Two states that complete with the same pair or error agree on the outcome and, when it is OK, on the register it writes. -/
theorem State.finishPair_congr (s s' : State) (rd : DIx) {o : CmdOutcome} (ho : o ≠ .ok) (r : Option Pair) :
    (s.finishPair rd o r).status.err = (s'.finishPair rd o r).status.err
      ∧ ((s.finishPair rd o r).status.err = .ok → (s.finishPair rd o r).reg rd = (s'.finishPair rd o r).reg rd) := by
  cases r with
  | some v => simp
  | none => exact ⟨rfl, fun h => absurd h ho⟩

/-- DFMT's completion overwrites the whole of TBUF: what it held before does not show. R171. -/
theorem State.finishText_tbuf_congr (s s' : State) (x : Text) : (s.finishText x).tbuf = (s'.finishText x).tbuf := rfl

/-- Settles O42: both states complete the command with the same function of the same record. -/
theorem resultIsAFunctionOfTheOperands : Obligations.ResultIsAFunctionOfTheOperands := by
  intro i s s' t t' hr h h'
  obtain ⟨rd, o, f, hd, hw, ho, hf⟩ | ⟨hd, f, hf⟩ := exec_of_record i
  · rw [hf] at h h'
    cases h; cases h'
    obtain ⟨herr, hreg⟩ := s.finishPair_congr s' rd ho (f (s.record i))
    rw [← hr]
    refine ⟨herr, fun hok n hn => ?_, fun hw' => by simp [hw] at hw'⟩
    obtain rfl : rd = n := Option.some.inj (hd.symm.trans hn)
    exact hreg hok
  · rw [hf] at h h'
    cases h; cases h'
    rw [← hr]
    exact ⟨rfl, fun _ n hn => by simp [hd] at hn, fun _ => ⟨s.finishText_tbuf_congr s' _, rfl⟩⟩

end Sys2Proof.Machine
end

section
/-! PROOFS. The invariant of the state (10_state.md R42, 70_reset_and_hazards.md R240, R243, R251): it holds at reset, and every event
of the port and every step of the unit keep it; and what changes BUSY and ERR (R38). -/

namespace Sys2Proof.Machine

variable {s t : State}

/-! ### Storage: kept, or written -/

/-- A unit of storage that is as it was, or that has been written. R243. -/
def Held.KeptOrWritten {α : Type} (a b : Held α) : Prop := b.written = true ∨ b = a

/-- Every unit of storage of `t` is as in `s`, or has been written. R243. -/
def State.StorageKeptOrWritten (s t : State) : Prop :=
  (∀ n : DIx, (s.reg n).whole.KeptOrWritten (t.reg n).whole ∧ (s.reg n).frac.KeptOrWritten (t.reg n).frac)
    ∧ ∀ k : Fin 64, (s.cell k).KeptOrWritten (t.cell k)

/-- Storage that is kept or written still holds its named value where it is not written. -/
theorem Held.KeptOrWritten.unwritten {α : Type} {a b : Held α} {x : α} (h : a.KeptOrWritten b) (ha : a.written = false → a.val = x)
    (hb : b.written = false) : b.val = x := by
  rcases h with h | rfl
  · rw [h] at hb; cases hb
  · exact ha hb

theorem State.StorageKeptOrWritten.unwrittenHolds (h : s.StorageKeptOrWritten t) (hs : s.unwrittenHolds) : t.unwrittenHolds :=
  ⟨fun n => ⟨(h.1 n).1.unwritten (hs.1 n).1, (h.1 n).2.unwritten (hs.1 n).2⟩, fun k => (h.2 k).unwritten (hs.2 k)⟩

/-- An operation that leaves the decimal registers and TBUF alone. -/
theorem State.storageKept_of_same (hr : t.reg = s.reg) (hc : t.cell = s.cell) : s.StorageKeptOrWritten t :=
  ⟨fun n => by rw [hr]; exact ⟨.inr rfl, .inr rfl⟩, fun k => by rw [hc]; exact .inr rfl⟩

/-- An operation that leaves TBUF and all decimal registers but one alone. -/
theorem State.storageKept_of_one_reg (n : DIx) (hw : (s.reg n).whole.KeptOrWritten (t.reg n).whole)
    (hf : (s.reg n).frac.KeptOrWritten (t.reg n).frac) (ho : ∀ j, j ≠ n → t.reg j = s.reg j) (hc : t.cell = s.cell) :
    s.StorageKeptOrWritten t := by
  refine ⟨fun j => ?_, fun k => by rw [hc]; exact .inr rfl⟩
  by_cases hj : j = n
  · subst hj; exact ⟨hw, hf⟩
  · rw [ho j hj]; exact ⟨.inr rfl, .inr rfl⟩

theorem State.setPair_storageKept (s : State) (rd : DIx) (v : Pair) : s.StorageKeptOrWritten (s.setPair rd v) :=
  State.storageKept_of_one_reg rd (.inl (by simp)) (.inl (by simp)) (fun j => s.setPair_reg_other rd j v) rfl

theorem State.setWhole_storageKept (s : State) (n : DIx) (v : Word) : s.StorageKeptOrWritten (s.setWhole n v) :=
  State.storageKept_of_one_reg n (.inl (by simp)) (.inr (by simp)) (fun j => s.setWhole_reg_other n j v) rfl

theorem State.setFrac_storageKept (s : State) (n : DIx) (v : Word) : s.StorageKeptOrWritten (s.setFrac n v) :=
  State.storageKept_of_one_reg n (.inr (by simp)) (.inl (by simp)) (fun j => s.setFrac_reg_other n j v) rfl

theorem State.setText_storageKept (s : State) (x : Text) : s.StorageKeptOrWritten (s.setText x) :=
  ⟨fun _ => ⟨.inr rfl, .inr rfl⟩, fun k => .inl (by simp)⟩

theorem State.setTbufWord_storageKept (s : State) (k : Fin 8) (v : Word) : s.StorageKeptOrWritten (s.setTbufWord k v) := by
  refine ⟨fun _ => ⟨.inr rfl, .inr rfl⟩, fun i => ?_⟩
  rw [State.setTbufWord_cell]
  split
  · exact .inl rfl
  · exact .inr rfl

/-- A host write keeps each unit of storage or writes it. -/
theorem State.writeWindow_storageKept (s : State) (r : WindowReg) (v : Word) : s.StorageKeptOrWritten (s.writeWindow r v) := by
  rcases State.writeWindow_cases (rfl : s.writeWindow r v = _) with ⟨-, h⟩ | ⟨-, h⟩ | ⟨-, h⟩ | ⟨-, -, h⟩ | ⟨-, -, h⟩ | ⟨-, -, h⟩ |
    ⟨n, -, -, h⟩ | ⟨n, -, -, h⟩ | ⟨k, -, -, h⟩ <;> rw [h]
  iterate 6 exact State.storageKept_of_same rfl rfl
  · exact s.setWhole_storageKept n v
  · exact s.setFrac_storageKept n v
  · exact s.setTbufWord_storageKept k v

/-- A completion keeps each unit of storage or writes it. -/
theorem State.complete_storageKept {f : InFlight} (h : s.complete f = .next t) : s.StorageKeptOrWritten t := by
  rcases State.complete_cases h with ⟨i, -, h⟩ | ⟨-, rfl⟩
  · rcases exec_cases h with ⟨rd, v, rfl⟩ | ⟨o, -, rfl⟩ | ⟨x, rfl⟩
    · exact s.setPair_storageKept rd v
    · exact State.storageKept_of_same rfl rfl
    · exact s.setText_storageKept x
  · exact State.storageKept_of_same rfl rfl

/-! ### BUSY, ERR and the record under a host write -/

/-- A host write leaves RST and ERR alone; it leaves BUSY and the record alone too, or it is an accepted CMD write. R38, R251. -/
theorem State.writeWindow_control (s : State) (r : WindowReg) (v : Word) :
    (s.writeWindow r v).rst = s.rst ∧ (s.writeWindow r v).status.err = s.status.err
      ∧ (((s.writeWindow r v).status.busy = s.status.busy ∧ (s.writeWindow r v).inflight = s.inflight)
        ∨ (r = .cmd ∧ (s.writeWindow r v).status.busy = true ∧ (s.writeWindow r v).inflight = some (s.capture v))) := by
  rcases State.writeWindow_cases (rfl : s.writeWindow r v = _) with ⟨-, h⟩ | ⟨-, h⟩ | ⟨-, h⟩ | ⟨-, -, h⟩ | ⟨hr, -, h⟩ | ⟨-, -, h⟩ |
    ⟨n, -, -, h⟩ | ⟨n, -, -, h⟩ | ⟨k, -, -, h⟩ <;> rw [h]
  pick_goal 5
  · exact ⟨rfl, rfl, .inr ⟨hr, rfl, rfl⟩⟩
  all_goals exact ⟨rfl, rfl, .inl ⟨rfl, rfl⟩⟩

/-! ### The invariant -/

/-- The invariant speaks of the unit alone. -/
theorem State.Inv.of_unit (h : s.Inv) (hu : t.unit = s.unit) : t.Inv := by
  have h' : t.unit.Inv := hu ▸ ⟨h.busyMatches, h.recordShaped, h.resetHeld, h.unwrittenHolds⟩
  exact ⟨h'.busyMatches, h'.recordShaped, h'.resetHeld, h'.unwrittenHolds⟩

/-- With RST released the invariant is about BUSY, the record and the storage. -/
theorem State.Inv.of_running (hr : t.rst = false) (hb : t.busyMatches) (hf : t.recordShaped) (hu : t.unwrittenHolds) : t.Inv :=
  ⟨hb, hf, fun h => absurd (hr.symm.trans h) (by decide), hu⟩

theorem State.reset_unwrittenHolds : State.reset.unwrittenHolds := ⟨fun n => by simp [DReg.reset], fun k => by simp⟩

theorem State.Inv.reset : State.reset.Inv := .of_running rfl rfl (fun _ hf => by cases hf) State.reset_unwrittenHolds

theorem State.Inv.enterReset (s : State) : s.enterReset.Inv := ⟨rfl, fun _ hf => (by cases hf), fun _ => rfl, State.reset_unwrittenHolds⟩

theorem State.Inv.release (h : s.Inv) : (s.setRst false).Inv := .of_running rfl h.busyMatches h.recordShaped h.unwrittenHolds

theorem State.Inv.writeWindow (h : s.Inv) (hr : s.rst = false) (r : WindowReg) (v : Word) : (s.writeWindow r v).Inv := by
  obtain ⟨hrst, -, hc⟩ := s.writeWindow_control r v
  have hu := (s.writeWindow_storageKept r v).unwrittenHolds h.unwrittenHolds
  rcases hc with ⟨hb, hf⟩ | ⟨-, hb, hf⟩
  · refine .of_running (hrst.trans hr) ?_ ?_ hu
    · rw [State.busyMatches, hb, hf]; exact h.busyMatches
    · rw [State.recordShaped, hf]; exact h.recordShaped
  · refine .of_running (hrst.trans hr) ?_ ?_ hu
    · rw [State.busyMatches, hb, hf]; rfl
    · rintro f hm
      rw [hf] at hm
      cases hm
      exact s.capture_shaped v

theorem State.Inv.complete (h : s.Inv) (hr : s.rst = false) {f : InFlight} (hc : s.complete f = .next t) : t.Inv := by
  obtain ⟨-, hrst, -, -, -, hf, hst⟩ := State.complete_fields hc
  refine .of_running (hrst.trans hr) ?_ ?_ ((State.complete_storageKept hc).unwrittenHolds h.unwrittenHolds)
  · rw [State.busyMatches, hst, hf]; rfl
  · rw [State.recordShaped, hf]; rintro f' ⟨⟩

theorem State.Inv.unitStep (h : s.Inv) (hu : s.unitStep = .next t) : t.Inv := by
  rcases State.unitStep_cases hu with rfl | ⟨hr, -, f, -, hc⟩
  · exact h
  · exact h.complete hr hc

/-- Every event of the port keeps the invariant. -/
theorem State.Inv.onEvent (h : s.Inv) {e : PortEvent} (he : s.onEvent e = .next t) : t.Inv := by
  cases e with
  | read off width =>
    obtain ⟨-, x, u, rfl⟩ := State.hostRead_fields he
    exact h.of_unit rfl
  | write off width v =>
    obtain ⟨-, ⟨-, rfl⟩ | ⟨hr, rfl⟩⟩ := State.hostWrite_cases he
    · exact h
    · exact h.writeWindow hr _ _
  | completion => exact h.unitStep he
  | rst asserted =>
    cases he
    cases asserted
    · exact h.release
    · exact .enterReset s

/-- Settles O51: a step is the unit's own step or the first event of the port, and each keeps the invariant. -/
theorem stepKeepsTheInvariant : Obligations.StepKeepsTheInvariant := by
  intro s t h hs
  rcases step_cases s with ⟨-, e⟩ | ⟨ev, rest, -, e⟩
  · exact h.unitStep (e ▸ hs)
  · have hp : ({ s with port := rest } : State).Inv := h.of_unit rfl
    exact hp.onEvent (e ▸ hs)

/-- Settles O50: a clean state has the reset state's unit. -/
theorem invariantAtReset : Obligations.InvariantAtReset :=
  ⟨.reset, rfl, rfl, fun _ hc => State.Inv.reset.of_unit hc⟩

/-- Settles O44: the one write that changes BUSY is an accepted CMD write, and no write changes ERR. -/
theorem busyAndErrChangeOnlyAt : Obligations.BusyAndErrChangeOnlyAt := by
  intro s t e he
  cases e with
  | read off width =>
    obtain ⟨-, x, u, rfl⟩ := State.hostRead_fields he
    simp +contextual
  | write off width v =>
    obtain ⟨ha, ⟨-, rfl⟩ | ⟨-, rfl⟩⟩ := State.hostWrite_cases he
    · simp +contextual
    · obtain ⟨rfl, -⟩ := (accessOk_iff off width).1 ha
      obtain ⟨-, herr, ⟨hb, -⟩ | ⟨hr, hb, -⟩⟩ := s.writeWindow_control (windowReg off) v
      · simp +contextual [herr, hb]
      · exact ⟨fun _ _ => ⟨off, v, rfl, hr⟩, fun _ h => by simp [hb] at h, fun h => absurd herr h⟩
  | completion =>
    refine ⟨fun hb ht => ?_, fun _ _ => .inl rfl, fun _ => .inl rfl⟩
    rw [State.onEvent, s.unitStep_of_not_busy hb] at he
    cases he
    simp [hb] at ht
  | rst asserted =>
    cases he
    cases asserted
    · simp +contextual
    · simp [Status.reset]

end Sys2Proof.Machine
end

section
/-! PROOFS. Host writes of the registers (10_state.md R23, R34, R39, R41), STATUS as the host reads it (R37), and what a completion leaves
unchanged in the window (R24, R32, R40). -/

namespace Sys2Proof.Machine

/-! ### A host write with RST released -/

/-- A write to a register that BUSY guards is dropped while a command is in flight. R253. -/
theorem State.writeWindow_guarded_busy {s : State} (hb : s.status.busy = true) {r : WindowReg} (hr : r.guarded = true) (v : Word) :
    s.writeWindow r v = s.dropWrite := by
  cases r with
  | status | ctrl | reserved => cases hr
  | _ => exact if_pos hb

/-- BUSY guards every register but STATUS, CTRL and the reserved offsets. R253. -/
theorem WindowReg.guarded_iff (r : WindowReg) : r.guarded = true ↔ r ≠ .status ∧ r ≠ .ctrl ∧ r ≠ .reserved := by
  cases r <;> simp [WindowReg.guarded]

theorem State.hostWrite_offWhole {s : State} (hb : s.status.busy = false) (hr : s.rst = false) (n : DIx) (v : Word) :
    s.hostWrite (offWhole n) 8 v = .next (s.setWhole n v) := by
  simp [State.hostWrite_ok (accessOk_offWhole n) hr, State.writeWindow, hb]

theorem State.hostWrite_offFrac {s : State} (hb : s.status.busy = false) (hr : s.rst = false) (n : DIx) (v : Word) :
    s.hostWrite (offFrac n) 8 v = .next (s.setFrac n v) := by
  simp [State.hostWrite_ok (accessOk_offFrac n) hr, State.writeWindow, hb]

theorem State.hostWrite_offTlen {s : State} (hb : s.status.busy = false) (hr : s.rst = false) (v : Word) :
    s.hostWrite offTlen 8 v = .next (s.setTlen v) := by
  simp [State.hostWrite_ok accessOk_offTlen hr, State.writeWindow, hb]

theorem State.hostWrite_offCtrl {s : State} (hr : s.rst = false) (v : Word) : s.hostWrite offCtrl 8 v = .next (s.setCtrl v) := by
  simp [State.hostWrite_ok accessOk_offCtrl hr, State.writeWindow]

theorem State.hostWrite_offStatus {s : State} (hr : s.rst = false) (v : Word) :
    s.hostWrite offStatus 8 v = .next (s.clearStatus v) := by
  simp [State.hostWrite_ok accessOk_offStatus hr, State.writeWindow]

/-- Settles O10: the accepted writes of DnW and DnF are `setWhole` and `setFrac`. -/
theorem registerWordWrite : Obligations.RegisterWordWrite := by
  intro s n v hb hr
  constructor
  · refine ⟨_, State.hostWrite_offWhole hb hr n v, ?_, ?_, ?_, fun i => s.setWhole_reg_other n i v, rfl⟩ <;>
      simp [State.pair, State.isWritten]
  · refine ⟨_, State.hostWrite_offFrac hb hr n v, ?_, ?_, ?_, fun i => s.setFrac_reg_other n i v, rfl⟩ <;>
      simp [State.pair, State.isWritten]

/-! ### Reserved bits of TLEN and CTRL -/

/-- TLEN reads back bits 7:0 of what was written. R34. -/
theorem State.setTlen_window (s : State) (v : Word) : (s.setTlen v).window .tlen = v &&& 0xFF#64 := by
  apply BitVec.eq_of_toNat_eq
  simp only [State.window, State.setTlen_tlen, BitVec.toNat_setWidth, BitVec.toNat_and, BitVec.toNat_ofNat]
  rw [show 255 % 2 ^ 64 = 2 ^ 8 - 1 by norm_num, Nat.and_two_pow_sub_one_eq_mod]
  omega

/-- CTRL reads back bit 0 of what was written. R41. -/
theorem State.setCtrl_window (s : State) (v : Word) : (s.setCtrl v).window .ctrl = v &&& 0x1#64 := by
  apply BitVec.eq_of_getLsbD_eq
  intro i hi
  simp only [State.window, State.ctrlWord_getLsbD, State.setCtrl_ie, BitVec.getLsbD_and, BitVec.getLsbD_one]
  by_cases h : i = 0 <;> simp [h]

/-- Settles O11: the accepted writes of TLEN and CTRL are `setTlen` and `setCtrl`. -/
theorem lengthAndControlWrite : Obligations.LengthAndControlWrite :=
  fun s v hr => ⟨fun hb => ⟨_, State.hostWrite_offTlen hb hr v, rfl, s.setTlen_window v, rfl⟩,
    ⟨_, State.hostWrite_offCtrl hr v, rfl, s.setCtrl_window v, rfl⟩⟩

/-! ### STATUS -/

/-- A sticky bit after a write of `b` to it. R39. -/
theorem and_not_eq_ite (a b : Bool) : (a && !b) = if b then false else a := by cases b <;> simp

/-- Settles O12: a STATUS write is `clearStatus`; a completion and a dropped write set their bits whatever it cleared. -/
theorem statusWriteOneToClear : Obligations.StatusWriteOneToClear := by
  intro s v hr
  refine ⟨_, State.hostWrite_offStatus hr v, rfl, rfl, rfl, and_not_eq_ite _ _, and_not_eq_ite _ _, and_not_eq_ite _ _,
    and_not_eq_ite _ _, and_not_eq_ite _ _, fun o => ⟨rfl, ?_, ?_, ?_⟩, rfl⟩ <;>
    (rintro rfl; simp)

/-- Bits 2:1 of STATUS are the code of ERR. R37. -/
theorem Status.toWord_err (s : Status) : s.toWord.extractLsb' 1 2 = s.err.code := by
  rw [extractLsb'_eq_iff]
  intro j hj
  rw [Status.toWord_getLsbD]
  interval_cases j <;> simp

/-- Bits 63:9 of STATUS read 0. R37. -/
theorem Status.toWord_high (s : Status) {i : Nat} (hi : 9 ≤ i) : s.toWord.getLsbD i = false := by
  rw [Status.toWord_getLsbD]
  simp (disch := omega) only [if_neg]

/-- Settles O13: each bit by `Status.toWord_getLsbD`. -/
theorem statusLayout : Obligations.StatusLayout := by
  intro s
  refine ⟨?_, s.status.toWord_err, ?_, ?_, ?_, ?_, ?_, ?_, fun i hi => s.status.toWord_high hi, rfl, rfl, rfl, rfl, rfl⟩ <;>
    exact (s.status.toWord_getLsbD _).trans rfl

/-! ### The window across a completion -/

/-- Recording an outcome shows in STATUS alone. R203. -/
theorem State.recordOutcome_window (s : State) (o : CmdOutcome) {r : WindowReg} (hr : r ≠ .status) :
    (s.recordOutcome o).window r = s.window r := by
  cases r with
  | status => exact absurd rfl hr
  | _ => rfl

/-- Writing a pair shows in its two words alone. R24. -/
theorem State.setPair_window (s : State) {rd : DIx} (v : Pair) {r : WindowReg} (hw : r ≠ .whole rd) (hf : r ≠ .frac rd) :
    (s.setPair rd v).window r = s.window r := by
  cases r with
  | whole n => simp only [State.window, s.setPair_reg_other rd n v (fun h => hw (h ▸ rfl))]
  | frac n => simp only [State.window, s.setPair_reg_other rd n v (fun h => hf (h ▸ rfl))]
  | _ => rfl

/-- Writing a text shows in TLEN and TBUF alone. R32. -/
theorem State.setText_window (s : State) (x : Text) {r : WindowReg} (hl : r ≠ .tlen) (hb : ∀ k, r ≠ .tbuf k) :
    (s.setText x).window r = s.window r := by
  cases r with
  | tlen => exact absurd rfl hl
  | tbuf k => exact absurd rfl (hb k)
  | _ => rfl

theorem State.finishPair_window (s : State) {rd : DIx} (o : CmdOutcome) (p : Option Pair) {r : WindowReg} (hs : r ≠ .status)
    (hw : r ≠ .whole rd) (hf : r ≠ .frac rd) : (s.finishPair rd o p).window r = s.window r := by
  cases p with
  | some v => rw [State.finishPair_some, State.recordOutcome_window _ _ hs, s.setPair_window v hw hf]
  | none => exact s.recordOutcome_window o hs

theorem State.finishText_window (s : State) (x : Text) {r : WindowReg} (hs : r ≠ .status) (hl : r ≠ .tlen) (hb : ∀ k, r ≠ .tbuf k) :
    (s.finishText x).window r = s.window r :=
  ((s.setText x).recordOutcome_window .ok hs).trans (s.setText_window x hl hb)

theorem State.finishPair_reg_other (s : State) {rd n : DIx} (o : CmdOutcome) (p : Option Pair) (h : n ≠ rd) :
    (s.finishPair rd o p).reg n = s.reg n := by
  cases p with
  | some v => exact s.setPair_reg_other rd n v h
  | none => rfl

theorem exec_sameOutside {s t : State} {i : Instr} (h : exec i s = .next t) : sameOutside s t := by
  obtain ⟨hie, hrst, hp, hrd, hu, -, -⟩ := exec_fields h
  exact ⟨hie, hrst, hp, hrd, hu⟩

/-- No completion changes DROP. R40, R203. -/
theorem exec_drop {s t : State} {i : Instr} (h : exec i s = .next t) : t.status.drop = s.status.drop := by
  obtain ⟨-, -, -, -, -, -, hst⟩ := exec_fields h
  rw [hst, Status.completed_drop]

/-- The command with no destination register is the one that writes a text. R83. -/
theorem destination_eq_none_iff (i : Instr) : destination i = none ↔ writesText i = true := by
  cases i <;> simp [destination, writesText]

/-- Settles O41: a command ends in `finishPair` on its destination or, DFMT alone, in `finishText`. -/
theorem commandFrame : Obligations.CommandFrame := by
  intro s t i h
  obtain ⟨rd, o, f, hd, hw, -, hf⟩ | ⟨hd, f, hf⟩ := exec_of_record i <;> obtain rfl := Host.Outcome.next.inj ((hf s).symm.trans h)
  · exact ⟨fun r hs hr _ => s.finishPair_window o _ hs (hr rd hd).1 (hr rd hd).2,
      fun n hn => s.finishPair_reg_other o _ fun hnr => hn (hnr ▸ hd),
      fun _ => ⟨s.finishPair_tbuf rd o _, s.finishPair_tlen rd o _⟩, exec_drop h, exec_sameOutside h⟩
  · have hw := (destination_eq_none_iff i).1 hd
    exact ⟨fun r hs _ hx => s.finishText_window _ hs (hx hw).1 (hx hw).2, fun _ _ => rfl, fun hn => by simp [hw] at hn,
      exec_drop h, exec_sameOutside h⟩

end Sys2Proof.Machine
end

section
/-! PROOFS. The values of pairs (10_state.md R25 to R31), through their units of 10^-19. -/

namespace Sys2Proof.Machine

open Sys2Proof.Config

/-- Values compare as their units do. R30. -/
theorem Pair.value_le_iff (v u : Pair) : v.value ≤ u.value ↔ v.units ≤ u.units := by
  rw [← not_lt, ← not_lt, Pair.value_lt_iff]

/-- A value compares with an integer as its units compare with that many times D. R30. -/
theorem Pair.value_le_int_iff (v : Pair) (n : Int) : v.value ≤ n ↔ v.units ≤ n * decimalMax := by
  rw [v.value_eq_units, div_le_iff₀ (by norm_num)]
  exact_mod_cast Iff.rfl

theorem Pair.value_lt_int_iff (v : Pair) (n : Int) : v.value < n ↔ v.units < n * decimalMax := by
  rw [v.value_eq_units, div_lt_iff₀ (by norm_num)]
  exact_mod_cast Iff.rfl

/-- The units of a pair on either side of zero, with D written out. R25, R30. -/
theorem Pair.units_cases (v : Pair) :
    (v.w.toInt < 0 ∧ v.units = v.w.toInt * 10000000000000000000 - v.f.toNat)
      ∨ (0 ≤ v.w.toInt ∧ v.units = v.w.toInt * 10000000000000000000 + v.f.toNat) := by
  have hu : v.units = v.w.toInt * 10000000000000000000 + (if v.w.toInt < 0 then -1 else 1) * v.f.toNat := v.units_eq
  split at hu <;> omega

theorem Pair.units_zero : (Pair.ofInts 0 0).units = 0 := by decide
theorem Pair.units_lowest : (Pair.ofInts iMin uMax).units = -92233720368547758098446744073709551615 := by decide
theorem Pair.units_highest : (Pair.ofInts iMax uMax).units = 92233720368547758088446744073709551615 := by decide

/-- Every value lies between the lowest and the highest one. R30. -/
theorem Pair.units_bounds (v : Pair) : (Pair.ofInts iMin uMax).units ≤ v.units ∧ v.units ≤ (Pair.ofInts iMax uMax).units := by
  have hf := v.f.isLt
  have hl := BitVec.le_toInt v.w
  have hh := BitVec.toInt_lt (x := v.w)
  rw [Pair.units_lowest, Pair.units_highest]
  rcases v.units_cases with ⟨hw, hu⟩ | ⟨hw, hu⟩ <;> omega

/-- Settles O37: the bounds and the two end values, in units. -/
theorem valueRange : Obligations.ValueRange := by
  intro v
  obtain ⟨hl, hh⟩ := v.units_bounds
  refine ⟨v.value_eq_units, (Pair.value_le_iff _ _).2 hl, (Pair.value_le_iff _ _).2 hh, ?_, ?_, by norm_num, by norm_num, by norm_num,
    by norm_num, rfl⟩
  · rw [Pair.value_eq_units, Pair.units_lowest]; norm_num
  · rw [Pair.value_eq_units, Pair.units_highest]; norm_num

/-- No units lie strictly between those of -1 and of 0. R27. -/
theorem Pair.units_le_of_neg (v : Pair) (h : v.units < 0) : v.units ≤ -1 * decimalMax := by
  rw [show -1 * (decimalMax : Int) = -10000000000000000000 by rfl]
  rcases v.units_cases with ⟨hw, hu⟩ | ⟨hw, hu⟩ <;> omega

/-- A normalized pair is determined by its units. R31. -/
theorem Pair.eq_of_units_eq {v u : Pair} (hv : v.normalized = true) (hu : u.normalized = true) (h : v.units = u.units) : v = u := by
  have hv : v.f.toNat < 10000000000000000000 := of_decide_eq_true hv
  have hu : u.f.toNat < 10000000000000000000 := of_decide_eq_true hu
  rw [Pair.eq_iff]
  rcases v.units_cases with ⟨_, ev⟩ | ⟨_, ev⟩ <;> rcases u.units_cases with ⟨_, eu⟩ | ⟨_, eu⟩ <;> omega

/-- Units 0 leave the fraction no room for a carry, so the pair is normalized, and it is the pair (0, 0). R27. -/
theorem Pair.units_eq_zero_iff (v : Pair) : v.units = 0 ↔ v = Pair.ofInts 0 0 := by
  constructor
  · intro h
    have hn : v.f.toNat < 10000000000000000000 := by rcases v.units_cases with ⟨_, hu⟩ | ⟨_, hu⟩ <;> omega
    exact Pair.eq_of_units_eq (decide_eq_true hn) (by decide) (h.trans Pair.units_zero.symm)
  · rintro rfl
    exact Pair.units_zero

/-- Moving D of the fraction into the whole word keeps the units, because the whole word moves away from zero. R31. -/
theorem Pair.units_eq_of_carry {v r : Pair} (hw : r.w.toInt = v.w.toInt + sgn v.w) (hf : r.f.toNat + decimalMax = v.f.toNat) :
    r.units = v.units := by
  have hf : r.f.toNat + 10000000000000000000 = v.f.toNat := hf
  have hs : sgn v.w = if v.w.toInt < 0 then -1 else 1 := by simp [sgn, neg]
  rcases v.units_cases with ⟨hv, ev⟩ | ⟨hv, ev⟩ <;> rcases r.units_cases with ⟨hr, er⟩ | ⟨hr, er⟩ <;> split at hs <;> omega

theorem Pair.units_carry {v : Pair} (hl : v.w.toInt ≠ iMin) (hh : v.w.toInt ≠ iMax) (hc : v.carryPending = true) :
    (Pair.ofInts (v.w.toInt + sgn v.w) (v.f.toNat - decimalMax)).units = v.units := by
  have hc : decimalMax ≤ v.f.toNat := of_decide_eq_true hc
  have hf := v.f.isLt
  obtain ⟨hl', hh'⟩ := toInt_bounds v.w
  have hs : sgn v.w = if v.w.toInt < 0 then -1 else 1 := by simp [sgn, neg]
  apply Pair.units_eq_of_carry
  · exact Pair.ofInts_w (by split at hs <;> omega) (by split at hs <;> omega) _
  · rw [Pair.ofInts_f _ (by omega)]
    omega

/-- Settles O38: each clause in units. -/
theorem valueAndPairs : Obligations.ValueAndPairs := by
  refine ⟨fun v h => ?_, fun v => ?_, fun v hl hh hc => ?_, fun v u hv hu h => ?_⟩
  · have hn : v.units < 0 := by simpa using (v.value_lt_int_iff 0).1 (by exact_mod_cast h)
    exact_mod_cast (v.value_le_int_iff (-1)).2 (v.units_le_of_neg hn)
  · rw [← v.units_eq_zero_iff, v.value_eq_units, div_eq_zero_iff]
    norm_num
  · exact (Pair.value_eq_iff _ _).2 (Pair.units_carry hl hh hc)
  · exact Pair.eq_of_units_eq hv hu ((Pair.value_eq_iff _ _).1 h)

end Sys2Proof.Machine
end

section
/-! PROOFS. The accesses of one cycle under a command in flight (10_state.md R39, 60_exceptions.md R206, 70_reset_and_hazards.md R253):
what each does to the unit and to the clock, and the cycle as a whole by induction on its accesses. -/

namespace Sys2Proof.Machine

open Sys2Proof.Config

/-! ### Runs -/

/-- A run that reached a state goes on from that state. -/
theorem core_run_add {k : Nat} (n : Nat) {s t : State} (h : Host.Core.run Sys2Proof.core k s = .next t) :
    Host.Core.run Sys2Proof.core (k + n) s = Host.Core.run Sys2Proof.core n t := by
  induction k generalizing s with
  | zero => cases h; rw [Nat.zero_add]
  | succ k ih =>
    obtain ⟨u, hu, h⟩ := core_run_succ_cases h
    rw [Nat.succ_add, core_run_succ hu, ih h]

/-! ### One access -/

/-- A command is in flight, with record `f`, and RST is released. -/
def State.Working (s : State) (f : InFlight) : Prop := s.rst = false ∧ s.status.busy = true ∧ s.inflight = some f

/-- The clock of a command in flight that completes at cycle `c`. -/
def Clock.Awaits (k : Clock) (c : Nat) : Prop := k.due = some c ∧ k.rst = false

/-- A write of a register that BUSY guards, which a unit at work drops. R253. -/
def PortEvent.writesGuarded : PortEvent → Bool
  | .write off _ _ => (windowReg off).guarded
  | .read _ _ | .completion | .rst _ => false

/-- A host write to a working unit leaves it at work; it sets DROP when it is dropped, and a write of STATUS with the bit for DROP 0,
of CTRL or of a reserved offset keeps DROP. R39, R253. -/
theorem State.Working.writeWindow {s : State} {f : InFlight} (h : s.Working f) (r : WindowReg) (v : Word) :
    (s.writeWindow r v).Working f
      ∧ ((r.guarded = true ∨ (s.status.drop = true ∧ (r = .status → v.getLsbD 8 = false))) →
        (s.writeWindow r v).status.drop = true) := by
  obtain ⟨hr, hb, hf⟩ := h
  cases hg : r.guarded with
  | true =>
    rw [State.writeWindow_guarded_busy hb hg]
    exact ⟨⟨hr, hb, hf⟩, fun _ => rfl⟩
  | false =>
    cases r with
    | cmd | tlen | whole | frac | tbuf => cases hg
    | status => exact ⟨⟨hr, hb, hf⟩, by simp +contextual [State.writeWindow]⟩
    | ctrl | reserved => exact ⟨⟨hr, hb, hf⟩, by simp +contextual [State.writeWindow]⟩

/-- The value with which a write acts in its cycle: a STATUS write in a cycle with a dropped write has its bit for DROP 0. R39. -/
theorem Clock.inCycle_write_drop (k : Clock) (t : Nat) (off : Offset) (width : Nat) (v : Word) :
    ∃ w, k.inCycle t (.write off width v) = .write off width w
      ∧ (windowReg off = .status → k.dropped = some t → w.getLsbD 8 = false) :=
  ⟨_, rfl, fun hr hk => by simp [hr, hk, withoutDropBit]⟩

/-- An access of cycle `t` to a working unit goes on and leaves it at work. DROP is set after it if the access is a dropped write, or
if DROP was set and the clock has a dropped write of this cycle. R39, R253. -/
theorem State.Working.onEvent {s : State} {f : InFlight} (h : s.Working f) (k : Clock) (t : Nat) {e : PortEvent}
    (ha : isAccess e = true) (hok : accessesOk [e] = true) :
    ∃ u, s.onEvent (k.inCycle t e) = .next u ∧ u.port = s.port ∧ u.Working f
      ∧ (e.writesGuarded = true ∨ (s.status.drop = true ∧ k.dropped = some t) → u.status.drop = true) := by
  cases e with
  | completion | rst => cases ha
  | read off width =>
    have hok : accessOk off width = true := by simpa [accessesOk] using hok
    refine ⟨_, State.hostRead_ok hok h.1, rfl, h, ?_⟩
    rintro (hw | ⟨hd, -⟩)
    · cases hw
    · exact hd
  | write off width v =>
    have hok : accessOk off width = true := by simpa [accessesOk] using hok
    obtain ⟨w, he, h8⟩ := k.inCycle_write_drop t off width v
    obtain ⟨hw, hd⟩ := h.writeWindow (windowReg off) w
    have hu : s.onEvent (.write off width w) = .next (s.writeWindow (windowReg off) w) := State.hostWrite_ok hok h.1
    refine ⟨_, he ▸ hu, State.onEvent_port hu, hw, ?_⟩
    rintro (hg | ⟨hs, hk⟩)
    · exact hd (.inl hg)
    · exact hd (.inr ⟨hs, fun hr => h8 hr hk⟩)

/-- An access of cycle `t` leaves the clock's command awaited, and keeps or makes its note of a dropped write of the cycle. R253. -/
theorem Clock.Awaits.after {k : Clock} {c : Nat} (h : k.Awaits c) (l : Latencies) (t : Nat) {e : PortEvent} (ha : isAccess e = true)
    (hok : accessesOk [e] = true) :
    (k.after l t e).Awaits c ∧ (e.writesGuarded = true ∨ k.dropped = some t → (k.after l t e).dropped = some t) := by
  cases e with
  | completion | rst => cases ha
  | read off width => exact ⟨h, by simp [PortEvent.writesGuarded, Clock.after]⟩
  | write off width v =>
    have hok : accessOk off width = true := by simpa [accessesOk] using hok
    rw [Clock.after_write_of_due h.1 h.2 hok]
    cases hg : (windowReg off).guarded with
    | true => exact ⟨h, fun _ => rfl⟩
    | false => exact ⟨h, by simp [PortEvent.writesGuarded, hg]⟩

/-! ### One cycle -/

/-- The accesses of one cycle, no later than the completion, run to a working unit whose port holds the completion alone; DROP is set
there if one of them was a dropped write, or if the clock and DROP already had one of this cycle. R39, R253. -/
theorem State.Working.run_cycle (l : Latencies) {c t : Nat} (ht : t ≤ c) {f : InFlight} {es : List PortEvent} {k : Clock} {s : State}
    (hk : k.Awaits c) (hs : s.Working f) (ha : es.all isAccess = true) (hok : accessesOk es = true)
    (hp : s.port = timedPort l k (es.map fun e => (t, e))) :
    ∃ u, Host.Core.run Sys2Proof.core es.length s = .next u ∧ u.port = [.completion] ∧ u.Working f
      ∧ ((∃ e ∈ es, e.writesGuarded = true) ∨ (s.status.drop = true ∧ k.dropped = some t) → u.status.drop = true) := by
  induction es generalizing k s with
  | nil => exact ⟨s, rfl, hp.trans (timedPort_nil_of_due hk.1), hs, by simp +contextual⟩
  | cons e es ih =>
    obtain ⟨hae, ha⟩ := Bool.and_eq_true_iff.1 ha
    obtain ⟨hoke, hok⟩ : accessesOk [e] = true ∧ accessesOk es = true := by simpa [accessesOk] using hok
    obtain ⟨hk', hkd⟩ := hk.after l t hae hoke
    rw [List.map_cons, timedPort_cons_of_due hk.1 ht] at hp
    have hs' : ({ s with port := timedPort l (k.after l t e) (es.map fun e => (t, e)) } : State).Working f := hs
    obtain ⟨v, hv, hvp, hvw, hvd⟩ := hs'.onEvent k t hae hoke
    obtain ⟨u, hu, hup, huw, hud⟩ := ih hk' hvw ha hok hvp
    refine ⟨u, (core_run_succ ((step_of_port_cons hp).trans hv)).trans hu, hup, huw, ?_⟩
    rintro (⟨e', he', hg⟩ | ⟨hd, hkt⟩)
    · rcases List.mem_cons.1 he' with rfl | he'
      · exact hud (.inr ⟨hvd (.inl hg), hkd (.inl hg)⟩)
      · exact hud (.inl ⟨e', he', hg⟩)
    · exact hud (.inr ⟨hvd (.inr ⟨hd, hkt⟩), hkd (.inr hkt)⟩)

/-- The completion of a working unit: DONE and the bit of its outcome end set, DROP stays. R203. -/
theorem State.Working.completion {u : State} {f : InFlight} (h : u.Working f) (hp : u.port = [.completion]) :
    ∃ x, step u = .next x ∧ x.status = u.status.completed x.status.err := by
  have h' : ({ u with port := [] } : State).Working f := h
  obtain ⟨x, hx⟩ := ({ u with port := [] } : State).complete_next f
  obtain ⟨-, -, -, -, -, -, hst⟩ := State.complete_fields hx
  exact ⟨x, (step_of_port_cons hp).trans ((State.unitStep_of_inflight h'.1 h'.2.1 h'.2.2).trans hx), hst⟩

/-- Settles O58: the accesses of the cycle by `State.Working.run_cycle`, then the completion. -/
theorem setWinsOverClearInOneCycle : Obligations.SetWinsOverClearInOneCycle := by
  intro l k c t es s f hk hkr ht hr hb hf ha hok
  have hs : ({ s with port := timedPort l k (es.map fun e => (t, e)) } : State).Working f := ⟨hr, hb, hf⟩
  obtain ⟨u, hu, hup, huw, hud⟩ := hs.run_cycle l ht ⟨hk, hkr⟩ ha hok rfl
  obtain ⟨x, hx, hst⟩ := huw.completion hup
  refine ⟨u, x, hu, (core_run_add 1 hu).trans (core_run_succ hx), ?_, ?_⟩
  · rintro ⟨off, v, hm, hg⟩
    have hd := hud (.inl ⟨_, hm, (windowReg off).guarded_iff.2 hg⟩)
    exact ⟨hd, by rw [hst, Status.completed_drop, hd]⟩
  · rw [hst]
    simp +contextual

end Sys2Proof.Machine
end

section
/-! PROOFS. The register window (20_memory.md R51 to R60): addresses and offsets, the register map, well-formed and malformed accesses, what a
read returns, reserved offsets and bits, the packing of TBUF; and the order in which the port is served (R62). -/

namespace Sys2Proof.Config

/-- The address of an offset lies in the window and reaches that offset. R51. -/
theorem Platform.offset?_address (p : Platform) (off : Offset) : p.offset? (p.address off) = some off := by
  have hlt : p.address off < p.base + 4096 := Nat.add_lt_add_left off.isLt _
  rw [Platform.offset?, if_pos ⟨Nat.le_add_right _ _, hlt⟩]
  simp [Platform.address]

/-- An address that reaches an offset lies in the window, at that offset. R51. -/
theorem Platform.address_of_offset? {p : Platform} {addr : Nat} {off : Offset} (h : p.offset? addr = some off) : addr = p.address off := by
  unfold Platform.offset? at h
  split at h
  · next hin =>
    cases h
    simp only [Platform.address, BitVec.toNat_ofNat]
    omega
  · cases h

end Sys2Proof.Config

namespace Sys2Proof.Machine

open Sys2Proof.Config

variable {s t : State}

/-- Settles O55: the two directions are `Platform.offset?_address` and `Platform.address_of_offset?`. -/
theorem windowAddresses : Obligations.WindowAddresses :=
  fun p => ⟨p.offset?_address, fun _ _ h => Platform.address_of_offset? h⟩

/-! ### The register map -/

/-- An offset is reserved exactly when it is none of CMD, STATUS, CTRL, TLEN and lies outside the ranges of the D words and of TBUF. R52. -/
theorem windowReg_eq_reserved_iff (off : Offset) :
    windowReg off = .reserved ↔ (off.toNat ≠ 0x000 ∧ off.toNat ≠ 0x008 ∧ off.toNat ≠ 0x010 ∧ off.toNat ≠ 0x018)
      ∧ ¬ (0x100 ≤ off.toNat ∧ off.toNat < 0x180) ∧ ¬ (0x200 ≤ off.toNat ∧ off.toNat < 0x240) := by
  simp only [windowReg]
  split_ifs <;> simp [*]

/-- Settles O6: the laws of the register map, and `windowReg_eq_reserved_iff` on the multiples of 8. -/
theorem registerMapOffsets : Obligations.RegisterMapOffsets := by
  refine ⟨windowReg_offCmd, windowReg_offStatus, windowReg_offCtrl, windowReg_offTlen, windowReg_offWhole, windowReg_offFrac,
    windowReg_offTbuf, fun off h8 => ?_⟩
  have hlt := off.isLt
  rw [windowReg_eq_reserved_iff]
  omega

/-! ### Host accesses -/

/-- An aligned 8-byte access is well formed. R53. -/
theorem accessOk_of_aligned {off : Offset} (h8 : off.toNat % 8 = 0) : accessOk off 8 = true := (accessOk_iff off 8).2 ⟨rfl, h8⟩

/-- Settles O5: `accessOk` decides, and a well-formed access goes on to a next state. -/
theorem malformedAccessFaults : Obligations.MalformedAccessFaults := by
  intro s off width v
  constructor
  · intro hbad
    have ha : accessOk off width = false := Bool.eq_false_iff.2 fun ha => by have := (accessOk_iff off width).1 ha; omega
    exact ⟨State.hostRead_bad ha, State.hostWrite_bad ha⟩
  · intro hok
    have ha : accessOk off width = true := (accessOk_iff off width).2 hok
    obtain ⟨t, ht⟩ := State.onEvent_next (s := s) (e := .read off width) (by simpa [accessesOk] using ha)
    obtain ⟨u, hu⟩ := State.onEvent_next (s := s) (e := .write off width v) (by simpa [accessesOk] using ha)
    exact ⟨fun _ _ _ h => (nomatch ht.symm.trans h), fun _ _ _ h => (nomatch hu.symm.trans h)⟩

@[simp] theorem State.observe_window (s : State) (off : Offset) (v : Word) (r : WindowReg) : (s.observe off v).window r = s.window r := by
  cases r <;> rfl

/-- A read repeated after a read has the same register to return and no further use to note. R59. -/
theorem State.hostRead_again {off : Offset} {width : Nat} (ha : accessOk off width = true) (hr : s.rst = false)
    (h : s.hostRead off width = .next t) :
    t.hostRead off width = .next { t with reads := ⟨off, s.window (windowReg off)⟩ :: t.reads } := by
  obtain rfl := Host.Outcome.next.inj ((State.hostRead_ok ha hr).symm.trans h)
  have hnote := State.noteUse_again (s := s) (t := (s.noteUse (windowReg off).locs).observe off (s.window (windowReg off))) rfl rfl rfl
  rw [State.hostRead_ok ha (by exact hr), hnote, State.observe_window, State.noteUse_window]
  rfl

/-- Settles O7: a read notes its use and its value, and `State.hostRead_again`. -/
theorem hostReadHasNoSideEffect : Obligations.HostReadHasNoSideEffect := by
  refine fun s => ⟨fun off h8 hr => ?_, fun n => ⟨rfl, rfl, rfl⟩, rfl⟩
  have ha := accessOk_of_aligned h8
  have hread := State.hostRead_ok ha hr
  exact ⟨_, hread, rfl, State.hostRead_again ha hr hread⟩

/-! ### Reserved offsets and reserved bits -/

/-- A read of a reserved offset returns 0 and notes no use. R55. -/
theorem State.hostRead_reserved {off : Offset} (ha : accessOk off 8 = true) (hr : s.rst = false) (hres : windowReg off = .reserved) :
    s.hostRead off 8 = .next (s.observe off 0#64) := by
  simp [State.hostRead_ok ha hr, hres, WindowReg.locs, State.window]

/-- A write to a reserved offset is ignored. R55. -/
theorem State.hostWrite_reserved {off : Offset} (ha : accessOk off 8 = true) (hr : s.rst = false) (hres : windowReg off = .reserved)
    (v : Word) : s.hostWrite off 8 v = .next s := by
  simp [State.hostWrite_ok ha hr, hres, State.writeWindow]

/-- A word whose bits from `n` on are 0 is below 2^n. -/
theorem toNat_lt_two_pow_of_high {x : Word} {n : Nat} (h : ∀ i, n ≤ i → x.getLsbD i = false) : x.toNat < 2 ^ n :=
  Nat.lt_pow_two_of_testBit _ h

/-- TLEN takes the low byte of a write. R34. -/
theorem State.setTlen_and (s : State) (v : Word) : s.setTlen (v &&& 0xFF#64) = s.setTlen v := by
  have h : (v &&& 0xFF#64).setWidth 8 = v.setWidth 8 := by
    rw [BitVec.setWidth_and]
    exact BitVec.and_allOnes
  simp only [State.setTlen, h]

/-- CTRL takes bit 0 of a write. R41. -/
theorem State.setCtrl_and (s : State) (v : Word) : s.setCtrl (v &&& 0x1#64) = s.setCtrl v := by simp [State.setCtrl]

/-- STATUS looks at bits 8:4 of a write. R39. -/
theorem State.clearStatus_and (s : State) (v : Word) : s.clearStatus (v &&& 0x1F0#64) = s.clearStatus v := by
  simp [State.clearStatus, Status.writeOneToClear]

/-- Settles O8: reserved offsets, then the reserved bits as read, then as written. -/
theorem reservedReadsZeroWritesIgnored : Obligations.ReservedReadsZeroWritesIgnored := by
  intro s v hr
  refine ⟨fun off h8 hres => ?_, ?_, ?_, s.status.toWord_getLsbD 3, ?_, ?_, ?_, ?_⟩
  · have ha := accessOk_of_aligned h8
    exact ⟨State.hostRead_reserved ha hr hres, State.hostWrite_reserved ha hr hres v⟩
  · exact toNat_lt_two_pow_of_high fun i hi => by simp [State.window, BitVec.getLsbD_of_ge s.tlen i hi]
  · exact toNat_lt_two_pow_of_high fun i hi => (s.ctrlWord_getLsbD i).trans (if_neg (by omega))
  · exact toNat_lt_two_pow_of_high fun i hi => s.status.toWord_high hi
  · simp only [State.hostWrite_ok accessOk_offTlen hr, windowReg_offTlen, State.writeWindow, State.setTlen_and]
  · rw [State.hostWrite_offCtrl hr, State.hostWrite_offCtrl hr, State.setCtrl_and]
  · rw [State.hostWrite_offStatus hr, State.hostWrite_offStatus hr, State.clearStatus_and]

/-! ### The packing of TBUF -/

theorem State.hostWrite_offTbuf (hb : s.status.busy = false) (hr : s.rst = false) (k : Fin 8) (v : Word) :
    s.hostWrite (offTbuf k) 8 v = .next (s.setTbufWord k v) := by
  simp [State.hostWrite_ok (accessOk_offTbuf k) hr, State.writeWindow, hb]

/-- A write of TBUFk puts lane j of its value in byte 8k + j, written from then on. R57. -/
theorem State.setTbufWord_cell_same (s : State) (k j : Fin 8) (v : Word) : (s.setTbufWord k v).cell (tbufIx k j) = ⟨lane v j.val, true⟩ := by
  rw [State.setTbufWord_cell, if_pos (tbufIx_div k j), tbufIx_mod]

/-- A write of TBUFk leaves the bytes of every other TBUF word as they are. R57. -/
theorem State.setTbufWord_cell_other (s : State) {k m : Fin 8} (h : m ≠ k) (j : Fin 8) (v : Word) :
    (s.setTbufWord k v).cell (tbufIx m j) = s.cell (tbufIx m j) := by
  rw [State.setTbufWord_cell, if_neg]
  rw [tbufIx_div]
  exact Fin.val_ne_of_ne h

/-- Settles O9: `State.tbufWord_lane` for the packing; the accepted write is `setTbufWord`. -/
theorem textBufferPacking : Obligations.TextBufferPacking := by
  refine fun s k j v => ⟨rfl, s.tbufWord_lane k j, fun hb hr => ?_⟩
  refine ⟨_, State.hostWrite_offTbuf hb hr k v, fun i => ?_, fun m i h => s.setTbufWord_cell_other h i v, rfl⟩
  exact ⟨congrArg Held.val (s.setTbufWord_cell_same k i v), congrArg Held.written (s.setTbufWord_cell_same k i v)⟩

/-! ### The order of the port -/

/-- Settles O46: the two cases of a step; an empty port with nothing in flight leaves the unit's step nothing to do. -/
theorem stepServesThePortInOrder : Obligations.StepServesThePortInOrder :=
  fun _ => ⟨fun _ _ hp => step_of_port_cons hp, fun hp hb => (step_of_port_nil hp).trans (State.unitStep_of_not_busy hb)⟩

end Sys2Proof.Machine
end

section
/-! PROOFS. A command and its polling loop (20_memory.md R63, 70_reset_and_hazards.md R255, R259): the unit beside the host's coming
accesses and its observation, one event of the host's program at a time. -/

namespace Sys2Proof.Machine

variable {s t : State}

/-- The state with these accesses still to come and these reads observed: what the host holds of it is replaced, the unit stays. -/
def State.withHost (s : State) (p : List PortEvent) (r : List HostRead) : State := { s with port := p, reads := r }

/-- The first event of the port acts on the rest of the state. R62. -/
theorem step_withHost (s : State) (e : PortEvent) (p : List PortEvent) (r : List HostRead) :
    step (s.withHost (e :: p) r) = (s.withHost p r).onEvent e := step_of_port_cons rfl

/-- A CMD write that the unit accepts is the issue of its word. R251. -/
theorem State.hostWrite_offCmd (hb : s.status.busy = false) (hr : s.rst = false) (c : Word) : s.hostWrite offCmd 8 c = .next (s.issue c) := by
  simp [State.hostWrite_ok accessOk_offCmd hr, State.writeWindow, hb]

/-- A read of STATUS returns it and uses no storage that R243 tracks. R37, R59. -/
theorem State.hostRead_offStatus (hr : s.rst = false) : s.hostRead offStatus 8 = .next (s.observe offStatus s.status.toWord) := by
  simp [State.hostRead_ok accessOk_offStatus hr, WindowReg.locs, State.window]

theorem step_withHost_issue (hs : s.idle) (c : Word) (p : List PortEvent) (r : List HostRead) :
    step (s.withHost (wr8 offCmd c :: p) r) = .next ((s.issue c).withHost p r) := by
  obtain ⟨hb, -, hr⟩ := hs
  exact (step_withHost s _ p r).trans (State.hostWrite_offCmd (s := s.withHost p r) hb hr c)

theorem step_withHost_poll (hr : s.rst = false) (p : List PortEvent) (r : List HostRead) :
    step (s.withHost (rd8 offStatus :: p) r) = .next (s.withHost p (⟨offStatus, s.status.toWord⟩ :: r)) :=
  (step_withHost s _ p r).trans (State.hostRead_offStatus (s := s.withHost p r) hr)

/-- A polling loop changes the observation alone: each of its reads returns the same STATUS. R59, R63. -/
theorem core_run_polls (hr : s.rst = false) (n : Nat) (p : List PortEvent) (r : List HostRead) :
    Host.Core.run Sys2Proof.core n (s.withHost (List.replicate n (rd8 offStatus) ++ p) r)
      = .next (s.withHost p (List.replicate n ⟨offStatus, s.status.toWord⟩ ++ r)) := by
  induction n generalizing r with
  | zero => rfl
  | succ n ih =>
    rw [List.replicate_succ' (a := HostRead.mk _ _), List.append_assoc]
    exact (core_run_succ (step_withHost_poll hr _ r)).trans (ih _)

/-- A command's meaning does not look at what the host holds, and does not change it. R19, R252. -/
theorem exec_withHost {i : Instr} (h : exec i s = .next t) (p : List PortEvent) (r : List HostRead) :
    exec i (s.withHost p r) = .next (t.withHost p r) := by
  obtain ⟨rd, o, f, -, -, -, hf⟩ | ⟨-, f, hf⟩ := exec_of_record i <;> obtain rfl := Host.Outcome.next.inj ((hf s).symm.trans h)
  · have hrec : (s.withHost p r).record i = s.record i := rfl
    rw [hf, hrec]
    cases f (s.record i) <;> rfl
  · exact hf _

/-- The completion of a command just issued is the command's meaning before the issue, beside the record of what its operands used.
R243, R252. -/
theorem step_withHost_completion {i : Instr} (hs : s.idle) (h : exec i s = .next t) (p : List PortEvent) (r : List HostRead) :
    step ((s.issue (encode i)).withHost (.completion :: p) r)
      = .next (State.withHost { t with unwrittenUse := (s.noteUse (s.operandLocs (encode i))).unwrittenUse } p r) := by
  obtain ⟨-, hi, hr⟩ := hs
  have hunit := State.unitStep_of_inflight (s := (s.issue (encode i)).withHost p r) hr rfl rfl
  rw [step_withHost, State.onEvent, hunit, State.complete, State.capture_word, decode_encode]
  exact exec_withHost (exec_issue i hi h) p r

/-- The port of a command line and its `dwait`. R89. -/
theorem expandProgram_command_dwait (i : Instr) (n : Nat) :
    expandProgram [.command i, .dwait n] = wr8 offCmd (encode i) :: (List.replicate n (rd8 offStatus) ++ [.completion, rd8 offStatus]) := by
  simp [expandProgram, HostOp.expand]

/-- Settles O48: the issue, the polls by `core_run_polls`, the completion, and the last poll, which ends with the port as empty as it
was before. -/
theorem commandRunWithPolling : Obligations.CommandRunWithPolling := by
  intro s i n hs hp
  obtain ⟨t, ht⟩ := exec_next i s
  obtain ⟨-, hrt, hpt, -⟩ := exec_fields ht
  have hr : s.rst = false := hs.2.2
  have hri : (s.issue (encode i)).rst = false := hr
  have hru : ({ t with unwrittenUse := (s.noteUse (s.operandLocs (encode i))).unwrittenUse } : State).rst = false := hrt.trans hr
  refine ⟨t, ht, ?_⟩
  rw [expandProgram_command_dwait, hpt, hp]
  exact (core_run_succ (step_withHost_issue hs _ _ s.reads)).trans <|
    (core_run_add 2 (core_run_polls hri n _ _)).trans <|
    (core_run_succ (step_withHost_completion hs ht _ _)).trans <|
    (core_run_succ (step_withHost_poll hru [] _)).trans rfl

end Sys2Proof.Machine
end

section
/-! PROOFS. The command word (30_encoding.md R84 to R90): the decoder and the encoder agree, and the illegal words are those of R86's list. -/

namespace Sys2Proof.Machine

/-- A word the decoder reads as a command is that command's word. R84, R85. -/
theorem eq_encode_of_decode {c : Word} {i : Instr} (h : decode c = .ok i) : c = encode i := by
  rcases decode_cases c with ⟨hr, e⟩ | ⟨hr, e⟩ | ⟨hr, e⟩ | ⟨hr, e⟩ | ⟨hr, e⟩ | ⟨-, e⟩ <;> cases e.symm.trans h
  · exact word_of_rowDadd hr
  · exact word_of_rowDsub hr
  · exact word_of_rowDmul hr
  · exact word_of_rowDparse hr
  · exact word_of_rowDfmt hr

/-- Settles O1: the two directions are `eq_encode_of_decode` and `decode_encode`. -/
theorem decodeAcceptsExactlyTheEncodings : Obligations.DecodeAcceptsExactlyTheEncodings :=
  fun _ i => ⟨eq_encode_of_decode, fun h => h ▸ decode_encode i⟩

/-- A well-formed word, field by field: a reserved bit is never set, and DPARSE and DFMT keep their unused fields 0. R84, R86. -/
theorem wellFormedWord_iff (c : Word) : wellFormedWord c = true ↔ reservedZero c
    ∧ (c.extractLsb' 0 8 = 0x01#8 ∨ c.extractLsb' 0 8 = 0x02#8 ∨ c.extractLsb' 0 8 = 0x03#8
      ∨ (c.extractLsb' 0 8 = 0x10#8 ∧ c.extractLsb' 12 3 = 0#3 ∧ c.extractLsb' 16 3 = 0#3)
      ∨ (c.extractLsb' 0 8 = 0x11#8 ∧ c.extractLsb' 8 3 = 0#3 ∧ c.extractLsb' 16 3 = 0#3)) := by
  have hadd := rowDadd.matches_iff c 0x01#8 false false false (by decide) (by decide)
  have hsub := rowDsub.matches_iff c 0x02#8 false false false (by decide) (by decide)
  have hmul := rowDmul.matches_iff c 0x03#8 false false false (by decide) (by decide)
  have hparse := rowDparse.matches_iff c 0x10#8 false true true (by decide) (by decide)
  have hfmt := rowDfmt.matches_iff c 0x11#8 true false true (by decide) (by decide)
  simp only [wellFormedWord, opcodeMap, List.any_cons, List.any_nil, Bool.or_false, Bool.or_eq_true, hadd, hsub, hmul, hparse, hfmt]
  by_cases hr : reservedZero c <;> simp [hr]

/-- Some reserved bit is set. R86. -/
theorem not_reservedZero_iff (c : Word) : ¬ reservedZero c ↔
    c.extractLsb' 20 44 ≠ 0#44 ∨ c.getLsbD 19 = true ∨ c.getLsbD 15 = true ∨ c.getLsbD 11 = true := by
  simp only [reservedZero, not_and_or, Bool.not_eq_false, ne_eq]

/-- The completion of an issued illegal word. R202. -/
theorem State.complete_illegal {s : State} {f : InFlight} {e : DecodeError} (h : decode f.word = .error e) :
    s.complete f = .next s.finishIllegal := by
  simp only [State.complete, h]

/-- An illegal word's completion writes no result. R202, R203. -/
theorem State.finishIllegal_failedWith (s : State) : failedWith s s.finishIllegal .illegalCommand :=
  ⟨rfl, rfl, rfl, rfl, rfl, rfl, rfl, rfl, rfl, rfl⟩

/-- Settles O2: the list is `wellFormedWord_iff` negated, opcode by opcode; an illegal word is issued and ends in `finishIllegal`. -/
theorem illegalWordsAreThoseListed : Obligations.IllegalWordsAreThoseListed := by
  intro c opc rd rs1 rs2 illegal
  have hiff : (∃ e, decode c = .error e) ↔ illegal := by
    rw [decode_error_iff, Bool.eq_false_iff, ne_eq, wellFormedWord_iff, not_and_or, not_reservedZero_iff]
    by_cases hp : opc = 0x10#8
    · simp [illegal, opc, rd, rs1, rs2, hp, or_assoc, imp_iff_not_or]
    · by_cases hf : opc = 0x11#8
      · simp [illegal, opc, rd, rs1, rs2, hf, or_assoc, imp_iff_not_or]
      · rw [or_comm]
        simp [illegal, opc, hf, hp]
  refine ⟨hiff, fun hill s hs => ?_⟩
  obtain ⟨e, he⟩ := hiff.2 hill
  obtain ⟨hb, -, hr⟩ := hs
  have hc : (s.issue c).unitStep = .next (s.issue c).finishIllegal :=
    (State.unitStep_of_inflight (s := s.issue c) hr rfl rfl).trans (State.complete_illegal ((s.capture_word c).symm ▸ he))
  exact ⟨_, _, _, State.hostWrite_offCmd hb hr c, rfl, rfl, s.capture_word c, hc, State.finishIllegal_failedWith _⟩

/-- Settles O3: the examples decode because they are encodings; the last word is in no row. -/
theorem encodingExamples : Obligations.EncodingExamples := by
  have hadd : encode (.dadd 2 0 1) = 0x0000000000010201#64 := by decide
  have hsub : encode (.dsub 3 0 1) = 0x0000000000010302#64 := by decide
  have hmul : encode (.dmul 7 6 5) = 0x0000000000056703#64 := by decide
  have hparse : encode (.dparse 4) = 0x0000000000000410#64 := by decide
  have hfmt : encode (.dfmt 2) = 0x0000000000002011#64 := by decide
  exact ⟨⟨hadd, hsub, hmul, hparse, hfmt⟩, hadd ▸ decode_encode _, hsub ▸ decode_encode _, hmul ▸ decode_encode _,
    hparse ▸ decode_encode _, hfmt ▸ decode_encode _, (decode_error_iff _).2 (by decide)⟩

end Sys2Proof.Machine
end

section
/-! PROOFS. Host programs (30_encoding.md R88, R89): the assembler reads back its own spellings, and what `dtext` and `dli` leave in the
unit. -/

namespace Sys2Proof.Machine

variable {s : State}

/-! ### The assembler -/

/-- A register's token names that register. R88. -/
theorem regToken_regName : ∀ r : DIx, regToken (regName r) = some r := by decide

/-- The assembler does not see the case of a mnemonic. R88. -/
theorem assemble_toUpper (m : List Char) (xs : List (List Char)) (h : (m.map Char.toUpper).map Char.toLower = m.map Char.toLower) :
    assemble (m.map Char.toUpper) xs = assemble m xs := by
  simp only [assemble, h]

/-- No mnemonic is lost by a change of case. R88. -/
theorem spelling_toUpper_toLower (i : Instr) :
    ((Instr.spelling i).1.map Char.toUpper).map Char.toLower = (Instr.spelling i).1.map Char.toLower := by
  cases i <;> (simp only [Instr.spelling]; decide)

/-- The assembler reads a command back from its lower-case spelling. R88. -/
theorem assemble_spelling (i : Instr) : assemble (Instr.spelling i).1 (Instr.spelling i).2 = some i := by
  cases i <;> simp [assemble, Instr.spelling, regToken_regName]

/-- Settles O4: the lower-case spelling by `assemble_spelling`, the upper-case one by `assemble_toUpper`. -/
theorem assemblerReadsEverySpelling : Obligations.AssemblerReadsEverySpelling :=
  fun i => ⟨assemble_spelling i, (assemble_toUpper _ _ (spelling_toUpper_toLower i)).trans (assemble_spelling i)⟩

/-! ### dtext -/

/-- The state after words 0 .. m - 1 of a text are written to TBUF. R57, R89. -/
def State.placeWords (s : State) (x : Text) : Nat → State
  | 0 => s
  | m + 1 => (s.placeWords x m).setTbufWord (Fin.ofNat 8 m) (packWord x m)

/-- Lane j of word k of a text is byte 8k + j of the text, 0x00 past its end. R57, R89. -/
theorem packWord_lane (x : Text) (k : Nat) (j : Fin 8) : lane (packWord x k) j.val = x.getD (8 * k + j.val) 0#8 := by
  apply BitVec.eq_of_getLsbD_eq
  intro i hi
  simp only [lane, packWord, BitVec.getLsbD_extractLsb', BitVec.getLsbD_append, hi, decide_true, Bool.true_and]
  fin_cases j <;> interval_cases i <;> simp

/-- Placing a text changes TBUF alone. R57. -/
theorem State.placeWords_frame (s : State) (x : Text) (m : Nat) : s.placeWords x m = { s with tbuf := (s.placeWords x m).tbuf } := by
  induction m with
  | zero => rfl
  | succ m ih =>
    calc (s.placeWords x m).setTbufWord (Fin.ofNat 8 m) (packWord x m)
        = State.setTbufWord { s with tbuf := (s.placeWords x m).tbuf } (Fin.ofNat 8 m) (packWord x m) := by rw [← ih]
      _ = _ := rfl

@[simp] theorem State.placeWords_status (s : State) (x : Text) (m : Nat) : (s.placeWords x m).status = s.status :=
  (congrArg State.status (s.placeWords_frame x m)).trans rfl
@[simp] theorem State.placeWords_rst (s : State) (x : Text) (m : Nat) : (s.placeWords x m).rst = s.rst :=
  (congrArg State.rst (s.placeWords_frame x m)).trans rfl

/-- The bytes of the words placed are the text's, written, 0x00 past its end; every later byte is as it was. R57, R89. -/
theorem State.placeWords_cell (s : State) (x : Text) {m : Nat} (hm : m ≤ 8) (k : Fin 64) :
    (s.placeWords x m).cell k = if k.val < 8 * m then ⟨x.getD k.val 0#8, true⟩ else s.cell k := by
  induction m with
  | zero => rfl
  | succ m ih =>
    rw [State.placeWords, State.setTbufWord_cell, ih (by omega), show (Fin.ofNat 8 m).val = m from Nat.mod_eq_of_lt hm]
    by_cases hk : k.val / 8 = m
    · rw [if_pos hk, if_pos (by omega), ← hk, packWord_lane x (k.val / 8) ⟨k.val % 8, by omega⟩, Nat.div_add_mod]
    · rw [if_neg hk]
      exact if_congr (by omega) rfl rfl

theorem step_withHost_tbuf (hb : s.status.busy = false) (hr : s.rst = false) (k : Fin 8) (v : Word) (p : List PortEvent)
    (r : List HostRead) : step (s.withHost (wr8 (offTbuf k) v :: p) r) = .next ((s.setTbufWord k v).withHost p r) :=
  (step_withHost s _ p r).trans (State.hostWrite_offTbuf (s := s.withHost p r) hb hr k v)

theorem step_withHost_tlen (hb : s.status.busy = false) (hr : s.rst = false) (v : Word) (p : List PortEvent)
    (r : List HostRead) : step (s.withHost (wr8 offTlen v :: p) r) = .next ((s.setTlen v).withHost p r) :=
  (step_withHost s _ p r).trans (State.hostWrite_offTlen (s := s.withHost p r) hb hr v)

/-- The accesses that place words 0 .. m - 1 of a text. R89. -/
def wordWrites (x : Text) (m : Nat) : List PortEvent :=
  (List.range m).map fun k => wr8 (BitVec.ofNat 12 (0x200 + 8 * k)) (packWord x k)

theorem wordWrites_succ (x : Text) {m : Nat} (hm : m < 8) :
    wordWrites x (m + 1) = wordWrites x m ++ [wr8 (offTbuf (Fin.ofNat 8 m)) (packWord x m)] := by
  simp only [wordWrites, List.range_succ, List.map_append, List.map_cons, List.map_nil, offTbuf, Fin.ofNat, Nat.mod_eq_of_lt hm]

/-- The writes of words 0 .. m - 1 place them. R57, R62. -/
theorem core_run_wordWrites (hb : s.status.busy = false) (hr : s.rst = false) (x : Text) {m : Nat} (hm : m ≤ 8) (p : List PortEvent)
    (r : List HostRead) :
    Host.Core.run Sys2Proof.core m (s.withHost (wordWrites x m ++ p) r) = .next ((s.placeWords x m).withHost p r) := by
  induction m generalizing p with
  | zero => rfl
  | succ m ih =>
    rw [wordWrites_succ x hm, List.append_assoc]
    exact (core_run_add 1 (ih (by omega) _)).trans (core_run_succ (step_withHost_tbuf (by simpa using hb) (by simpa using hr) _ _ p r))

/-- TBUF[0 .. n - 1] is a text of n bytes when its bytes are. R33. -/
theorem State.text_eq_of_bytes {x : Text} (hx : x.length ≤ 64) (h : ∀ k : Fin 64, k.val < x.length → s.byte k = x.getD k.val 0#8) :
    s.text x.length = x := by
  apply List.ext_getElem
  · rw [State.text_length]; omega
  · intro i _ hi
    have hb := h ⟨i, by omega⟩ hi
    rw [List.getD_eq_getElem _ _ hi] at hb
    rw [← hb]
    simp [State.text, State.byte, State.cell]

/-- A run of `dtext` places the text, then sets TLEN. R89. -/
theorem core_run_dtext (hb : s.status.busy = false) (hr : s.rst = false) (hp : s.port = []) {x : Text} (hx : x.length ≤ 64) :
    Host.Core.run Sys2Proof.core (HostOp.dtext x).expand.length ({ s with port := (HostOp.dtext x).expand } : State)
      = .next ((s.placeWords x ((x.length + 7) / 8)).setTlen (BitVec.ofNat 64 x.length)) := by
  have hlen : (HostOp.dtext x).expand.length = (x.length + 7) / 8 + 1 := by simp [HostOp.expand]
  have hwords := core_run_wordWrites hb hr x (show (x.length + 7) / 8 ≤ 8 by omega) [wr8 offTlen (BitVec.ofNat 64 x.length)] s.reads
  have htlen := step_withHost_tlen (s := s.placeWords x ((x.length + 7) / 8)) (by simpa using hb) (by simpa using hr)
    (BitVec.ofNat 64 x.length) [] s.reads
  rw [hlen]
  refine (core_run_add 1 hwords).trans ((core_run_succ htlen).trans ?_)
  rw [core_run_zero, s.placeWords_frame, ← hp]
  rfl

/-! ### dli -/

/-- A run of `dli` writes the whole word, then the fraction word. R89. -/
theorem core_run_dli (hb : s.status.busy = false) (hr : s.rst = false) (hp : s.port = []) (n : DIx) (w : Int) (f : Word) :
    Host.Core.run Sys2Proof.core 2 ({ s with port := (HostOp.dli n w f).expand } : State)
      = .next ((s.setWhole n (BitVec.ofInt 64 w)).setFrac n f) := by
  have hwhole := (step_withHost s (wr8 (offWhole n) (BitVec.ofInt 64 w)) [wr8 (offFrac n) f] s.reads).trans
    (State.hostWrite_offWhole (s := s.withHost [wr8 (offFrac n) f] s.reads) hb hr n _)
  have hfrac := (step_withHost (s.setWhole n (BitVec.ofInt 64 w)) (wr8 (offFrac n) f) [] s.reads).trans
    (State.hostWrite_offFrac (s := (s.setWhole n (BitVec.ofInt 64 w)).withHost [] s.reads) hb hr n f)
  refine (core_run_succ hwhole).trans ((core_run_succ hfrac).trans ?_)
  rw [core_run_zero, ← hp]
  rfl

/-- Settles O49: the runs end in `placeWords` with TLEN set, and in the two register writes. -/
theorem hostPseudoInstructions : Obligations.HostPseudoInstructions := by
  intro s hb hr hp
  refine ⟨fun x hx => ?_, fun n w f => ⟨_, core_run_dli hb hr hp n w f, ?_, ?_, fun i hi => ?_, rfl⟩⟩
  · have hm : (x.length + 7) / 8 ≤ 8 := by omega
    have hcell := s.placeWords_cell x hm
    refine ⟨_, core_run_dtext hb hr hp hx, ?_, ?_, fun k hk => ⟨?_, fun hk' => ?_⟩, fun k hk => ?_, ?_⟩
    · simp only [State.setTlen_tlen, BitVec.toNat_setWidth, BitVec.toNat_ofNat]
      omega
    · refine State.text_eq_of_bytes hx fun k hk => ?_
      rw [State.byte, State.setTlen_cell, hcell, if_pos (by omega)]
    · rw [State.isWritten, State.setTlen_cell, hcell, if_pos hk]
    · rw [State.byte, State.setTlen_cell, hcell, if_pos hk, List.getD_eq_default _ _ hk']
    · rw [State.setTlen_cell, hcell, if_neg (by omega)]
    · rw [s.placeWords_frame]; rfl
  · simp [State.pair]
  · simp [State.writtenWith, State.isWritten, State.valueAt]
  · rw [State.setFrac_reg_other _ _ _ _ hi, State.setWhole_reg_other _ _ _ _ hi]

end Sys2Proof.Machine
end

section
/-! PROOFS. DADD and DSUB as commands (41_addsub.md R100 to R104, R110 to R113): both read their two operand pairs and complete with
`narrow` of an exact whole word. -/

namespace Sys2Proof.Machine

variable {s : State} {rd rs1 rs2 : DIx} {a b : Pair}

/-! ### The completion -/

/-- A completion with a pair writes it and records the outcome OK. R203. -/
theorem State.finishPair_some_wrotePair (s : State) (rd : DIx) (o : CmdOutcome) (v : Pair) :
    wrotePair s (s.finishPair rd o (some v)) rd v := by
  refine ⟨by simp, fun i hi => ?_, rfl, rfl, ⟨rfl, by simp [Status.completed]⟩, rfl, rfl, rfl, rfl, rfl⟩
  exact s.finishPair_reg_other o _ hi

/-- A completion with no pair writes no result. R203, R204. -/
theorem State.finishPair_none_failedWith (s : State) (rd : DIx) (o : CmdOutcome) : failedWith s (s.finishPair rd o none) o :=
  ⟨rfl, rfl, rfl, rfl, rfl, rfl, rfl, rfl, rfl, rfl⟩

/-- A command that completes with `narrow` of an exact whole word writes that word when it fits, and overflows when not. R104, R113. -/
theorem exec_narrow {i : Instr} {x : Int} {lo : Word}
    (h : exec i s = .next (s.finishPair rd .arithmeticOverflow (narrow x lo))) :
    (fits x → ∃ t v, exec i s = .next t ∧ v.w.toInt = x ∧ v.f.toNat = lo.toNat ∧ wrotePair s t rd v)
      ∧ (¬ fits x → ∃ t, exec i s = .next t ∧ failedWith s t .arithmeticOverflow) := by
  constructor
  · rintro ⟨hl, hh⟩
    have hn := narrow_of_fits (lo := lo) hl hh
    obtain ⟨hw, hf, -⟩ := narrow_some hn
    rw [hn] at h
    exact ⟨_, _, h, hw, congrArg BitVec.toNat hf, s.finishPair_some_wrotePair rd _ _⟩
  · intro hx
    rw [narrow_of_not_fits hx] at h
    exact ⟨_, h, s.finishPair_none_failedWith rd _⟩

/-! ### The operands -/

/-- A record with the operands at hand holds the source pairs. R251, log 7. -/
theorem State.record_of_sourcePairs {i : Instr} (hs : sourcePairs s rs1 rs2 a b)
    (hi : (s.capture (encode i)).a = s.pair rs1 ∧ (s.capture (encode i)).b = s.pair rs2) : (s.record i).a = a ∧ (s.record i).b = b := by
  unfold sourcePairs at hs
  split at hs
  · next f hf =>
    rw [State.record_of_inflight hf]
    exact ⟨hs.1.symm, hs.2.symm⟩
  · next hf =>
    rw [State.record_of_idle hf]
    exact ⟨hi.1.trans hs.1.symm, hi.2.trans hs.2.symm⟩

theorem exec_dadd_of_sourcePairs (hs : sourcePairs s rs1 rs2 a b) :
    exec (.dadd rd rs1 rs2) s = .next (s.finishPair rd .arithmeticOverflow (narrow (addWhole a b) (addSelect a b).1)) := by
  obtain ⟨ha, hb⟩ := State.record_of_sourcePairs (i := .dadd rd rs1 rs2) hs (by simp)
  rw [exec_dadd, ha, hb, addPair]

theorem exec_dsub_of_sourcePairs (hs : sourcePairs s rs1 rs2 a b) :
    exec (.dsub rd rs1 rs2) s = .next (s.finishPair rd .arithmeticOverflow (narrow (subWhole a b) (subSelect a b).1)) := by
  obtain ⟨ha, hb⟩ := State.record_of_sourcePairs (i := .dsub rd rs1 rs2) hs (by simp)
  rw [exec_dsub, ha, hb, subPair]

/-! ### The results -/

/-- Settles O22: DADD completes with `narrow` of its exact whole word, read as integers in the two cases of the signs. -/
theorem addResult : Obligations.AddResult := by
  intro s rd rs1 rs2 a b hs same lo wrapped c W
  have hexec := exec_narrow (exec_dadd_of_sourcePairs (rd := rd) hs)
  by_cases h : a.w.toInt < 0 ↔ b.w.toInt < 0
  · obtain ⟨hlo, -, hW⟩ := add_same h
    rw [hlo, hW] at hexec
    simpa only [W, c, wrapped, lo, same, if_pos h] using hexec
  · obtain ⟨hlo, -, hW⟩ := add_differ h
    rw [hlo, hW] at hexec
    simpa only [W, c, wrapped, lo, same, if_neg h] using hexec

/-- Settles O23: DSUB completes with `narrow` of its exact whole word, read as integers in the two cases of the signs. -/
theorem subResult : Obligations.SubResult := by
  intro s rd rs1 rs2 a b hs same lo wrapped c W
  have hexec := exec_narrow (exec_dsub_of_sourcePairs (rd := rd) hs)
  by_cases h : a.w.toInt < 0 ↔ b.w.toInt < 0
  · obtain ⟨hlo, -, hW⟩ := sub_same h
    rw [hlo, hW] at hexec
    simpa only [W, c, wrapped, lo, same, if_pos h] using hexec
  · obtain ⟨hlo, -, hW⟩ := sub_differ h
    rw [hlo, hW] at hexec
    simpa only [W, c, wrapped, lo, same, if_neg h] using hexec

end Sys2Proof.Machine
end

section
/-! PROOFS. When DADD and DSUB are exact, and when DADD commutes (41_addsub.md R106, R116), in units of 10^-19. -/

namespace Sys2Proof.Machine

open Sys2Proof.Config

variable {a b r : Pair}

/-! ### Signs -/

theorem neg_eq_neg_iff (x y : Word) : neg x = neg y ↔ (x.toInt < 0 ↔ y.toInt < 0) := by simp [neg]

theorem sgn_eq_or (x : Word) : sgn x = 1 ∨ sgn x = -1 := by
  cases h : neg x <;> simp [sgn, h]

theorem sgn_of_neg_eq {x y : Word} (h : neg x = neg y) : sgn x = sgn y := by rw [sgn, sgn, h]

theorem sgn_of_neg_ne {x y : Word} (h : neg x ≠ neg y) : sgn x = -sgn y := by
  cases hx : neg x <;> cases hy : neg y <;> simp [sgn, hx, hy] at h ⊢

theorem carry_of_neg_eq (o : Bool) {x y : Word} (h : neg x = neg y) : carry o x = carry o y := by rw [carry, carry, sgn_of_neg_eq h]

/-! ### The selected fraction operation -/

theorem addSelect_of_neg_eq (h : neg a.w = neg b.w) : addSelect a b = overflowingAdd a.f b.f := if_pos h
theorem addSelect_of_neg_ne (h : neg a.w ≠ neg b.w) : addSelect a b = overflowingSub a.f b.f := if_neg h
theorem subSelect_of_neg_eq (h : neg a.w = neg b.w) : subSelect a b = overflowingSub a.f b.f := if_pos h
theorem subSelect_of_neg_ne (h : neg a.w ≠ neg b.w) : subSelect a b = overflowingAdd a.f b.f := if_neg h

/-- A wrap takes 2^64 from the sum. R11. -/
theorem overflowingAdd_toNat (x y : Word) :
    ((overflowingAdd x y).1.toNat : Int) = x.toNat + y.toNat - if (overflowingAdd x y).2 then 2 ^ 64 else 0 := by
  have hx := x.isLt
  have hy := y.isLt
  simp only [overflowingAdd, BitVec.toNat_add, decide_eq_true_eq]
  split <;> omega

/-- A borrow gives 2^64 to the difference. R11. -/
theorem overflowingSub_toNat (x y : Word) :
    ((overflowingSub x y).1.toNat : Int) = x.toNat - y.toNat + if (overflowingSub x y).2 then 2 ^ 64 else 0 := by
  have hx := x.isLt
  have hy := y.isLt
  simp only [overflowingSub, BitVec.toNat_sub, decide_eq_true_eq]
  split <;> omega

/-! ### Exactness -/

/-- A result whose whole word carries `k` units for a wrap of `j * 2^64` in the fraction `e`: the wrap leaves an error of
`k * D + j * 2^64` units, and a change of sign turns the fraction word over. -/
theorem units_of_carry {base e k j : Int} {o : Bool} (hw : r.w.toInt = base + k * carry o a.w)
    (hf : (r.f.toNat : Int) = e + j * if o then 2 ^ 64 else 0) :
    r.units = base * decimalMax + sgn a.w * (e + (if o then k * decimalMax + j * 2 ^ 64 else 0)
      - if neg r.w = neg a.w then 0 else 2 * (r.f.toNat : Int)) := by
  have hs : sgn r.w = sgn a.w * if neg r.w = neg a.w then 1 else -1 := by
    split
    · next hn => rw [sgn_of_neg_eq hn, mul_one]
    · next hn => rw [sgn_of_neg_ne hn, mul_neg_one]
  rw [Pair.units, hw, hs, hf, carry]
  split <;> split <;> ring

/-- Without a wrap the result is exact when it keeps its sign or has nothing to turn over; with one only the turned fraction word can
make up for the error, which is not 0. -/
theorem units_eq_iff_of_carry {base e k j : Int} {o : Bool} (hw : r.w.toInt = base + k * carry o a.w)
    (hf : (r.f.toNat : Int) = e + j * if o then 2 ^ 64 else 0) (hkj : k * decimalMax + j * 2 ^ 64 ≠ 0) :
    r.units = base * decimalMax + sgn a.w * e ↔
      (o = false ∧ (neg r.w = neg a.w ∨ r.f = 0#64))
        ∨ (o = true ∧ neg r.w ≠ neg a.w ∧ 2 * e = k * decimalMax - j * 2 ^ 64) := by
  have hs : sgn a.w ≠ 0 := by rcases sgn_eq_or a.w with h | h <;> rw [h] <;> decide
  rw [units_of_carry hw hf, add_right_inj, mul_right_inj' hs, eq_zero_iff_toNat]
  generalize k * (decimalMax : Int) = kD at hkj ⊢
  by_cases hn : neg r.w = neg a.w
  · cases o with
    | false => simp [hn]
    | true => simpa [hn] using hkj
  · cases o with
    | false => simp [hn]
    | true =>
      have hturn : e + (kD + j * 2 ^ 64) - 2 * (r.f.toNat : Int) = e ↔ 2 * e = kD - j * 2 ^ 64 := by
        rw [hf, if_pos rfl]
        omega
      simpa [hn] using hturn

theorem carry_error_ne_zero {k j : Int} (hk : k = 1 ∨ k = -1) (hj : j = 1 ∨ j = -1) : k * decimalMax + j * 2 ^ 64 ≠ 0 := by
  rcases hk with rfl | rfl <;> rcases hj with rfl | rfl <;> decide

/-- A sum that wraps is too large for its error to be made up, so a result that keeps its sign without a wrap is exact exactly then. -/
theorem units_eq_iff_summed {base k : Int} (hk : k = 1 ∨ k = -1)
    (hw : r.w.toInt = base + k * carry (overflowingAdd a.f b.f).2 a.w) (hf : r.f = (overflowingAdd a.f b.f).1)
    (hkeep : (overflowingAdd a.f b.f).2 = false → neg r.w = neg a.w) :
    r.units = base * decimalMax + sgn a.w * (a.f.toNat + b.f.toNat) ↔ (overflowingAdd a.f b.f).2 = false := by
  have hlo := overflowingAdd_toNat a.f b.f
  rw [units_eq_iff_of_carry (j := -1) hw (by rw [hf, hlo]; ring) (carry_error_ne_zero hk (.inr rfl))]
  cases ho : (overflowingAdd a.f b.f).2 with
  | false => simp [hkeep ho]
  | true =>
    have hwrap : 2 ^ 64 ≤ a.f.toNat + b.f.toNat := of_decide_eq_true ho
    have hsmall : k * (decimalMax : Int) < 2 ^ 64 := by rcases hk with rfl | rfl <;> decide
    have hturn : 2 * ((a.f.toNat : Int) + b.f.toNat) ≠ k * decimalMax - -1 * 2 ^ 64 := by
      generalize k * (decimalMax : Int) = kD at hsmall ⊢
      omega
    simpa using fun _ => hturn

/-- A borrow's error is made up by a change of sign when the fraction words lie just far enough apart (log 13). -/
theorem units_eq_iff_subtracted {base k : Int} (hk : k = 1 ∨ k = -1)
    (hw : r.w.toInt = base + k * carry (overflowingSub a.f b.f).2 a.w) (hf : r.f = (overflowingSub a.f b.f).1) :
    r.units = base * decimalMax + sgn a.w * (a.f.toNat - b.f.toNat) ↔
      ((overflowingSub a.f b.f).2 = false ∧ (neg r.w = neg a.w ∨ r.f = 0#64))
        ∨ ((overflowingSub a.f b.f).2 = true ∧ neg r.w ≠ neg a.w
          ∧ 2 * ((b.f.toNat : Int) - a.f.toNat) = 2 ^ 64 - k * decimalMax) := by
  have hlo := overflowingSub_toNat a.f b.f
  have hneg : 2 * ((a.f.toNat : Int) - b.f.toNat) = k * decimalMax - 1 * 2 ^ 64
      ↔ 2 * ((b.f.toNat : Int) - a.f.toNat) = 2 ^ 64 - k * decimalMax := by
    constructor <;> intro h <;> linarith
  rw [units_eq_iff_of_carry (j := 1) hw (by rw [hf, hlo]; ring) (carry_error_ne_zero hk (.inl rfl)), hneg]

/-- DADD on matching signs. Two whole words of one sign have a sum of that sign. R106. -/
theorem add_exact_of_neg_eq (h : addPair a b = some r) (hs : neg a.w = neg b.w) :
    r.units = a.units + b.units ↔ (addSelect a b).2 = false := by
  obtain ⟨hw, hf, -⟩ := narrow_some h
  rw [addWhole, addSelect_of_neg_eq hs] at hw
  rw [addSelect_of_neg_eq hs] at hf ⊢
  have hunits : a.units + b.units = (a.w.toInt + b.w.toInt) * decimalMax + sgn a.w * (a.f.toNat + b.f.toNat) := by
    rw [Pair.units, Pair.units, sgn_of_neg_eq hs]
    ring
  rw [hunits]
  refine units_eq_iff_summed (.inl rfl) (by rw [hw, one_mul]) hf fun ho => ?_
  have hw : r.w.toInt = a.w.toInt + b.w.toInt := by simpa [ho, carry] using hw
  rw [neg_eq_neg_iff] at hs ⊢
  omega

/-- DADD on different signs. R106, log 13. -/
theorem add_exact_of_neg_ne (h : addPair a b = some r) (hs : neg a.w ≠ neg b.w) :
    r.units = a.units + b.units ↔
      ((addSelect a b).2 = false ∧ (neg r.w = neg a.w ∨ r.f = 0#64))
        ∨ ((addSelect a b).2 = true ∧ neg r.w ≠ neg a.w ∧ 2 * ((b.f.toNat : Int) - a.f.toNat) = 2 ^ 64 - decimalMax) := by
  obtain ⟨hw, hf, -⟩ := narrow_some h
  rw [addWhole, addSelect_of_neg_ne hs] at hw
  rw [addSelect_of_neg_ne hs] at hf ⊢
  have hunits : a.units + b.units = (a.w.toInt + b.w.toInt) * decimalMax + sgn a.w * (a.f.toNat - b.f.toNat) := by
    rw [Pair.units, Pair.units, sgn_of_neg_ne hs]
    ring
  rw [hunits, units_eq_iff_subtracted (.inl rfl) (by rw [hw, one_mul]) hf, one_mul]

/-- DSUB on different signs. Two whole words of different signs have a difference of the first one's sign. R116. -/
theorem sub_exact_of_neg_ne (h : subPair a b = some r) (hs : neg a.w ≠ neg b.w) :
    r.units = a.units - b.units ↔ (subSelect a b).2 = false := by
  obtain ⟨hw, hf, -⟩ := narrow_some h
  rw [subWhole, subSelect_of_neg_ne hs] at hw
  rw [subSelect_of_neg_ne hs] at hf ⊢
  have hunits : a.units - b.units = (a.w.toInt - b.w.toInt) * decimalMax + sgn a.w * (a.f.toNat + b.f.toNat) := by
    rw [Pair.units, Pair.units, sgn_of_neg_ne hs]
    ring
  rw [hunits]
  refine units_eq_iff_summed (.inr rfl) (by rw [hw]; ring) hf fun ho => ?_
  have hw : r.w.toInt = a.w.toInt - b.w.toInt := by simpa [ho, carry] using hw
  rw [ne_eq, neg_eq_neg_iff] at hs
  rw [neg_eq_neg_iff]
  omega

/-- DSUB on matching signs. R116, log 13. -/
theorem sub_exact_of_neg_eq (h : subPair a b = some r) (hs : neg a.w = neg b.w) :
    r.units = a.units - b.units ↔
      ((subSelect a b).2 = false ∧ (neg r.w = neg a.w ∨ r.f = 0#64))
        ∨ ((subSelect a b).2 = true ∧ neg r.w ≠ neg a.w ∧ 2 * ((b.f.toNat : Int) - a.f.toNat) = 2 ^ 64 + decimalMax) := by
  obtain ⟨hw, hf, -⟩ := narrow_some h
  rw [subWhole, subSelect_of_neg_eq hs] at hw
  rw [subSelect_of_neg_eq hs] at hf ⊢
  have hunits : a.units - b.units = (a.w.toInt - b.w.toInt) * decimalMax + sgn a.w * (a.f.toNat - b.f.toNat) := by
    rw [Pair.units, Pair.units, sgn_of_neg_eq hs]
    ring
  rw [hunits, units_eq_iff_subtracted (.inr rfl) (by rw [hw]; ring) hf, neg_one_mul, sub_neg_eq_add]

/-! ### Commutativity -/

theorem overflowingAdd_comm (x y : Word) : overflowingAdd x y = overflowingAdd y x := by
  rw [overflowingAdd, overflowingAdd, BitVec.add_comm, Nat.add_comm]

/-- On matching signs the fractions are added, and the carry has the sign of either whole word. R106. -/
theorem addPair_comm (h : neg a.w = neg b.w) : addPair a b = addPair b a := by
  have hsel : addSelect a b = addSelect b a := by
    rw [addSelect_of_neg_eq h, addSelect_of_neg_eq h.symm, overflowingAdd_comm]
  have hwhole : addWhole a b = addWhole b a := by
    rw [addWhole, addWhole, hsel, carry_of_neg_eq _ h, add_comm a.w.toInt]
  rw [addPair, addPair, hsel, hwhole]

/-! ### The obligations -/

/-- Settles O25: exactness in units, by the two cases of the signs; commutativity is `addPair_comm`. -/
theorem addExactnessAndCommutativity : Obligations.AddExactnessAndCommutativity := by
  refine ⟨fun a b r h => ?_, fun a b => addPair_comm⟩
  rw [Pair.value_eq_add_iff]
  by_cases hs : neg a.w = neg b.w
  · simp [add_exact_of_neg_eq h hs, hs]
  · simp [add_exact_of_neg_ne h hs, hs]

/-- Settles O27: exactness in units, by the two cases of the signs. -/
theorem subExactness : Obligations.SubExactness := by
  intro a b r h
  rw [Pair.value_eq_sub_iff]
  by_cases hs : neg a.w = neg b.w
  · simp [sub_exact_of_neg_eq h hs, hs]
  · simp [sub_exact_of_neg_ne h hs, hs]

/-- Refutes O24: (1, 0) + (-5, 4223372036854775808) = (-3, 14223372036854775808) borrows and is exact (log 13). -/
theorem not_addExactnessAsTheSpecWritesIt : ¬ Obligations.AddExactnessAsTheSpecWritesIt := by
  rintro ⟨hexact, -, -⟩
  have h := hexact (Pair.ofInts 1 0) (Pair.ofInts (-5) 4223372036854775808) (Pair.ofInts (-3) 14223372036854775808) (by decide)
  rw [Pair.value_eq_add_iff] at h
  exact absurd h (by decide)

/-- Refutes O26: (0, 0) - (0, 14223372036854775808) = (-1, 4223372036854775808) borrows and is exact (log 13). -/
theorem not_subExactnessAsTheSpecWritesIt : ¬ Obligations.SubExactnessAsTheSpecWritesIt := by
  intro hexact
  have h := hexact (Pair.ofInts 0 0) (Pair.ofInts 0 14223372036854775808) (Pair.ofInts (-1) 4223372036854775808) (by decide)
  rw [Pair.value_eq_sub_iff] at h
  exact absurd h (by decide)

end Sys2Proof.Machine
end

section
/-! PROOFS. DSUB undoes DADD and DADD undoes DSUB when the sign is kept (41_addsub.md R117). -/

namespace Sys2Proof.Machine

variable {a b r : Pair}

/-- A pair's own integers narrow to it. -/
theorem narrow_self (a : Pair) : narrow a.w.toInt a.f = some a := by
  rw [narrow_of_fits (toInt_bounds a.w).1 (toInt_bounds a.w).2, BitVec.ofInt_toInt]

/-- Subtracting what was added gives the first word back, and borrows exactly when the sum wrapped. R11. -/
theorem overflowingSub_overflowingAdd (x y : Word) :
    overflowingSub (overflowingAdd x y).1 y = (x, (overflowingAdd x y).2) := by
  have hx := x.isLt
  have hy := y.isLt
  simp only [overflowingSub, overflowingAdd, BitVec.add_sub_cancel, BitVec.toNat_add, Prod.mk.injEq, true_and]
  exact decide_eq_decide.2 (by omega)

/-- Adding what was subtracted gives the first word back, and wraps exactly when the difference borrowed. R11. -/
theorem overflowingAdd_overflowingSub (x y : Word) :
    overflowingAdd (overflowingSub x y).1 y = (x, (overflowingSub x y).2) := by
  have hx := x.isLt
  have hy := y.isLt
  simp only [overflowingSub, overflowingAdd, BitVec.sub_add_cancel, BitVec.toNat_sub, Prod.mk.injEq, true_and]
  exact decide_eq_decide.2 (by omega)

theorem subSelect_of_addSelect (hf : r.f = (addSelect a b).1) (hn : neg r.w = neg a.w) :
    subSelect r b = (a.f, (addSelect a b).2) := by
  by_cases hs : neg a.w = neg b.w
  · rw [subSelect_of_neg_eq (hn.trans hs), hf, addSelect_of_neg_eq hs, overflowingSub_overflowingAdd]
  · rw [subSelect_of_neg_ne (hn ▸ hs), hf, addSelect_of_neg_ne hs, overflowingAdd_overflowingSub]

theorem addSelect_of_subSelect (hf : r.f = (subSelect a b).1) (hn : neg r.w = neg a.w) :
    addSelect r b = (a.f, (subSelect a b).2) := by
  by_cases hs : neg a.w = neg b.w
  · rw [addSelect_of_neg_eq (hn.trans hs), hf, subSelect_of_neg_eq hs, overflowingAdd_overflowingSub]
  · rw [addSelect_of_neg_ne (hn ▸ hs), hf, subSelect_of_neg_ne hs, overflowingSub_overflowingAdd]

/-- The second operation sees the same flag and the same sign, so it takes back the same carry. R117. -/
theorem subPair_of_addPair (h : addPair a b = some r) (hn : neg r.w = neg a.w) : subPair r b = some a := by
  obtain ⟨hw, hf, -⟩ := narrow_some h
  have hsel := subSelect_of_addSelect hf hn
  have hwhole : subWhole r b = a.w.toInt := by
    rw [subWhole, hsel, carry_of_neg_eq _ hn, hw, addWhole]
    ring
  rw [subPair, hsel, hwhole, narrow_self]

theorem addPair_of_subPair (h : subPair a b = some r) (hn : neg r.w = neg a.w) : addPair r b = some a := by
  obtain ⟨hw, hf, -⟩ := narrow_some h
  have hsel := addSelect_of_subSelect hf hn
  have hwhole : addWhole r b = a.w.toInt := by
    rw [addWhole, hsel, carry_of_neg_eq _ hn, hw, subWhole]
    ring
  rw [addPair, hsel, hwhole, narrow_self]

/-- Settles O28: both inverses, and the spec's two equations outside their condition. -/
theorem additiveInverse : Obligations.AdditiveInverse :=
  ⟨fun _ _ _ => subPair_of_addPair, fun _ _ _ => addPair_of_subPair, by decide, by decide⟩

end Sys2Proof.Machine
end

section
/-! PROOFS. The decimal-scaling helper and the column form of the product (42_mul.md R140, R141). -/

namespace Sys2Proof.Machine

open Sys2Proof.Config

variable {p q : Nat}

/-! ### The helper -/

/-- The helper loses nothing. R140. -/
theorem decimalize_recompose (p : Nat) : (decimalize p).1 * decimalMax + (decimalize p).2 = p := Nat.div_add_mod' p decimalMax

theorem decimalize_remainder_lt (p : Nat) : (decimalize p).2 < decimalMax := Nat.mod_lt p (by decide)

/-- A quotient is below `q` exactly when the product is below `q` times D. R140. -/
theorem decimalize_quotient_lt_iff : (decimalize p).1 < q ↔ p < q * decimalMax := Nat.div_lt_iff_lt_mul (by decide)

/-- Settles O31: the quotient and remainder recompose the product, and the bounds on the quotient are bounds on the product. -/
theorem decimalScaling : Obligations.DecimalScaling := by
  intro p hp
  have hwide : p < 2 ^ 64 * decimalMax ↔ p ≤ 184467440737095516159999999999999999999 := by unfold decimalMax; omega
  have hmax : p < 34028236692093846347 * decimalMax := by unfold decimalMax; omega
  exact ⟨(decimalize_recompose p).symm, decimalize_remainder_lt p, decimalize_quotient_lt_iff.trans hwide,
    Nat.lt_succ_iff.1 (decimalize_quotient_lt_iff.2 hmax), by decide⟩

/-! ### The column form -/

theorem natAbs_toInt_le (w : Word) : w.toInt.natAbs ≤ 2 ^ 63 := by
  have hl := BitVec.le_toInt w
  have hh := BitVec.toInt_lt (x := w)
  omega

/-- Splitting the three partial products that reach below the whole column: the remainder of the lowest one is all that truncation
drops. R141. -/
theorem truncatedProduct_eq_columns (a b : Pair) :
    truncatedProduct a b =
      (a.w.toInt.natAbs * b.w.toInt.natAbs + (decimalize (a.w.toInt.natAbs * b.f.toNat)).1
          + (decimalize (a.f.toNat * b.w.toInt.natAbs)).1) * decimalMax
        + ((decimalize (a.f.toNat * b.f.toNat)).1 + (decimalize (a.w.toInt.natAbs * b.f.toNat)).2
          + (decimalize (a.f.toNat * b.w.toInt.natAbs)).2) := by
  have h0 := decimalize_recompose (a.f.toNat * b.f.toNat)
  have h1 := decimalize_recompose (a.w.toInt.natAbs * b.f.toNat)
  have h2 := decimalize_recompose (a.f.toNat * b.w.toInt.natAbs)
  have hr := decimalize_remainder_lt (a.f.toNat * b.f.toNat)
  generalize decimalize (a.f.toNat * b.f.toNat) = c0 at *
  generalize decimalize (a.w.toInt.natAbs * b.f.toNat) = c1 at *
  generalize decimalize (a.f.toNat * b.w.toInt.natAbs) = c2 at *
  have hproduct : a.magnitude * b.magnitude =
      c0.2 + ((a.w.toInt.natAbs * b.w.toInt.natAbs + c1.1 + c2.1) * decimalMax + (c0.1 + c1.2 + c2.2)) * decimalMax :=
    calc a.magnitude * b.magnitude
        = a.w.toInt.natAbs * b.w.toInt.natAbs * decimalMax * decimalMax
          + (a.w.toInt.natAbs * b.f.toNat + a.f.toNat * b.w.toInt.natAbs) * decimalMax + a.f.toNat * b.f.toNat := by
          unfold Pair.magnitude; ring
      _ = _ := by rw [← h0, ← h1, ← h2]; ring
  rw [truncatedProduct, hproduct, Nat.add_mul_div_right _ _ (by decide), Nat.div_eq_of_lt hr, Nat.zero_add]

/-- Settles O32: the fraction column sums to t, whose own quotient by D is the carry into the whole column; the widths follow from
those of the operands. -/
theorem columnFormIsTheExactProduct : Obligations.ColumnFormIsTheExactProduct := by
  intro a b al bl ah bh t
  have hal : al ≤ 2 ^ 64 - 1 := Nat.le_sub_one_of_lt a.f.isLt
  have hbl : bl ≤ 2 ^ 64 - 1 := Nat.le_sub_one_of_lt b.f.isLt
  have hah : ah ≤ 2 ^ 63 := natAbs_toInt_le a.w
  have hbh : bh ≤ 2 ^ 63 := natAbs_toInt_le b.w
  have hq0 : (decimalize (al * bl)).1 < 34028236692093846343 :=
    decimalize_quotient_lt_iff.2 ((Nat.mul_le_mul hal hbl).trans_lt (by decide))
  have hq1 : (decimalize (ah * bl)).1 < 2 ^ 64 := decimalize_quotient_lt_iff.2 ((Nat.mul_le_mul hah hbl).trans_lt (by decide))
  have hq2 : (decimalize (al * bh)).1 < 2 ^ 64 := decimalize_quotient_lt_iff.2 ((Nat.mul_le_mul hal hbh).trans_lt (by decide))
  have hr1 := decimalize_remainder_lt (ah * bl)
  have hr2 := decimalize_remainder_lt (al * bh)
  have hP : truncatedProduct a b = (ah * bh + (decimalize (ah * bl)).1 + (decimalize (al * bh)).1) * decimalMax + t :=
    truncatedProduct_eq_columns a b
  have hcolumn : columnForm a b = (truncatedProduct a b / decimalMax, truncatedProduct a b % decimalMax) := by
    rw [hP, Nat.mul_add_mod_self_right, Nat.add_comm _ t, Nat.add_mul_div_right _ _ (by decide), Nat.add_comm (t / _)]
    rfl
  have ht : t < 34028236692093846343 + decimalMax + decimalMax := by omega
  refine ⟨hcolumn, ?_, by omega, hq1, hq2, ht.trans (by decide), Nat.lt_succ_iff.1 (Nat.div_lt_of_lt_mul (ht.trans (by decide)))⟩
  rw [hcolumn, Nat.div_add_mod']

end Sys2Proof.Machine
end

section
/-! PROOFS. DMUL as a command (42_mul.md R130 to R136): the signed-minimum special case, and the cases of R135. -/

namespace Sys2Proof.Machine

open Sys2Proof.Config

variable {s : State} {rd rs1 rs2 : DIx} {a b m other r : Pair} {n : Bool} {W F : Nat}

/-! ### The encoding of a product -/

theorem natCast_le_iMax : (W : Int) ≤ iMax ↔ W < 2 ^ 63 := by unfold iMax; omega

/-- The fold has room for D above the fraction. R29, R135. -/
theorem fold_fits_iff : F ≤ uMax - decimalMax ↔ F + decimalMax ≤ uMax := Nat.le_sub_iff_add_le (by decide)

/-- R135 (a). -/
theorem encodeProduct_of_lt (h : W < 2 ^ 63) : encodeProduct n W F = some (Pair.ofInts (if n then -W else W) F) :=
  if_pos (natCast_le_iMax.2 h)

/-- R135 (b): one unit past IMAX. -/
theorem encodeProduct_past_iMax :
    encodeProduct false (2 ^ 63) F = if F + decimalMax ≤ uMax then some (Pair.ofInts iMax (F + decimalMax)) else none := by
  simp only [← fold_fits_iff]
  rfl

/-- R135 (c): IMIN itself. -/
theorem encodeProduct_iMin : encodeProduct true (2 ^ 63) F = some (Pair.ofInts iMin F) := rfl

/-- R135 (d): one unit past IMIN. -/
theorem encodeProduct_past_iMin :
    encodeProduct true (2 ^ 63 + 1) F = if F + decimalMax ≤ uMax then some (Pair.ofInts iMin (F + decimalMax)) else none := by
  simp only [← fold_fits_iff]
  rfl

/-- R135 (e): two or more units past IMAX. -/
theorem encodeProduct_false_of_gt (h : 2 ^ 63 < W) : encodeProduct false W F = none := by
  rw [encodeProduct, if_neg (by rw [natCast_le_iMax]; omega), if_neg (by omega), if_neg (by simp), if_neg (by simp)]

/-- R135 (e): out of reach of both folds. -/
theorem encodeProduct_of_gt (h : 2 ^ 63 + 1 < W) : encodeProduct n W F = none := by
  rw [encodeProduct, if_neg (by rw [natCast_le_iMax]; omega), if_neg (by omega), if_neg (by omega), if_neg (by omega)]

/-- What the encoding can write: cases (a) to (d) of R135. -/
theorem encodeProduct_cases (h : encodeProduct n W F = some r) :
    (W < 2 ^ 63 ∧ r = Pair.ofInts (if n then -W else W) F)
      ∨ (W = 2 ^ 63 ∧ n = false ∧ F + decimalMax ≤ uMax ∧ r = Pair.ofInts iMax (F + decimalMax))
      ∨ (W = 2 ^ 63 ∧ n = true ∧ r = Pair.ofInts iMin F)
      ∨ (W = 2 ^ 63 + 1 ∧ n = true ∧ F + decimalMax ≤ uMax ∧ r = Pair.ofInts iMin (F + decimalMax)) := by
  simp only [encodeProduct, natCast_le_iMax, fold_fits_iff] at h
  generalize (if n then -(W : Int) else W) = x at *
  split_ifs at h with ha hb hF hc hd hF <;> cases h
  · exact .inl ⟨ha, rfl⟩
  · exact .inr (.inl ⟨hb.1, hb.2, hF, rfl⟩)
  · exact .inr (.inr (.inl ⟨hc.1, hc.2, rfl⟩))
  · exact .inr (.inr (.inr ⟨hd.1, hd.2, hF, rfl⟩))

/-! ### The pair DMUL writes -/

theorem signedMinProduct_zero (m : Pair) : signedMinProduct m (Pair.ofInts 0 0) = some (Pair.ofInts 0 0) := rfl
theorem signedMinProduct_one (m : Pair) : signedMinProduct m (Pair.ofInts 1 0) = some m := rfl
theorem signedMinProduct_other (hz : other ≠ Pair.ofInts 0 0) (ho : other ≠ Pair.ofInts 1 0) : signedMinProduct m other = none :=
  (if_neg hz).trans (if_neg ho)

theorem mulPair_of_min_left (ha : a.w.toInt = iMin) : mulPair a b = signedMinProduct a b := if_pos (decide_eq_true ha)
theorem mulPair_of_min_right (ha : a.w.toInt ≠ iMin) (hb : b.w.toInt = iMin) : mulPair a b = signedMinProduct b a := by
  simp only [mulPair, Pair.isSignedMin, ha, hb, decide_true, decide_false, if_true, Bool.false_eq_true, if_false]

/-- Outside R132 the product is the encoding of its sign and magnitude. R135. -/
theorem mulPair_of_ne_min (ha : a.w.toInt ≠ iMin) (hb : b.w.toInt ≠ iMin) :
    mulPair a b = encodeProduct (productSign a b) (truncatedProduct a b / decimalMax) (truncatedProduct a b % decimalMax) := by
  simp only [mulPair, Pair.isSignedMin, ha, hb, decide_false, Bool.false_eq_true, if_false]

theorem productSign_iff (a b : Pair) : productSign a b = true ↔ ¬ (a.w.toInt < 0 ↔ b.w.toInt < 0) := by
  simp [productSign, ← neg_eq_neg_iff]

/-! ### The command -/

theorem exec_dmul_of_sourcePairs (hs : sourcePairs s rs1 rs2 a b) :
    exec (.dmul rd rs1 rs2) s = .next (s.finishPair rd .arithmeticOverflow (mulPair a b)) := by
  obtain ⟨ha, hb⟩ := State.record_of_sourcePairs (i := .dmul rd rs1 rs2) hs (by simp)
  rw [exec_dmul, ha, hb]

theorem exec_dmul_of_some (hs : sourcePairs s rs1 rs2 a b) (h : mulPair a b = some r) :
    ∃ t, exec (.dmul rd rs1 rs2) s = .next t ∧ wrotePair s t rd r :=
  ⟨_, exec_dmul_of_sourcePairs hs, h ▸ s.finishPair_some_wrotePair rd _ r⟩

theorem exec_dmul_of_none (hs : sourcePairs s rs1 rs2 a b) (h : mulPair a b = none) :
    ∃ t, exec (.dmul rd rs1 rs2) s = .next t ∧ failedWith s t .arithmeticOverflow :=
  ⟨_, exec_dmul_of_sourcePairs hs, h ▸ s.finishPair_none_failedWith rd _⟩

/-- Settles O29: DMUL completes with `mulPair` of its operands, which is the special product of R132 or the encoding of R135. -/
theorem mulResult : Obligations.MulResult := by
  intro s rd rs1 rs2 a b hs writes fails special n A B P W F
  have hwrites : ∀ {v}, mulPair a b = some v → writes v := exec_dmul_of_some hs
  have hfails : mulPair a b = none → fails := exec_dmul_of_none hs
  have hspecial {m other : Pair} (h : mulPair a b = signedMinProduct m other) : special m other :=
    ⟨fun hz => hwrites (by rw [h, hz, signedMinProduct_zero]), fun ho => hwrites (by rw [h, ho, signedMinProduct_one]),
      fun hz ho => hfails (h.trans (signedMinProduct_other hz ho))⟩
  refine ⟨fun ha => hspecial (mulPair_of_min_left ha), fun ha hb => hspecial (mulPair_of_min_right ha hb), fun ha hb => ?_⟩
  have hmul : mulPair a b = encodeProduct (decide n) W F := by
    have hsign : productSign a b = decide n := Bool.eq_iff_iff.2 ((productSign_iff a b).trans decide_eq_true_iff.symm)
    rw [mulPair_of_ne_min ha hb, hsign]
    rfl
  clear_value W F
  refine ⟨fun hW => hwrites ?_, fun hW hn hF => hwrites ?_, fun hW hn hF => hfails ?_, fun hW hn => hwrites ?_,
    fun hW hn hF => hwrites ?_, fun hW hn hF => hfails ?_, fun hW hn => hfails ?_, fun hW => hfails ?_⟩
  all_goals rw [hmul]
  · simpa only [decide_eq_true_eq] using encodeProduct_of_lt (n := decide n) (F := F) hW
  · rw [hW, decide_eq_false hn, encodeProduct_past_iMax, if_pos hF]
  · rw [hW, decide_eq_false hn, encodeProduct_past_iMax, if_neg hF.not_ge]
  · rw [hW, decide_eq_true hn, encodeProduct_iMin]
  · rw [hW, decide_eq_true hn, encodeProduct_past_iMin, if_pos hF]
  · rw [hW, decide_eq_true hn, encodeProduct_past_iMin, if_neg hF.not_ge]
  · rw [decide_eq_false hn, encodeProduct_false_of_gt (by omega)]
  · exact encodeProduct_of_gt hW

end Sys2Proof.Machine
end

section
/-! PROOFS. The laws of DMUL (42_mul.md R138). -/

namespace Sys2Proof.Machine

open Sys2Proof.Config

variable {a b r : Pair} {n : Bool} {W F : Nat}

/-! ### Commutativity and zero -/

theorem truncatedProduct_comm (a b : Pair) : truncatedProduct a b = truncatedProduct b a := by
  rw [truncatedProduct, truncatedProduct, Nat.mul_comm]

theorem productSign_comm (a b : Pair) : productSign a b = productSign b a := Bool.xor_comm _ _

/-- A pair whose whole word is IMIN is neither of the two that R132 lets pass. -/
theorem signedMinProduct_of_min {m other : Pair} (h : other.w.toInt = iMin) : signedMinProduct m other = none := by
  apply signedMinProduct_other <;> rintro rfl <;> exact absurd h (by decide)

theorem mulPair_comm (a b : Pair) : mulPair a b = mulPair b a := by
  by_cases ha : a.w.toInt = iMin <;> by_cases hb : b.w.toInt = iMin
  · rw [mulPair_of_min_left ha, mulPair_of_min_left hb, signedMinProduct_of_min ha, signedMinProduct_of_min hb]
  · rw [mulPair_of_min_left ha, mulPair_of_min_right hb ha]
  · rw [mulPair_of_min_right ha hb, mulPair_of_min_left hb]
  · rw [mulPair_of_ne_min ha hb, mulPair_of_ne_min hb ha, productSign_comm, truncatedProduct_comm]

theorem mulPair_zero (a : Pair) : mulPair a (Pair.ofInts 0 0) = some (Pair.ofInts 0 0) := by
  by_cases ha : a.w.toInt = iMin
  · rw [mulPair_of_min_left ha, signedMinProduct_zero]
  · have hP : truncatedProduct a (Pair.ofInts 0 0) = 0 := by simp [truncatedProduct, Pair.magnitude, Pair.ofInts]
    rw [mulPair_of_ne_min ha (by decide), hP]
    cases productSign a (Pair.ofInts 0 0) <;> rfl

/-! ### Identity -/

theorem Pair.carryPending_eq_not (a : Pair) : a.carryPending = !a.normalized := by
  rw [Pair.normalized, ← decide_not]
  exact decide_eq_decide.2 not_lt.symm

/-- At IMIN and IMAX a pair is normalized or a boundary encoding. R29, R31. -/
theorem Pair.normalize_eq_self (h : a.normalized = true ∨ a.w.toInt = iMin ∨ a.w.toInt = iMax) : a.normalize = a := by
  refine if_pos ?_
  rcases h with hn | hl | hh
  · simp [hn]
  · simp [Pair.boundary, Pair.carryPending_eq_not, hl]
  · simp [Pair.boundary, Pair.carryPending_eq_not, hh]

theorem Pair.normalize_of_carry (hc : a.carryPending = true) (hl : a.w.toInt ≠ iMin) (hh : a.w.toInt ≠ iMax) :
    a.normalize = Pair.ofInts (a.w.toInt + sgn a.w) (a.f.toNat - decimalMax) := by
  have hn : a.normalized = false := by simpa [Pair.carryPending_eq_not] using hc
  exact if_neg (by simp [Pair.boundary, hn, hl, hh])

theorem Pair.normalize_normalized (hc : a.carryPending = true) (hl : a.w.toInt ≠ iMin) (hh : a.w.toInt ≠ iMax) :
    a.normalize.normalized = true := by
  have hf : a.f.toNat - decimalMax < decimalMax := (Nat.sub_lt_iff_lt_add (of_decide_eq_true hc)).2 (a.f.isLt.trans (by decide))
  rw [Pair.normalize_of_carry hc hl hh, Pair.normalized, Pair.ofInts_f _ (hf.trans (by decide))]
  exact decide_eq_true hf

/-- Normalizing keeps the value. R31. -/
theorem Pair.normalize_value (a : Pair) : a.normalize.value = a.value := by
  by_cases h : a.normalized = true ∨ a.w.toInt = iMin ∨ a.w.toInt = iMax
  · rw [Pair.normalize_eq_self h]
  · obtain ⟨hn, hl, hh⟩ : _ ∧ _ ∧ _ := by simpa only [not_or] using h
    have hc : a.carryPending = true := by simpa [Pair.carryPending_eq_not] using hn
    rw [Pair.value_eq_iff, Pair.normalize_of_carry hc hl hh, Pair.units_carry hl hh hc]

theorem truncatedProduct_one (a : Pair) : truncatedProduct a (Pair.ofInts 1 0) = a.magnitude :=
  Nat.mul_div_cancel a.magnitude (show 0 < decimalMax by decide)

theorem productSign_one (a : Pair) : productSign a (Pair.ofInts 1 0) = neg a.w := Bool.xor_false _

/-- A whole word in range is encoded as it is: R135 (a) and (c). -/
theorem encodeProduct_of_inRange {x : Int} (hl : iMin ≤ x) (hh : x ≤ iMax) :
    encodeProduct (decide (x < 0)) x.natAbs F = some (Pair.ofInts x F) := by
  unfold iMin at hl
  unfold iMax at hh
  by_cases h : x.natAbs < 2 ^ 63
  · have hx : (if x < 0 then -(x.natAbs : Int) else x.natAbs) = x := by split <;> omega
    simp only [encodeProduct_of_lt h, decide_eq_true_eq, hx]
  · obtain rfl : x = iMin := by unfold iMin; omega
    rfl

theorem Pair.magnitude_of_normalized (h : a.f.toNat < decimalMax) :
    a.magnitude / decimalMax = a.w.toInt.natAbs ∧ a.magnitude % decimalMax = a.f.toNat := by
  unfold Pair.magnitude decimalMax at *
  omega

theorem Pair.magnitude_of_carry (h : decimalMax ≤ a.f.toNat) :
    a.magnitude / decimalMax = a.w.toInt.natAbs + 1 ∧ a.magnitude % decimalMax = a.f.toNat - decimalMax := by
  have hf := a.f.isLt
  unfold Pair.magnitude decimalMax at *
  omega

/-- One times a pair whose carry fits the whole word moves it there. R135 (a) and (c). -/
theorem encodeProduct_of_carry (hl : a.w.toInt ≠ iMin) (hh : a.w.toInt ≠ iMax) :
    encodeProduct (neg a.w) (a.w.toInt.natAbs + 1) F = some (Pair.ofInts (a.w.toInt + sgn a.w) F) := by
  obtain ⟨hlo, hhi⟩ := toInt_bounds a.w
  have hs : sgn a.w = if a.w.toInt < 0 then -1 else 1 := by simp [sgn, neg]
  have hnatAbs : a.w.toInt.natAbs + 1 = (a.w.toInt + sgn a.w).natAbs := by split at hs <;> omega
  have hneg : neg a.w = decide (a.w.toInt + sgn a.w < 0) := decide_eq_decide.2 (by split at hs <;> omega)
  rw [hneg, hnatAbs]
  exact encodeProduct_of_inRange (by split at hs <;> omega) (by split at hs <;> omega)

/-- At IMAX the fold takes the carry back into the fraction. R135 (b). -/
theorem encodeProduct_of_carry_iMax (hh : a.w.toInt = iMax) (hc : decimalMax ≤ a.f.toNat) :
    encodeProduct (neg a.w) (a.w.toInt.natAbs + 1) (a.f.toNat - decimalMax) = some a := by
  have hneg : neg a.w = false := decide_eq_false (by rw [hh]; decide)
  have hpast : a.w.toInt.natAbs + 1 = 2 ^ 63 := by rw [hh]; rfl
  rw [hneg, hpast, encodeProduct_past_iMax, Nat.sub_add_cancel hc, if_pos (Nat.le_of_lt_succ a.f.isLt), ← hh, Pair.ofInts_self]

/-- One times a pair is the pair, with its carry moved into the whole word where it can be. R31, R138 (iii). -/
theorem mulPair_one (a : Pair) : mulPair a (Pair.ofInts 1 0) = some a.normalize := by
  by_cases hl : a.w.toInt = iMin
  · rw [mulPair_of_min_left hl, signedMinProduct_one, Pair.normalize_eq_self (.inr (.inl hl))]
  rw [mulPair_of_ne_min hl (by decide), truncatedProduct_one, productSign_one]
  by_cases hf : a.f.toNat < decimalMax
  · obtain ⟨hW, hF⟩ := Pair.magnitude_of_normalized hf
    obtain ⟨hlo, hhi⟩ := toInt_bounds a.w
    rw [hW, hF, neg, encodeProduct_of_inRange hlo hhi, Pair.ofInts_self, Pair.normalize_eq_self (.inl (decide_eq_true hf))]
  · have hc := not_lt.1 hf
    obtain ⟨hW, hF⟩ := Pair.magnitude_of_carry hc
    rw [hW, hF]
    by_cases hh : a.w.toInt = iMax
    · rw [encodeProduct_of_carry_iMax hh hc, Pair.normalize_eq_self (.inr (.inr hh))]
    · rw [encodeProduct_of_carry hl hh, Pair.normalize_of_carry (decide_eq_true hc) hl hh]

/-! ### Sign and form of the result -/

theorem encodeProduct_neg_iff (h : encodeProduct n W F = some r) : neg r.w = true ↔ n = true ∧ 1 ≤ W := by
  rcases encodeProduct_cases h with ⟨hW, rfl⟩ | ⟨rfl, rfl, -, rfl⟩ | ⟨rfl, rfl, rfl⟩ | ⟨rfl, rfl, -, rfl⟩
  · have hw : (Pair.ofInts (if n then -(W : Int) else W) F).w.toInt = if n then -(W : Int) else W :=
      Pair.ofInts_w (by unfold iMin; split <;> omega) (by unfold iMax; split <;> omega) F
    rw [neg, hw]
    cases n with
    | false => simp
    | true => simp; omega
  · exact iff_of_false (show ¬ neg (BitVec.ofInt 64 iMax) = true by decide) (by simp)
  · exact iff_of_true rfl ⟨rfl, by decide⟩
  · exact iff_of_true rfl ⟨rfl, by decide⟩

/-- R135 (a) and (c) write the fraction as it is. -/
theorem encodeProduct_normalized (h : encodeProduct n W F = some r) (hF : F < decimalMax)
    (hW : W < 2 ^ 63 ∨ (W = 2 ^ 63 ∧ n = true)) : r.normalized = true := by
  have hf : r.f.toNat = F := by
    have hword : F < 2 ^ 64 := hF.trans (by decide)
    rcases encodeProduct_cases h with ⟨-, rfl⟩ | ⟨rfl, rfl, -⟩ | ⟨-, -, rfl⟩ | ⟨rfl, -⟩
    · exact Pair.ofInts_f _ hword
    · simp at hW
    · exact Pair.ofInts_f _ hword
    · simp at hW
  exact decide_eq_true (hf.trans_lt hF)

/-- R135 (b) and (d) write the fraction D higher, at IMAX or IMIN. -/
theorem encodeProduct_boundary (h : encodeProduct n W F = some r) (hW : (W = 2 ^ 63 ∧ n = false) ∨ W = 2 ^ 63 + 1) :
    r.boundary = true := by
  have hcarry {x : Int} (hF : F + decimalMax ≤ uMax) : (Pair.ofInts x (F + decimalMax)).carryPending = true := by
    rw [Pair.carryPending, Pair.ofInts_f x (Nat.lt_succ_of_le hF)]
    exact decide_eq_true (Nat.le_add_left _ _)
  rcases encodeProduct_cases h with ⟨hlt, -⟩ | ⟨-, -, hF, rfl⟩ | ⟨rfl, rfl, -⟩ | ⟨-, -, hF, rfl⟩
  · omega
  · rw [Pair.boundary, hcarry hF]; rfl
  · simp at hW
  · rw [Pair.boundary, hcarry hF]; rfl

/-- Settles O30: (i) to (iii) by `mulPair_comm`, `mulPair_zero` and `mulPair_one`; (iv) and (v) by the cases of the encoding. -/
theorem mulLaws : Obligations.MulLaws := by
  refine ⟨mulPair_comm, mulPair_zero, fun a => ⟨_, mulPair_one a, a.normalize_value, Pair.normalize_eq_self,
    fun hc hl hh => ⟨rfl, Pair.normalize_normalized hc hl hh⟩⟩, fun a b r ha hb h => ?_, fun a b r ha hb h => ?_⟩ <;>
    rw [mulPair_of_ne_min ha hb] at h
  · exact encodeProduct_neg_iff h
  · exact ⟨encodeProduct_normalized h (Nat.mod_lt _ (by decide)), encodeProduct_boundary h⟩

end Sys2Proof.Machine
end

section
/-! PROOFS. DPARSE (43_text.md R160 to R167): each sub-parse gives a value exactly when its part of the grammar does, so the pair of
a text is the grammar's, and the two completions follow. -/

namespace Sys2Proof.Machine

open Sys2Proof.Config

variable {s : State} {rd : DIx} {len : BitVec 8} {x y t text : Text} {v : Pair}

/-! ### The sub-parses -/

theorem digitText_eq_charsOf (ds : List (Fin 10)) : digitText ds = charsOf ds := rfl
theorem digitsValue_eq_valueOf (ds : List (Fin 10)) : digitsValue ds = valueOf ds := rfl

/-- R163's fraction parse gives the fractions of the grammar. -/
theorem parseFraction_eq_some_iff {f : Nat} : parseFraction y = some f ↔ fractionSpelling y f := by
  constructor
  · intro h
    obtain ⟨⟨hlen, hdigits⟩, hf⟩ := Option.ite_none_right_eq_some.1 h
    obtain ⟨ds, rfl⟩ := exists_charsOf hdigits
    rw [charsOf_length] at hlen hf
    exact ⟨ds, rfl, hlen, (Option.some.inj hf).symm.trans (spelled_padded ds _)⟩
  · rintro ⟨ds, rfl, hlen, rfl⟩
    have hcond : (charsOf ds).length ≤ 19 ∧ (charsOf ds).all isDigit = true :=
      ⟨by rwa [charsOf_length], all_isDigit_charsOf ds⟩
    rw [digitText_eq_charsOf, digitsValue_eq_valueOf, parseFraction, if_pos hcond, charsOf_length, spelled_padded]

/-- One or more digits, and a function of what they spell. -/
theorem parseDigits_map_eq_some_iff {g : Nat → Int} {w : Int} :
    (parseDigits x).map g = some w ↔ ∃ ds, ds ≠ [] ∧ x = digitText ds ∧ w = g (digitsValue ds) := by
  constructor
  · intro h
    obtain ⟨n, hn, rfl⟩ := Option.map_eq_some_iff.1 h
    obtain ⟨⟨hne, hdigits⟩, hn⟩ := Option.ite_none_right_eq_some.1 hn
    obtain ⟨ds, rfl⟩ := exists_charsOf hdigits
    exact ⟨ds, fun hd => hne (by rw [hd]; rfl), rfl, congrArg g ((Option.some.inj hn).symm.trans (spelled_charsOf ds))⟩
  · rintro ⟨ds, hne, rfl, rfl⟩
    have hcond : charsOf ds ≠ [] ∧ (charsOf ds).all isDigit = true :=
      ⟨fun h => hne (List.map_eq_nil_iff.1 h), all_isDigit_charsOf ds⟩
    rw [digitText_eq_charsOf, digitsValue_eq_valueOf, parseDigits, if_pos hcond, spelled_charsOf, Option.map_some]

theorem parseWhole_plus (x : Text) : parseWhole (plus :: x) = (parseDigits x).map fun (n : Nat) => (n : Int) := rfl
theorem parseWhole_minus (x : Text) : parseWhole (minus :: x) = (parseDigits x).map fun (n : Nat) => -(n : Int) := rfl
/-- A whole part that starts with no sign is digits. R164. -/
theorem parseWhole_unsigned {c : Byte} (hp : c ≠ plus) (hm : c ≠ minus) (x : Text) :
    parseWhole (c :: x) = (parseDigits (c :: x)).map fun (n : Nat) => (n : Int) := (if_neg hp).trans (if_neg hm)

/-- R164's whole parse gives the integers of the grammar. -/
theorem parseWhole_eq_some_iff {w : Int} : parseWhole x = some w ↔ wholeSpelling x w := by
  constructor
  · intro h
    cases x with
    | nil => cases h
    | cons c cs =>
      by_cases hp : c = plus
      · rw [hp, parseWhole_plus] at h
        obtain ⟨ds, hne, rfl, rfl⟩ := parseDigits_map_eq_some_iff.1 h
        exact ⟨ds, hne, .inr (.inl ⟨congrArg (· :: _) hp, rfl⟩)⟩
      by_cases hm : c = minus
      · rw [hm, parseWhole_minus] at h
        obtain ⟨ds, hne, rfl, rfl⟩ := parseDigits_map_eq_some_iff.1 h
        exact ⟨ds, hne, .inr (.inr ⟨congrArg (· :: _) hm, rfl⟩)⟩
      rw [parseWhole_unsigned hp hm] at h
      obtain ⟨ds, hne, hx, rfl⟩ := parseDigits_map_eq_some_iff.1 h
      exact ⟨ds, hne, .inl ⟨hx, rfl⟩⟩
  · rintro ⟨ds, hne, ⟨rfl, rfl⟩ | ⟨rfl, rfl⟩ | ⟨rfl, rfl⟩⟩
    · obtain ⟨d, es, rfl⟩ := List.exists_cons_of_ne_nil hne
      exact (parseWhole_unsigned (digitChar_ne_plus d) (digitChar_ne_minus d) (charsOf es)).trans
        (parseDigits_map_eq_some_iff.2 ⟨d :: es, hne, rfl, rfl⟩)
    · exact (parseWhole_plus _).trans (parseDigits_map_eq_some_iff.2 ⟨ds, hne, rfl, rfl⟩)
    · exact (parseWhole_minus _).trans (parseDigits_map_eq_some_iff.2 ⟨ds, hne, rfl, rfl⟩)

/-- R166: the two literal strings and their whole words. -/
theorem boundaryWhole_eq_some_iff {w : Int} :
    boundaryWhole x = some w ↔ (x = lowString ∧ w = iMin) ∨ (x = highString ∧ w = iMax) := by
  have hne : boundaryHigh ≠ boundaryLow := by decide
  rw [show lowString = boundaryLow by decide, show highString = boundaryHigh by decide, boundaryWhole]
  by_cases hl : x = boundaryLow
  · simp [hl, hne.symm, eq_comm]
  · by_cases hh : x = boundaryHigh <;> simp [hl, hh, hne, eq_comm]

theorem parseWhole_lowString : parseWhole lowString = some (iMin - 1) := by decide
theorem parseWhole_highString : parseWhole highString = some (iMax + 1) := by decide

theorem inRange_iff_fits {w : Int} : inRange w = true ↔ fits w := by
  unfold inRange fits iMin iMax
  rw [decide_eq_true_iff]
  omega

/-! ### The pair of a text -/

/-- The pair that DPARSE gives for the parts x and y of a text, whose sub-parses give w and f: (w, f) where w fits, else the fold at a
boundary string. R164, R166, R167. -/
def partsGive (x : Text) (w : Int) (f : Nat) (v : Pair) : Prop :=
  (inRange w = true ∧ v = Pair.ofInts w f)
    ∨ (inRange w = false ∧ ∃ b, boundaryWhole x = some b ∧ f + decimalMax ≤ uMax ∧ v = Pair.ofInts b (f + decimalMax))

/-- A text that gives a pair has one separator, and its parts give the pair. R160, R162. -/
theorem parts_of_parseText (h : parseText t = some v) :
    ∃ x y w f, t = x ++ dot :: y ∧ dot ∉ x ∧ dot ∉ y ∧ parseFraction y = some f ∧ parseWhole x = some w
      ∧ partsGive x w f v := by
  obtain ⟨hcount, h⟩ := Option.ite_none_left_eq_some.1 h
  obtain ⟨ht, hx, hy⟩ := cut_of_count (not_not.1 hcount)
  split at h
  · next f w hf hw =>
    refine ⟨_, _, w, f, ht, hx, hy, hf, hw, ?_⟩
    split at h
    · next hrange => exact .inl ⟨hrange, (Option.some.inj h).symm⟩
    · next hrange =>
      split at h
      · next b hb =>
        obtain ⟨hfold, h⟩ := Option.ite_none_left_eq_some.1 h
        exact .inr ⟨Bool.not_eq_true _ ▸ hrange, b, hb, not_lt.1 hfold, (Option.some.inj h).symm⟩
      · cases h
  · cases h

theorem parseText_of_parts {w : Int} {f : Nat} (hx : dot ∉ x) (hy : dot ∉ y) (hf : parseFraction y = some f)
    (hw : parseWhole x = some w) (h : partsGive x w f v) : parseText (x ++ dot :: y) = some v := by
  obtain ⟨hbefore, hafter⟩ := cut_of_notMem y hx
  rw [parseText, if_neg (not_not.2 (count_of_cut hx hy)), hbefore, hafter, hf, hw]
  rcases h with ⟨hrange, rfl⟩ | ⟨hrange, b, hb, hfold, rfl⟩
  · exact if_pos hrange
  · refine (if_neg (by simp [hrange])).trans ?_
    rw [hb]
    exact if_neg (not_lt.2 hfold)

/-- The pair the parts give is the grammar's: R164's integer, or R166's and R167's fold at one of the two strings. -/
theorem partsGive_iff {w : Int} {f : Nat} (hw : parseWhole x = some w) :
    partsGive x w f v ↔ (fits w ∧ v = Pair.ofInts w f)
      ∨ (x = lowString ∧ f + decimalMax ≤ uMax ∧ v = Pair.ofInts iMin (f + decimalMax))
      ∨ (x = highString ∧ f + decimalMax ≤ uMax ∧ v = Pair.ofInts iMax (f + decimalMax)) := by
  constructor
  · rintro (⟨hrange, hv⟩ | ⟨-, b, hb, hfold, hv⟩)
    · exact .inl ⟨inRange_iff_fits.1 hrange, hv⟩
    · rcases boundaryWhole_eq_some_iff.1 hb with ⟨hx, rfl⟩ | ⟨hx, rfl⟩
      · exact .inr (.inl ⟨hx, hfold, hv⟩)
      · exact .inr (.inr ⟨hx, hfold, hv⟩)
  · rintro (⟨hfits, hv⟩ | ⟨rfl, hfold, hv⟩ | ⟨rfl, hfold, hv⟩)
    · exact .inl ⟨inRange_iff_fits.2 hfits, hv⟩
    · obtain rfl := Option.some.inj (parseWhole_lowString.symm.trans hw)
      exact .inr ⟨by decide, _, boundaryWhole_eq_some_iff.2 (.inl ⟨rfl, rfl⟩), hfold, hv⟩
    · obtain rfl := Option.some.inj (parseWhole_highString.symm.trans hw)
      exact .inr ⟨by decide, _, boundaryWhole_eq_some_iff.2 (.inr ⟨rfl, rfl⟩), hfold, hv⟩

/-- The pair of a text is the grammar's. R160 to R167. -/
theorem parseText_eq_some_iff : parseText t = some v ↔ parsesTo t v := by
  constructor
  · intro h
    obtain ⟨x, y, w, f, ht, hx, hy, hf, hw, hv⟩ := parts_of_parseText h
    exact ⟨x, y, w, f, ht, hx, hy, parseFraction_eq_some_iff.1 hf, parseWhole_eq_some_iff.1 hw, (partsGive_iff hw).1 hv⟩
  · rintro ⟨x, y, w, f, rfl, hx, hy, hf, hw, hv⟩
    have hw := parseWhole_eq_some_iff.2 hw
    exact parseText_of_parts hx hy (parseFraction_eq_some_iff.2 hf) hw ((partsGive_iff hw).2 hv)

/-! ### The completion -/

/-- DPARSE completes with the pair of its recorded length and text. R160, R161, R251; log 7. -/
theorem exec_dparse_of_sourceText (hs : sourceText s len text) :
    exec (.dparse rd) s = .next (s.finishPair rd .parseError (parseRecord len text)) := by
  rw [exec_dparse]
  unfold sourceText at hs
  split at hs
  · next f hf =>
    obtain ⟨rfl, rfl⟩ := hs
    rw [State.record_of_inflight hf]
  · next hf =>
    obtain ⟨rfl, htext⟩ := hs
    rw [State.record_of_idle hf, State.capture_dparse]
    by_cases hlen : s.tlen.toNat ≤ tbufLen
    · simp only [if_pos hlen, htext hlen]
    · simp only [parseRecord, if_pos (not_le.1 hlen)]

/-- Settles O33: the text's pair is the grammar's, and the completion writes it. -/
theorem parseAccepts : Obligations.ParseAccepts := by
  intro s rd len text v hs hlen hv
  have hpair : parseRecord len text = some v := (if_neg (not_lt.2 hlen)).trans (parseText_eq_some_iff.2 hv)
  rw [exec_dparse_of_sourceText hs, hpair]
  exact ⟨_, rfl, s.finishPair_some_wrotePair rd _ v⟩

/-- Settles O34: a length above TBUF_LEN gives no pair, and neither does a text outside the grammar. -/
theorem parseRejects : Obligations.ParseRejects := by
  intro s rd len text hs h
  have hnone : parseRecord len text = none := by
    rcases h with hlen | hno
    · exact if_pos hlen
    · refine Option.eq_none_iff_forall_ne_some.2 fun v hv => ?_
      obtain ⟨-, hv⟩ := Option.ite_none_left_eq_some.1 hv
      exact hno v (parseText_eq_some_iff.1 hv)
  rw [exec_dparse_of_sourceText hs, hnone]
  exact ⟨_, rfl, s.finishPair_none_failedWith rd _⟩

end Sys2Proof.Machine
end

section
/-! PROOFS. DFMT (43_text.md R170 to R175): the whole part is `dec` of one integer, the two boundary strings included, and the fraction
part is a fraction of R163's grammar with no trailing zero. -/

namespace Sys2Proof.Machine

open Sys2Proof.Config

variable {s : State} {rs1 : DIx} {v : Pair} {x : Text}

/-! ### The whole part -/

/-- `dec` is the plain decimal spelling. R12. -/
theorem decimalSpelling_dec (n : Int) : decimalSpelling (dec n) n := by
  obtain ⟨ds, htext, hne, hhead, hvalue⟩ := decNat_spec n.natAbs
  refine ⟨ds, hne, hhead, ?_⟩
  rw [digitText_eq_charsOf, digitsValue_eq_valueOf, hvalue, dec, htext]
  split
  · next h => exact ⟨rfl, by omega⟩
  · next h => exact ⟨rfl, by omega⟩

theorem decimalSpelling_length {n : Int} (h : decimalSpelling x n) (hn : n.natAbs < 10 ^ 19) : 1 ≤ x.length ∧ x.length ≤ 20 := by
  obtain ⟨ds, hne, hhead, hx⟩ := h
  have hpos := List.length_pos_iff.2 hne
  rw [digitText_eq_charsOf, digitsValue_eq_valueOf] at hx
  have hvalue : valueOf ds = n.natAbs := by split at hx <;> omega
  have hle := length_le_of_valueOf_lt hhead (by decide) (hvalue.trans_lt hn)
  split at hx
  · rw [hx.1, List.length_cons, charsOf_length]
    omega
  · rw [hx.1, charsOf_length]
    omega

theorem dec_past_iMax : dec (iMax + 1) = boundaryHigh := by decide
theorem dec_past_iMin : dec (iMin - 1) = boundaryLow := by decide

/-- The integer DFMT renders: the whole word, one unit further from zero when the fraction holds a carry. R172. -/
def fmtInt (v : Pair) : Int := if decimalMax ≤ v.f.toNat then v.w.toInt + sgn v.w else v.w.toInt

theorem sgn_of_nonneg {w : Word} (h : 0 ≤ w.toInt) : sgn w = 1 := by simp [sgn, neg, h]
theorem sgn_of_neg {w : Word} (h : w.toInt < 0) : sgn w = -1 := by simp [sgn, neg, h]

/-- The whole part is the plain decimal in every case: the boundary strings are the decimals of IMAX + 1 and IMIN - 1. R173. -/
theorem fmtWhole_eq_dec (v : Pair) : fmtWhole v = dec (fmtInt v) := by
  unfold fmtWhole fmtInt
  by_cases hc : decimalMax ≤ v.f.toNat
  · rw [if_pos hc, if_pos hc]
    by_cases hn : 0 ≤ v.w.toInt
    · rw [if_pos hn, sgn_of_nonneg hn]
      split
      · next h => rw [h, dec_past_iMax]
      · rfl
    · rw [if_neg hn, sgn_of_neg (not_le.1 hn)]
      split
      · next h => rw [h]; exact dec_past_iMin.symm
      · rfl
  · rw [if_neg hc, if_neg hc]

theorem fmtInt_natAbs_lt (v : Pair) : (fmtInt v).natAbs < 10 ^ 19 := by
  obtain ⟨hlo, hhi⟩ := toInt_bounds v.w
  have hs := sgn_eq_or v.w
  unfold iMin at hlo
  unfold iMax at hhi
  unfold fmtInt
  split <;> omega

/-! ### The fraction part -/

/-- What R174 asks of the bytes after the separator. -/
def fractionRendering (f : Nat) (z : Text) : Prop :=
  (f = 0 ∧ z = [0x30#8]) ∨ (f ≠ 0 ∧ fractionSpelling z f ∧ z ≠ [] ∧ z.getLast? ≠ some 0x30#8)

theorem fmtFraction_lt (v : Pair) : fmtFraction v < decimalMax := by
  have hf := v.f.isLt
  unfold fmtFraction decimalMax
  split <;> omega

/-- The fraction part is '.' and the 19 digits without their trailing zeros. R174. -/
theorem fmtFractionText_spec {f : Nat} (hf : f < decimalMax) : ∃ z, fmtFractionText f = dot :: z ∧ fractionRendering f z := by
  by_cases h0 : f = 0
  · exact ⟨[zeroChar], if_pos h0, .inl ⟨h0, rfl⟩⟩
  · obtain ⟨es, k, hds, hstrip, hlast⟩ := strip0_charsOf (lowDigits f 19)
    have hlen : es.length + k = 19 := by simpa using (congrArg List.length hds).symm
    have hvalue : f = valueOf es * 10 ^ k := by
      have h := valueOf_lowDigits f 19
      rw [hds, Nat.mod_eq_of_lt (show f < 10 ^ 19 from hf)] at h
      simpa using h.symm
    refine ⟨charsOf es, ?_, .inr ⟨h0, ⟨es, rfl, by omega, ?_⟩, ?_, fun h => hlast ((getLast_charsOf es).1 h)⟩⟩
    · rw [fmtFractionText, if_neg h0, pad19_eq, hstrip]
    · rw [show 19 - es.length = k by omega]
      exact hvalue
    · intro hnil
      obtain rfl : es = [] := List.map_eq_nil_iff.1 hnil
      exact h0 (hvalue.trans (Nat.zero_mul _))

/-- In both cases of R174 the bytes are a fraction of R163's grammar. -/
theorem fractionRendering_spelling {f : Nat} (h : fractionRendering f x) : fractionSpelling x f := by
  rcases h with ⟨rfl, rfl⟩ | ⟨-, h, -⟩
  · exact ⟨[0], rfl, by decide, rfl⟩
  · exact h

theorem fractionRendering_length {f : Nat} (h : fractionRendering f x) : 1 ≤ x.length ∧ x.length ≤ 19 := by
  constructor
  · rcases h with ⟨-, rfl⟩ | ⟨-, -, hne, -⟩
    · decide
    · exact List.length_pos_iff.2 hne
  · obtain ⟨ds, rfl, hlen, -⟩ := fractionRendering_spelling h
    rwa [digitText_eq_charsOf, charsOf_length]

/-! ### The text -/

/-- The canonical text in its two parts. R170, R173, R174. -/
theorem fmtText_parts (v : Pair) : ∃ z, fmtText v = dec (fmtInt v) ++ dot :: z ∧ fractionRendering (fmtFraction v) z := by
  obtain ⟨z, htext, hz⟩ := fmtFractionText_spec (fmtFraction_lt v)
  exact ⟨z, by rw [fmtText, fmtWhole_eq_dec, htext], hz⟩

theorem rendering_fmtText (v : Pair) : rendering v (fmtText v) := by
  obtain ⟨z, htext, hz⟩ := fmtText_parts v
  have hint : fmtInt v = if decimalMax ≤ v.f.toNat then v.w.toInt + (if v.w.toInt < 0 then -1 else 1) else v.w.toInt := by
    simp only [fmtInt, sgn, neg, decide_eq_true_eq]
  exact ⟨_, z, htext, hint ▸ decimalSpelling_dec (fmtInt v), hz⟩

/-- A canonical text has 3 to 40 bytes. R174. -/
theorem fmtText_length (v : Pair) : 3 ≤ (fmtText v).length ∧ (fmtText v).length ≤ 40 := by
  obtain ⟨z, htext, hz⟩ := fmtText_parts v
  obtain ⟨hwlo, hwhi⟩ := decimalSpelling_length (decimalSpelling_dec _) (fmtInt_natAbs_lt v)
  obtain ⟨hflo, hfhi⟩ := fractionRendering_length hz
  rw [htext, List.length_append, List.length_cons]
  omega

/-! ### The completion -/

@[simp] theorem State.finishText_cell (s : State) (x : Text) (k : Fin 64) : (s.finishText x).cell k = ⟨x.getD k.val 0#8, true⟩ :=
  s.setText_cell x k

/-- TLEN counts a text of less than 256 bytes. R34. -/
theorem State.finishText_tlen_toNat (s : State) (hx : x.length < 256) : (s.finishText x).tlen.toNat = x.length := by
  rw [State.finishText_tlen, BitVec.toNat_ofNat, Nat.mod_eq_of_lt hx]

/-- DFMT's completion with a text that TLEN can count writes it. R171, R203. -/
theorem State.finishText_wroteText (s : State) (hx : x.length < 256) : wroteText s (s.finishText x) x :=
  ⟨rfl, s.finishText_cell x, s.finishText_tlen_toNat hx, ⟨rfl, by simp [Status.completed]⟩, rfl, rfl, rfl, rfl, rfl⟩

/-- DFMT completes with the text of its recorded pair. R170, R251; log 7. -/
theorem exec_dfmt_of_sourcePair (hs : sourcePair s rs1 v) : exec (.dfmt rs1) s = .next (s.finishText (fmtText v)) := by
  rw [exec_dfmt]
  unfold sourcePair at hs
  split at hs
  · next f hf => rw [State.record_of_inflight hf, hs]
  · next hf => rw [State.record_of_idle hf, State.capture_dfmt, hs]

/-- Settles O35: DFMT completes with the text of its pair, which is the canonical one. -/
theorem formatResult : Obligations.FormatResult := by
  intro s rs1 v hs
  have hlen := fmtText_length v
  exact ⟨_, _, exec_dfmt_of_sourcePair hs, s.finishText_wroteText (by omega), rendering_fmtText v, hlen⟩

end Sys2Proof.Machine
end

section
/-! PROOFS. DFMT and then DPARSE (43_text.md R176): the canonical text of a pair parses to the pair's normalized form, and both have
the one text. -/

namespace Sys2Proof.Machine

open Sys2Proof.Config

variable {s : State} {v : Pair} {x : Text}

/-! ### The canonical text is in the grammar -/

theorem wholeSpelling_of_decimalSpelling {n : Int} (h : decimalSpelling x n) : wholeSpelling x n := by
  obtain ⟨ds, hne, -, hx⟩ := h
  refine ⟨ds, hne, ?_⟩
  split at hx
  · exact .inr (.inr hx)
  · exact .inl hx

theorem dot_notMem_of_wholeSpelling {n : Int} (h : wholeSpelling x n) : dot ∉ x := by
  obtain ⟨ds, -, ⟨rfl, -⟩ | ⟨rfl, -⟩ | ⟨rfl, -⟩⟩ := h
  · exact dot_notMem_charsOf ds
  · exact List.not_mem_cons_of_ne_of_not_mem (by decide) (dot_notMem_charsOf ds)
  · exact List.not_mem_cons_of_ne_of_not_mem (by decide) (dot_notMem_charsOf ds)

theorem dot_notMem_of_fractionSpelling {f : Nat} (h : fractionSpelling x f) : dot ∉ x := by
  obtain ⟨ds, rfl, -⟩ := h
  exact dot_notMem_charsOf ds

/-! ### The normalized pair is the rendered integer and fraction -/

theorem fmtInt_of_normalized (h : v.normalized = true) : fmtInt v = v.w.toInt := if_neg (not_le.2 (of_decide_eq_true h))
theorem fmtFraction_of_normalized (h : v.normalized = true) : fmtFraction v = v.f.toNat := if_neg (not_le.2 (of_decide_eq_true h))
theorem fmtInt_of_carry (h : v.carryPending = true) : fmtInt v = v.w.toInt + sgn v.w := if_pos (of_decide_eq_true h)
theorem fmtFraction_of_carry (h : v.carryPending = true) : fmtFraction v = v.f.toNat - decimalMax := if_pos (of_decide_eq_true h)

/-- A pair is normalized, carry-pending inside the range, or one of the two boundary encodings. R28, R29. -/
theorem Pair.form_cases (v : Pair) : v.normalized = true ∨ (v.carryPending = true ∧ v.w.toInt ≠ iMin ∧ v.w.toInt ≠ iMax)
    ∨ (v.carryPending = true ∧ (v.w.toInt = iMin ∨ v.w.toInt = iMax)) := by
  rw [Pair.carryPending_eq_not]
  by_cases hn : v.normalized = true
  · exact .inl hn
  · by_cases hb : v.w.toInt = iMin ∨ v.w.toInt = iMax
    · exact .inr (.inr ⟨by simp [hn], hb⟩)
    · exact .inr (.inl ⟨by simp [hn], not_or.1 hb⟩)

/-- Where the carry fits the whole word, the rendered integer is in range. R31, R172. -/
theorem fits_fmtInt_of_carry (hc : v.carryPending = true) (hl : v.w.toInt ≠ iMin) (hh : v.w.toInt ≠ iMax) : fits (fmtInt v) := by
  obtain ⟨hlo, hhi⟩ := toInt_bounds v.w
  unfold iMin at hlo hl
  unfold iMax at hhi hh
  rw [fmtInt_of_carry hc, fits]
  rcases lt_or_ge v.w.toInt 0 with h | h
  · rw [sgn_of_neg h]
    omega
  · rw [sgn_of_nonneg h]
    omega

/-- The canonical text parses to the normalized pair: at a boundary encoding by R166's fold, elsewhere by R164's integer. R176. -/
theorem parsesTo_fmtText (v : Pair) : parsesTo (fmtText v) v.normalize := by
  obtain ⟨z, htext, hz⟩ := fmtText_parts v
  have hwhole := wholeSpelling_of_decimalSpelling (decimalSpelling_dec (fmtInt v))
  have hfrac := fractionRendering_spelling hz
  refine ⟨_, z, _, _, htext, dot_notMem_of_wholeSpelling hwhole, dot_notMem_of_fractionSpelling hfrac, hfrac, hwhole, ?_⟩
  rcases v.form_cases with hn | ⟨hc, hl, hh⟩ | ⟨hc, hb⟩
  · rw [fmtInt_of_normalized hn, fmtFraction_of_normalized hn, Pair.ofInts_self, Pair.normalize_eq_self (.inl hn)]
    exact .inl ⟨inRange_iff_fits.1 (decide_eq_true (toInt_bounds v.w)), rfl⟩
  · refine .inl ⟨fits_fmtInt_of_carry hc hl hh, ?_⟩
    rw [fmtInt_of_carry hc, fmtFraction_of_carry hc, Pair.normalize_of_carry hc hl hh]
  · have hfold : fmtFraction v + decimalMax = v.f.toNat := by
      rw [fmtFraction_of_carry hc, Nat.sub_add_cancel (of_decide_eq_true hc)]
    have hle : v.f.toNat ≤ uMax := Nat.le_of_lt_succ v.f.isLt
    rw [Pair.normalize_eq_self (.inr hb), hfold, fmtInt_of_carry hc]
    rcases hb with hb | hb
    · refine .inr (.inl ⟨?_, hle, ?_⟩)
      · rw [sgn_of_neg (by rw [hb]; decide), hb]
        exact dec_past_iMin
      · rw [← hb, Pair.ofInts_self]
    · refine .inr (.inr ⟨?_, hle, ?_⟩)
      · rw [sgn_of_nonneg (by rw [hb]; decide), hb]
        exact dec_past_iMax
      · rw [← hb, Pair.ofInts_self]

/-- Where the carry fits the whole word, the normalized pair is the rendered integer and fraction. R31, R172. -/
theorem Pair.normalize_words (hc : v.carryPending = true) (hl : v.w.toInt ≠ iMin) (hh : v.w.toInt ≠ iMax) :
    v.normalize.w.toInt = fmtInt v ∧ v.normalize.f.toNat = fmtFraction v := by
  obtain ⟨hlo, hhi⟩ : iMin ≤ fmtInt v ∧ fmtInt v ≤ iMax :=
    of_decide_eq_true (inRange_iff_fits.2 (fits_fmtInt_of_carry hc hl hh))
  rw [Pair.normalize_of_carry hc hl hh, ← fmtInt_of_carry hc, ← fmtFraction_of_carry hc]
  exact ⟨Pair.ofInts_w hlo hhi _, Pair.ofInts_f _ ((fmtFraction_lt v).trans (by decide))⟩

/-- A pair and its normalized pair have the same canonical text. R176. -/
theorem fmtText_normalize (v : Pair) : fmtText v.normalize = fmtText v := by
  rcases v.form_cases with hn | ⟨hc, hl, hh⟩ | ⟨-, hb⟩
  · rw [Pair.normalize_eq_self (.inl hn)]
  · have hnorm := Pair.normalize_normalized hc hl hh
    obtain ⟨hw, hf⟩ := Pair.normalize_words hc hl hh
    rw [fmtText, fmtText, fmtWhole_eq_dec, fmtWhole_eq_dec, fmtInt_of_normalized hnorm, fmtFraction_of_normalized hnorm, hw, hf]
  · rw [Pair.normalize_eq_self (.inr hb)]

/-! ### The two commands -/

/-- After DFMT's completion TBUF[0 .. TLEN - 1] is the text. R171. -/
theorem State.finishText_text (s : State) (hx : x.length ≤ 64) : (s.finishText x).text (s.finishText x).tlen.toNat = x := by
  rw [s.finishText_tlen_toNat (by omega)]
  exact State.text_eq_of_bytes hx fun k _ => congrArg Held.val (s.finishText_cell x k)

/-- DPARSE after DFMT's completion reads the text DFMT wrote. R160, log 7. -/
theorem State.finishText_sourceText (s : State) (hx : x.length ≤ 64) : sourceText (s.finishText x) (s.finishText x).tlen x :=
  ⟨rfl, fun _ => (s.finishText_text hx).symm⟩

/-- Settles O36: DPARSE of the canonical text writes the normalized pair, which has the value and the text of the pair itself. -/
theorem formatThenParseRoundTrip : Obligations.FormatThenParseRoundTrip := by
  intro s rs1 rd hidle
  have hlen : (fmtText (s.pair rs1)).length ≤ 64 := (fmtText_length _).2.trans (by decide)
  have hformat : exec (.dfmt rs1) s = .next (s.finishText (fmtText (s.pair rs1))) :=
    exec_dfmt_of_sourcePair (by rw [sourcePair, hidle])
  have htlen := (s.finishText_tlen_toNat (x := fmtText (s.pair rs1)) (by omega)).trans_le hlen
  obtain ⟨u, hparse, hreg, -, -, -, ⟨-, hstatus⟩, -⟩ :=
    parseAccepts _ rd _ _ _ (s.finishText_sourceText hlen) htlen (parsesTo_fmtText (s.pair rs1))
  have hpair : u.pair rd = (s.pair rs1).normalize := by rw [State.pair, hreg]
  refine ⟨_, u, hformat, s.finishText_text hlen, hparse, by rw [hstatus], ?_⟩
  rw [hpair]
  exact ⟨Pair.normalize_value _, fmtText_normalize _, Pair.normalize_eq_self,
    fun hc hl hh => ⟨rfl, Pair.normalize_normalized hc hl hh⟩⟩

end Sys2Proof.Machine
end

section
/-! PROOFS. Outcomes, sticky bits and the interrupt line (60_exceptions.md R200 to R210): which outcome a completion ends in, what an
erroneous one leaves, which events keep the sticky bits, and what moves IRQ. -/

namespace Sys2Proof.Machine

variable {s t : State}

/-! ### The interrupt line -/

theorem State.irq_iff (s : State) : s.irq = true ↔ s.ie = true ∧ s.status.done = true := Bool.and_eq_true_iff

/-- IRQ depends on IE and DONE alone. R210. -/
theorem State.irq_congr (hie : t.ie = s.ie) (hd : t.status.done = s.status.done) : t.irq = s.irq := by
  rw [State.irq, State.irq, hie, hd]

/-- A completion leaves DONE set, so IRQ is IE. R203, R210. -/
theorem State.recordOutcome_irq (s : State) (o : CmdOutcome) : (s.recordOutcome o).irq = s.ie := Bool.and_true _

/-- A STATUS write with bit 4 set clears DONE. R39, R210. -/
theorem State.clearStatus_irq (s : State) {v : Word} (h : v.getLsbD 4 = true) : (s.clearStatus v).irq = false := by
  have hd : (s.clearStatus v).status.done = false := by simp [h]
  rw [State.irq, hd, Bool.and_false]

/-- A CTRL write with bit 0 clear masks DONE. R41, R210. -/
theorem State.setCtrl_irq (s : State) {v : Word} (h : v.getLsbD 0 = false) : (s.setCtrl v).irq = false := by
  rw [State.irq, State.setCtrl_ie, h, Bool.false_and]

/-- Settles O14: IRQ is IE and DONE, and each operation's effect on it is its effect on those two bits. -/
theorem interruptLine : Obligations.InterruptLine :=
  fun s => ⟨s.irq_iff, s.recordOutcome_irq, fun _ => s.clearStatus_irq, fun _ => s.setCtrl_irq, State.irq_congr rfl rfl, rfl⟩

/-! ### The outcome of a completion -/

/-- A completion with a pair or an error ends in OK or in that error. R201. -/
theorem State.finishPair_err (s : State) (rd : DIx) (o : CmdOutcome) (r : Option Pair) :
    (s.finishPair rd o r).status.err = .ok ∨ (s.finishPair rd o r).status.err = o := by
  cases r with
  | some v => exact .inl rfl
  | none => exact .inr rfl

theorem State.err_of_finishPair {rd : DIx} {o : CmdOutcome} {r : Option Pair}
    (h : Host.Outcome.next (s.finishPair rd o r) = (.next t : Host.Outcome State Fault Refusal)) :
    t.status.err = .ok ∨ t.status.err = o := by
  cases h
  exact s.finishPair_err rd o r

/-- Settles O39: every command completes by `exec_next` and leaves STATUS as `exec_fields` says; its outcome is one of the two that
the operation it ends in can record. -/
theorem everyCommandCompletesWithItsOutcome : Obligations.EveryCommandCompletesWithItsOutcome := by
  intro s
  refine ⟨fun i => ?_, ?_, fun rd t h => ?_, fun rs1 t h => ?_, fun f e he => ?_⟩
  · obtain ⟨t, ht⟩ := exec_next i s
    obtain ⟨-, -, -, -, -, hf, hst⟩ := exec_fields ht
    exact ⟨t, ht, by rw [hst, Status.completed_done], by rw [hst, Status.completed_busy], hf, hst⟩
  · rintro rd rs1 rs2 _ t (rfl | rfl | rfl) h
    · exact State.err_of_finishPair ((exec_dadd rd rs1 rs2).symm.trans h)
    · exact State.err_of_finishPair ((exec_dsub rd rs1 rs2).symm.trans h)
    · exact State.err_of_finishPair ((exec_dmul rd rs1 rs2).symm.trans h)
  · exact State.err_of_finishPair ((exec_dparse rd).symm.trans h)
  · rw [exec_dfmt] at h
    cases h
    rfl
  · exact ⟨_, State.complete_illegal he, s.finishIllegal_failedWith⟩

/-! ### Erroneous completions -/

/-- A completion with an outcome other than OK only records that outcome. R204. -/
theorem State.complete_eq_recordOutcome {f : InFlight} (h : s.complete f = .next t) (herr : t.status.err ≠ .ok) :
    ∃ o, t = s.recordOutcome o := by
  rcases State.complete_cases h with ⟨i, -, h⟩ | ⟨-, rfl⟩
  · rcases exec_cases h with ⟨rd, v, rfl⟩ | ⟨o, -, rfl⟩ | ⟨x, rfl⟩
    · exact absurd rfl herr
    · exact ⟨o, rfl⟩
    · exact absurd rfl herr
  · exact ⟨.illegalCommand, rfl⟩

/-- Settles O40: recording an outcome writes STATUS and consumes the record. -/
theorem errorsArePrecise : Obligations.ErrorsArePrecise := by
  intro s t f h herr
  obtain ⟨o, rfl⟩ := State.complete_eq_recordOutcome h herr
  rfl

/-! ### The sticky bits -/

/-- Every bit of PERR, OVF, ILL, DROP and DONE that is set in `a` is set in `b`. R207. -/
def Status.StickyKept (a b : Status) : Prop :=
  (a.perr = true → b.perr = true) ∧ (a.ovf = true → b.ovf = true) ∧ (a.ill = true → b.ill = true) ∧ (a.drop = true → b.drop = true)
    ∧ (a.done = true → b.done = true)

theorem Status.StickyKept.refl (a : Status) : a.StickyKept a := ⟨id, id, id, id, id⟩

/-- A dropped write sets DROP. R208. -/
theorem Status.stickyKept_dropped (a : Status) : a.StickyKept a.dropped := ⟨id, id, id, fun _ => rfl, id⟩

/-- A completion joins its outcome's bit to the sticky bits and sets DONE. R203. -/
theorem Status.stickyKept_completed (a : Status) (o : CmdOutcome) : a.StickyKept (a.completed o) :=
  ⟨fun h => by simp [h], fun h => by simp [h], fun h => by simp [h], id, fun _ => rfl⟩

/-- A write to a window register other than STATUS leaves the sticky bits, or is dropped. R39, R207. -/
theorem State.writeWindow_stickyKept (s : State) {r : WindowReg} (hr : r ≠ .status) (v : Word) :
    s.status.StickyKept (s.writeWindow r v).status := by
  rcases State.writeWindow_cases (rfl : s.writeWindow r v = _) with ⟨h, -⟩ | ⟨-, h⟩ | ⟨-, h⟩ | ⟨-, -, h⟩ | ⟨-, -, h⟩ | ⟨-, -, h⟩ |
    ⟨n, -, -, h⟩ | ⟨n, -, -, h⟩ | ⟨k, -, -, h⟩
  · exact absurd h hr
  all_goals rw [h]
  pick_goal 3
  · exact s.status.stickyKept_dropped
  all_goals exact .refl _

/-- The unit's step leaves STATUS or completes a command. R203. -/
theorem State.unitStep_stickyKept (h : s.unitStep = .next t) : s.status.StickyKept t.status := by
  rcases State.unitStep_cases h with rfl | ⟨-, -, f, -, hc⟩
  · exact .refl _
  · obtain ⟨-, -, -, -, -, -, hst⟩ := State.complete_fields hc
    rw [hst]
    exact s.status.stickyKept_completed _

/-- Settles O43: a write other than of STATUS and the unit's step keep the sticky bits; a read and the release of RST leave STATUS. -/
theorem stickyBitsAccumulate : Obligations.StickyBitsAccumulate := by
  intro s t e he hrst hwrite
  change s.status.StickyKept t.status
  cases e with
  | read off width =>
    obtain ⟨-, x, u, rfl⟩ := State.hostRead_fields he
    exact .refl _
  | write off width v =>
    obtain ⟨-, ⟨-, rfl⟩ | ⟨-, rfl⟩⟩ := State.hostWrite_cases he
    · exact .refl _
    · exact s.writeWindow_stickyKept (hwrite off width v rfl) v
  | completion => exact State.unitStep_stickyKept he
  | rst asserted =>
    cases asserted with
    | false => cases he; exact .refl _
    | true => exact absurd rfl hrst

end Sys2Proof.Machine
end

section
/-! PROOFS. The host that waits for each completion, and the end of a run (70_reset_and_hazards.md R253, R254, R259, R260): what one event
leaves of the host's duty, of DROP and of the port, and the runs by induction on their steps. -/

namespace Sys2Proof.Machine

variable {s t : State}

/-! ### One event -/

/-- A port that may follow a pending command may follow none. R254. -/
theorem waits_mono {es : List PortEvent} (p : Bool) (h : waits p es = true) : waits false es = true := by
  induction es generalizing p with
  | nil => rfl
  | cons e es ih =>
    cases e with
    | read off width => exact ih p h
    | write off width v =>
      simp only [waits] at h ⊢
      split at h
      · next hg => rw [if_pos hg]; exact (Bool.and_eq_true_iff.1 h).2
      · next hg => rw [if_neg hg]; exact ih p h
    | completion => exact h
    | rst asserted => exact ih (p && !asserted) h

/-- Before a guarded write no command is pending, and after it one is exactly if the write is of CMD. R254. -/
theorem waits_write_guarded {p : Bool} {off : Offset} {width : Nat} {v : Word} {es : List PortEvent}
    (h : waits p (.write off width v :: es) = true) (ha : accessOk off width = true) (hg : (windowReg off).guarded = true) :
    p = false ∧ waits (windowReg off == .cmd) es = true := by
  simpa [waits, ha, hg] using h

/-- Any other write leaves the duty as it is. R254. -/
theorem waits_write_unguarded {p : Bool} {off : Offset} {width : Nat} {v : Word} {es : List PortEvent}
    (h : waits p (.write off width v :: es) = true) (hg : (windowReg off).guarded = false) : waits p es = true := by
  simpa [waits, hg] using h

/-- A guarded write to a unit with nothing in flight keeps DROP, and BUSY is set after it exactly if it is of CMD. R251, R253. -/
theorem State.writeWindow_guarded_idle (hb : s.status.busy = false) {r : WindowReg} (hg : r.guarded = true) (v : Word) :
    (s.writeWindow r v).status.busy = (r == .cmd) ∧ (s.writeWindow r v).status.drop = s.status.drop := by
  cases r with
  | status | ctrl | reserved => cases hg
  | _ => simp [State.writeWindow, hb]

/-- A write of STATUS, CTRL or a reserved offset keeps BUSY and does not set DROP. R39, R253. -/
theorem State.writeWindow_unguarded {r : WindowReg} (hg : r.guarded = false) (v : Word) :
    (s.writeWindow r v).status.busy = s.status.busy ∧ ((s.writeWindow r v).status.drop = true → s.status.drop = true) := by
  cases r with
  | status => simp +contextual [State.writeWindow]
  | ctrl | reserved => exact ⟨rfl, id⟩
  | _ => cases hg

/-- The unit's step does not touch DROP. R203. -/
theorem State.unitStep_drop (h : s.unitStep = .next t) : t.status.drop = s.status.drop := by
  rcases State.unitStep_cases h with rfl | ⟨-, -, f, -, hc⟩
  · rfl
  · obtain ⟨-, -, -, -, -, -, hst⟩ := State.complete_fields hc
    rw [hst, Status.completed_drop]

/-- An event of a port that follows R254 leaves a rest that follows it, and does not set DROP. R253, R254. -/
theorem State.Inv.onEvent_waits (h : s.Inv) {e : PortEvent} {es : List PortEvent} (hw : waits s.status.busy (e :: es) = true)
    (he : s.onEvent e = .next t) : waits t.status.busy es = true ∧ (t.status.drop = true → s.status.drop = true) := by
  cases e with
  | read off width =>
    obtain ⟨-, x, u, rfl⟩ := State.hostRead_fields he
    exact ⟨hw, id⟩
  | write off width v =>
    obtain ⟨ha, hc⟩ := State.hostWrite_cases he
    cases hg : (windowReg off).guarded with
    | true =>
      obtain ⟨hb, hes⟩ := waits_write_guarded hw ha hg
      rcases hc with ⟨-, rfl⟩ | ⟨-, rfl⟩
      · exact ⟨hb ▸ waits_mono _ hes, id⟩
      · obtain ⟨hb', hd⟩ := State.writeWindow_guarded_idle hb hg v
        exact ⟨hb' ▸ hes, fun h => hd ▸ h⟩
    | false =>
      have hes := waits_write_unguarded hw hg
      rcases hc with ⟨-, rfl⟩ | ⟨-, rfl⟩
      · exact ⟨hes, id⟩
      · obtain ⟨hb', hd⟩ := State.writeWindow_unguarded (s := s) hg v
        exact ⟨hb' ▸ hes, hd⟩
  | completion => exact ⟨h.not_busy_of_unitStep he ▸ hw, fun hd => State.unitStep_drop he ▸ hd⟩
  | rst asserted =>
    cases he
    cases asserted with
    | true => exact ⟨waits_mono _ hw, fun hd => nomatch hd⟩
    | false => exact ⟨Bool.and_true s.status.busy ▸ hw, id⟩

/-- Settles O56: the step is the unit's own, with no port to speak of, or the first event of the port by `State.Inv.onEvent_waits`. -/
theorem stepKeepsAWaitingHost : Obligations.StepKeepsAWaitingHost := by
  intro s t h hw hs
  refine ⟨stepKeepsTheInvariant s t h hs, ?_⟩
  rcases step_cases s with ⟨hp, e⟩ | ⟨ev, rest, hp, e⟩
  · have hu : s.unitStep = .next t := e ▸ hs
    have hpt : t.port = [] := (State.onEvent_port (e := .completion) hu).trans hp
    exact ⟨by rw [hpt]; rfl, fun hd => State.unitStep_drop hu ▸ hd⟩
  · have he : ({ s with port := rest } : State).onEvent ev = .next t := e ▸ hs
    have hpt : t.port = rest := State.onEvent_port he
    have hi : ({ s with port := rest } : State).Inv := h.of_unit rfl
    rw [hp] at hw
    exact hpt.symm ▸ hi.onEvent_waits hw he

/-! ### Runs -/

/-- Settles O52: by induction on the steps of the run, each by `stepKeepsAWaitingHost`. -/
theorem waitingHostLosesNoWrite : Obligations.WaitingHostLosesNoWrite := by
  intro k
  induction k with
  | zero => intro s t _ _ hr; cases hr; exact id
  | succ k ih =>
    intro s t h hw hr
    obtain ⟨u, hu, hr⟩ := core_run_succ_cases hr
    obtain ⟨hi, hw', hd⟩ := stepKeepsAWaitingHost s u h hw hu
    exact fun ht => hd (ih u t hi hw' hr ht)

/-- A run with well-formed accesses comes, one step after the port's last event, to an empty port and no command in flight. R259. -/
theorem State.Inv.run_to_end {es : List PortEvent} (h : s.Inv) (hp : s.port = es) (ha : accessesOk es = true) :
    ∃ t, Host.Core.run Sys2Proof.core (es.length + 1) s = .next t ∧ t.port = [] ∧ t.status.busy = false := by
  induction es generalizing s with
  | nil =>
    obtain ⟨t, ht⟩ := s.unitStep_next
    exact ⟨t, core_run_succ ((step_of_port_nil hp).trans ht), (State.onEvent_port (e := .completion) ht).trans hp,
      h.not_busy_of_unitStep ht⟩
  | cons e es ih =>
    obtain ⟨hae, ha⟩ : accessesOk [e] = true ∧ accessesOk es = true := by simpa [accessesOk] using ha
    have hi : ({ s with port := es } : State).Inv := h.of_unit rfl
    obtain ⟨u, hu⟩ := State.onEvent_next (s := { s with port := es }) hae
    obtain ⟨t, ht, hend⟩ := ih (hi.onEvent hu) (State.onEvent_port hu) ha
    exact ⟨t, (core_run_succ ((step_of_port_cons hp).trans hu)).trans ht, hend⟩

/-- Settles O53: `State.Inv.run_to_end`, and R260's end of a run is that state when nothing is recorded. -/
theorem everyRunComesToItsEnd : Obligations.EveryRunComesToItsEnd := by
  intro s h ha
  obtain ⟨t, ht, hp, hb⟩ := h.run_to_end rfl ha
  exact ⟨t, ht, hp, hb, fun hu => ⟨hp, hb, hu⟩⟩

end Sys2Proof.Machine
end

section
/-! PROOFS. Uses of storage not written since reset (70_reset_and_hazards.md R243): which storage a use reads, what it records, and the
runs that have recorded none. -/

namespace Sys2Proof.Machine

variable {s t : State}

/-! ### The storage of a use -/

@[simp] theorem State.operandLocs_dadd (rd rs1 rs2 : DIx) : s.operandLocs (encode (.dadd rd rs1 rs2)) = pairLocs rs1 ++ pairLocs rs2 := by
  simp [State.operandLocs]
@[simp] theorem State.operandLocs_dsub (rd rs1 rs2 : DIx) : s.operandLocs (encode (.dsub rd rs1 rs2)) = pairLocs rs1 ++ pairLocs rs2 := by
  simp [State.operandLocs]
@[simp] theorem State.operandLocs_dmul (rd rs1 rs2 : DIx) : s.operandLocs (encode (.dmul rd rs1 rs2)) = pairLocs rs1 ++ pairLocs rs2 := by
  simp [State.operandLocs]
@[simp] theorem State.operandLocs_dparse (rd : DIx) : s.operandLocs (encode (.dparse rd)) =
    if s.tlen.toNat ≤ Config.tbufLen then ((List.finRange 64).take s.tlen.toNat).map Loc.byte else [] := by simp [State.operandLocs]
@[simp] theorem State.operandLocs_dfmt (rs1 : DIx) : s.operandLocs (encode (.dfmt rs1)) = pairLocs rs1 := by simp [State.operandLocs]

/-- An illegal word reads no operand. R202. -/
theorem State.operandLocs_illegal {c : Word} {e : DecodeError} (h : decode c = .error e) : s.operandLocs c = [] := by
  simp [State.operandLocs, h]

theorem mem_pairLocs (l : Loc) (i : DIx) : l ∈ pairLocs i ↔ l = .whole i ∨ l = .frac i := by simp [pairLocs]

/-- The storage of two register operands. R82, R243. -/
theorem mem_pairLocs_append (l : Loc) (i j : DIx) :
    l ∈ pairLocs i ++ pairLocs j ↔ l = .whole i ∨ l = .frac i ∨ l = .whole j ∨ l = .frac j := by
  rw [List.mem_append, mem_pairLocs, mem_pairLocs, or_assoc]

/-- The first `n` indexes are those below `n`. -/
theorem mem_take_finRange (k : Fin 64) (n : Nat) : k ∈ (List.finRange 64).take n ↔ k.val < n := by
  rw [List.mem_take_iff_getElem]
  constructor
  · rintro ⟨i, hi, rfl⟩
    simpa using (lt_min_iff.1 hi).1
  · exact fun h => ⟨k.val, by simp [h], by simp⟩

/-- The bytes of DPARSE's text. R160, R161. -/
theorem State.mem_operandLocs_dparse (l : Loc) (rd : DIx) :
    l ∈ s.operandLocs (encode (.dparse rd)) ↔ s.tlen.toNat ≤ 64 ∧ ∃ k : Fin 64, k.val < s.tlen.toNat ∧ l = .byte k := by
  rw [State.operandLocs_dparse]
  split
  · next h => simp only [List.mem_map, mem_take_finRange, h, true_and, eq_comm]
  · next h => simp [h]

/-- The eight bytes of TBUFk. R57. -/
theorem mem_locs_tbuf (l : Loc) (k : Fin 8) : l ∈ (WindowReg.tbuf k).locs ↔ ∃ m : Fin 64, m.val / 8 = k.val ∧ l = .byte m := by
  simp only [WindowReg.locs, List.mem_map, List.mem_finRange, true_and]
  constructor
  · rintro ⟨j, rfl⟩
    exact ⟨_, tbufIx_div k j, rfl⟩
  · rintro ⟨m, hm, rfl⟩
    obtain ⟨k', j, rfl⟩ := exists_tbufIx m
    obtain rfl : k' = k := Fin.ext ((tbufIx_div k' j).symm.trans hm)
    exact ⟨j, rfl⟩

/-- Settles O17: the storage of each command, then of each register of the window. -/
theorem operandStorage : Obligations.OperandStorage := by
  intro s l rd rs1 rs2 c
  refine ⟨?_, by rw [State.operandLocs_dfmt, mem_pairLocs], State.mem_operandLocs_dparse l rd, fun ⟨e, he⟩ => State.operandLocs_illegal he,
    fun n => ⟨rfl, rfl⟩, mem_locs_tbuf l, fun r hw hf hb => ?_⟩
  · rintro (rfl | rfl | rfl)
    · rw [State.operandLocs_dadd, mem_pairLocs_append]
    · rw [State.operandLocs_dsub, mem_pairLocs_append]
    · rw [State.operandLocs_dmul, mem_pairLocs_append]
  · cases r with
    | whole n => exact absurd rfl (hw n)
    | frac n => exact absurd rfl (hf n)
    | tbuf k => exact absurd rfl (hb k)
    | cmd | status | ctrl | tlen | reserved => rfl

/-! ### What a use records -/

/-- A use in a run that has recorded none records nothing if all of its storage is written, and otherwise a location of it that is
not. R243. -/
theorem State.records_of_noteUse {locs : List Loc} (hs : s.unwrittenUse = none) (ht : t.unwrittenUse = (s.noteUse locs).unwrittenUse) :
    (t.unwrittenUse = none ↔ ∀ l ∈ locs, s.isWritten l = true)
      ∧ ∀ l, t.unwrittenUse = some l → l ∈ locs ∧ s.isWritten l = false := by
  rw [ht, s.noteUse_fresh locs hs]
  exact ⟨State.firstUnwritten_none, fun _ => State.firstUnwritten_some⟩

/-- Only a well-formed read, or a well-formed CMD write with nothing in flight, changes what the run has recorded. R243. -/
theorem State.onEvent_records {e : PortEvent} (h : s.onEvent e = .next t) (hne : t.unwrittenUse ≠ s.unwrittenUse) :
    (∃ off, e = .read off 8) ∨ ∃ off v, e = .write off 8 v ∧ windowReg off = .cmd ∧ s.status.busy = false := by
  rcases State.onEvent_unwrittenUse h with he | ⟨off, width, rfl, -, -⟩ | ⟨off, width, v, rfl, hc, hb, -⟩
  · exact absurd he hne
  · obtain ⟨rfl, -⟩ := (accessOk_iff off width).1 (State.hostRead_cases h).1
    exact .inl ⟨off, rfl⟩
  · obtain ⟨rfl, -⟩ := (accessOk_iff off width).1 (State.hostWrite_cases h).1
    exact .inr ⟨off, v, rfl, hc, hb⟩

/-- Settles O16: an issue and a read note their storage, by `State.records_of_noteUse`; any event by `State.onEvent_recorded` and
`State.onEvent_records`. -/
theorem unwrittenUseIsRecorded : Obligations.UnwrittenUseIsRecorded := by
  refine fun s => ⟨fun hr hu => ⟨fun c hb => ?_, fun off h8 => ?_⟩,
    fun e t he => ⟨fun l hl => State.onEvent_recorded he hl, State.onEvent_records he⟩⟩
  · exact ⟨_, State.hostWrite_offCmd hb hr c, State.records_of_noteUse hu (State.issue_unwrittenUse c)⟩
  · exact ⟨_, State.hostRead_ok (accessOk_of_aligned h8) hr, State.records_of_noteUse hu rfl⟩

/-! ### Runs that stop at such a use -/

/-- A step takes nothing from what the run has recorded. R243. -/
theorem step_keeps_none_recorded (h : step s = .next t) (ht : t.unwrittenUse = none) : s.unwrittenUse = none := by
  cases hs : s.unwrittenUse with
  | none => rfl
  | some l =>
    have hl : t.unwrittenUse = some l := by
      rcases step_cases s with ⟨-, e⟩ | ⟨ev, rest, -, e⟩
      · exact State.onEvent_recorded (e := .completion) (e.symm.trans h) hs
      · exact State.onEvent_recorded (s := { s with port := rest }) (e.symm.trans h) hs
    exact nomatch ht.symm.trans hl

/-- A strict run passes only through states that have recorded nothing. R243. -/
theorem unwrittenUse_of_strictRun {k : Nat} (h : strictRun k s = some t) : s.unwrittenUse = none := by
  by_contra hs
  cases k <;> simp [strictRun, hs] at h

theorem strictRun_zero_iff : strictRun 0 s = some t ↔ s = t ∧ s.unwrittenUse = none := by
  simp [strictRun, and_comm]

/-- One step of a strict run. R243. -/
theorem strictRun_succ_iff {k : Nat} :
    strictRun (k + 1) s = some t ↔ s.unwrittenUse = none ∧ ∃ u, step s = .next u ∧ strictRun k u = some t := by
  simp only [strictRun]
  split
  · next hs => cases step s <;> simp [hs]
  · next hs => simp [hs]

/-- Settles O57: by induction on the steps; a state on the way has recorded nothing because the next one has not. -/
theorem strictRunsAreTheRunsWithoutUnwrittenUse : Obligations.StrictRunsAreTheRunsWithoutUnwrittenUse := by
  intro k
  induction k with
  | zero =>
    intro s t
    rw [strictRun_zero_iff]
    constructor
    · rintro ⟨rfl, hs⟩
      exact ⟨rfl, hs⟩
    · rintro ⟨hr, hs⟩
      cases hr
      exact ⟨rfl, hs⟩
  | succ k ih =>
    intro s t
    rw [strictRun_succ_iff]
    constructor
    · rintro ⟨-, u, hu, h⟩
      rw [core_run_succ hu]
      exact (ih u t).1 h
    · rintro ⟨hr, ht⟩
      obtain ⟨u, hu, hr⟩ := core_run_succ_cases hr
      have h := (ih u t).2 ⟨hr, ht⟩
      exact ⟨step_keeps_none_recorded hu (unwrittenUse_of_strictRun h), u, hu, h⟩

end Sys2Proof.Machine
end

section
/-! PROOFS. Issue, the unit under a command in flight, and reset (70_reset_and_hazards.md R240 to R242, R251 to R255): what a CMD write
records, what host accesses leave alone until the completion, and what the completion runs. -/

namespace Sys2Proof.Machine

variable {s t : State}

/-! ### Issue -/

/-- Settles O15: while BUSY = 1 the CMD write is dropped; otherwise it is the issue, whose record is `State.capture`. -/
theorem issueRecordsOperands : Obligations.IssueRecordsOperands := by
  intro s c hr
  refine ⟨fun hb => ?_, fun hb => ?_⟩
  · refine ⟨s.dropWrite, ?_, rfl⟩
    rw [State.hostWrite_ok accessOk_offCmd hr, windowReg_offCmd, State.writeWindow_guarded_busy hb rfl]
  · refine ⟨_, s.capture c, State.hostWrite_offCmd hb hr c, rfl, s.capture_word c, ?_, ?_, ?_⟩
    · rintro rd rs1 rs2 (rfl | rfl | rfl) <;> simp
    · rintro rs1 rfl
      simp
    · rintro rd rfl
      simp +contextual

/-- Settles O47: the issue takes the record, and the completion's meaning on it is `exec_issue`. -/
theorem issueAndCompletionAreExec : Obligations.IssueAndCompletionAreExec := by
  rintro s i ⟨hb, hi, hr⟩
  obtain ⟨u, hu⟩ := exec_next i s
  refine ⟨_, u, State.hostWrite_offCmd hb hr _, hu, ?_⟩
  have hunit : (s.issue (encode i)).unitStep = (s.issue (encode i)).complete (s.capture (encode i)) :=
    State.unitStep_of_inflight hr rfl rfl
  rw [State.onEvent, hunit, State.complete, State.capture_word, decode_encode, State.issue_unwrittenUse]
  exact exec_issue i hi hu

/-! ### Completion -/

/-- A legal word completes with its command's meaning. R252. -/
theorem State.complete_legal {f : InFlight} {i : Instr} (h : decode f.word = .ok i) : s.complete f = exec i s := by
  simp [State.complete, h]

/-- With a command in flight, a step at a completion event or at an empty port is that command's completion. R252, R258. -/
theorem step_of_inflight {f : InFlight} (hr : s.rst = false) (hb : s.status.busy = true) (hf : s.inflight = some f) :
    (∀ rest, s.port = .completion :: rest → step s = ({ s with port := rest } : State).complete f)
      ∧ (s.port = [] → step s = s.complete f) :=
  ⟨fun rest hp => (step_of_port_cons hp).trans (State.unitStep_of_inflight (s := { s with port := rest }) hr hb hf),
    fun hp => (step_of_port_nil hp).trans (State.unitStep_of_inflight hr hb hf)⟩

/-- Settles O45: the step is the completion, of a legal word by `State.complete_legal`, of an illegal one by `State.complete_illegal`. -/
theorem stepRunsTheDecodedCommand : Obligations.StepRunsTheDecodedCommand := by
  intro s f rest hr hb hf
  obtain ⟨hcons, hnil⟩ := step_of_inflight hr hb hf
  refine ⟨fun i hi => ⟨fun hp => (hcons rest hp).trans (State.complete_legal hi), fun hp => (hnil hp).trans (State.complete_legal hi)⟩,
    fun e he => ⟨fun hp => ?_, fun hp => ?_⟩⟩
  · exact ⟨_, (hcons rest hp).trans (State.complete_illegal he), State.finishIllegal_failedWith _⟩
  · exact ⟨_, (hnil hp).trans (State.complete_illegal he), s.finishIllegal_failedWith⟩

/-- A dropped write before a command's completion leaves the completion as it is, with DROP set beside it. R253. -/
theorem exec_dropWrite {i : Instr} (h : exec i s = .next t) : exec i s.dropWrite = .next t.dropWrite := by
  obtain ⟨rd, o, f, -, -, -, hf⟩ | ⟨-, f, hf⟩ := exec_of_record i <;> obtain rfl := Host.Outcome.next.inj ((hf s).symm.trans h)
  · have hrec : s.dropWrite.record i = s.record i := rfl
    rw [hf, hrec]
    cases f (s.record i) <;> rfl
  · exact hf _

/-- The same for the command in flight, legal or not. R253. -/
theorem State.complete_dropWrite {f : InFlight} (h : s.complete f = .next t) : s.dropWrite.complete f = .next t.dropWrite := by
  rcases State.complete_cases h with ⟨i, hi, h⟩ | ⟨⟨e, he⟩, rfl⟩
  · exact (State.complete_legal hi).trans (exec_dropWrite h)
  · exact State.complete_illegal he

/-! ### Host accesses while BUSY = 1 -/

/-- Settles O18: a write to a register that BUSY guards is `State.dropWrite`, which `State.complete_dropWrite` carries past the
completion; the others are as always. -/
theorem writeWhileBusyIsDropped : Obligations.WriteWhileBusyIsDropped := by
  intro s off v hb hr h8
  have hw : s.hostWrite off 8 v = .next (s.writeWindow (windowReg off) v) := State.hostWrite_ok (accessOk_of_aligned h8) hr
  refine ⟨fun hreg => ?_, fun h => ?_, fun h => ?_, fun h => ?_⟩
  · have hg : (windowReg off).guarded = true := by
      rcases hreg with h | h | ⟨n, h⟩ | ⟨n, h⟩ | ⟨k, h⟩ <;> rw [h] <;> rfl
    rw [hw, State.writeWindow_guarded_busy hb hg]
    exact ⟨rfl, fun f t h => State.complete_dropWrite h⟩
  all_goals rw [hw, h]; rfl

/-- Under a command in flight a host write changes bits of STATUS beside BUSY and ERR, or IE, and nothing else. R253, R255. -/
theorem State.writeWindow_busy (hb : s.status.busy = true) (r : WindowReg) (v : Word) :
    ∃ st ie, s.writeWindow r v = { s with status := st, ie := ie } ∧ st.busy = true ∧ st.err = s.status.err := by
  cases hg : r.guarded with
  | true => exact ⟨s.status.dropped, s.ie, State.writeWindow_guarded_busy hb hg v, hb, rfl⟩
  | false =>
    cases r with
    | status => exact ⟨s.status.writeOneToClear v, s.ie, rfl, hb, rfl⟩
    | ctrl => exact ⟨s.status, v.getLsbD 0, rfl, hb, rfl⟩
    | reserved => exact ⟨s.status, s.ie, rfl, hb, rfl⟩
    | _ => cases hg

/-- Settles O19: a read changes the observation and the run's record alone, a write what `State.writeWindow_busy` says. -/
theorem hostAccessesLeaveTheCommandAlone : Obligations.HostAccessesLeaveTheCommandAlone := by
  intro s t e hb hacc he
  cases e with
  | completion | rst => cases hacc
  | read off width =>
    obtain ⟨-, ⟨hr, rfl⟩ | ⟨-, rfl⟩⟩ := State.hostRead_cases he
    · exact ⟨rfl, rfl, rfl, rfl, hb, rfl, fun h => nomatch hr.symm.trans h⟩
    · refine ⟨rfl, rfl, rfl, rfl, hb, rfl, ?_⟩
      rintro - _ _ ⟨⟩
      rfl
  | write off width v =>
    obtain ⟨-, ⟨-, rfl⟩ | ⟨-, rfl⟩⟩ := State.hostWrite_cases he
    · exact ⟨rfl, rfl, rfl, rfl, hb, rfl, fun _ _ _ h => nomatch h⟩
    · obtain ⟨st, ie, hw, hb', herr⟩ := State.writeWindow_busy hb (windowReg off) v
      rw [hw]
      exact ⟨rfl, rfl, rfl, rfl, hb', herr, fun _ _ _ h => nomatch h⟩

/-! ### Reset -/

/-- After reset nothing counts as written. R241, R243. -/
theorem State.reset_isWritten (l : Loc) : State.reset.isWritten l = false := by
  cases l <;> simp [State.isWritten, DReg.reset]

/-- Settles O20: the fields of the reset state. -/
theorem resetValues : Obligations.ResetValues := ⟨by decide, by decide, rfl, rfl, rfl, State.reset_isWritten⟩

/-- Settles O21: the assertion is `State.enterReset`; under RST the accesses by `State.hostRead_rst` and `State.hostWrite_rst`, the
completion by `State.unitStep_of_rst`. -/
theorem resetInput : Obligations.ResetInput := by
  intro s
  refine ⟨⟨s.enterReset, rfl, rfl, rfl, rfl, rfl, rfl, State.reset_isWritten, rfl, rfl, rfl⟩, fun hr => ⟨fun off h8 => ?_, ?_⟩, _, rfl, rfl⟩
  · have ha := accessOk_of_aligned h8
    exact ⟨State.hostRead_rst ha hr, fun v => State.hostWrite_rst ha hr⟩
  · exact State.unitStep_of_rst hr

end Sys2Proof.Machine
end

section
/-! PROOFS. The schedule of fixed latencies (70_reset_and_hazards.md R250, R257, R258; 10_state.md R39): the latency of a word, the order
of the accesses in a schedule, and where it places a completion among reads. -/

namespace Sys2Proof.Machine

open Sys2Proof.Config

variable {l : Latencies} {k : Clock} {t : Nat}

/-! ### Latencies -/

@[simp] theorem latency_dadd (l : Latencies) (rd rs1 rs2 : DIx) : latency l (encode (.dadd rd rs1 rs2)) = l.add := by simp [latency]
@[simp] theorem latency_dsub (l : Latencies) (rd rs1 rs2 : DIx) : latency l (encode (.dsub rd rs1 rs2)) = l.sub := by simp [latency]
@[simp] theorem latency_dmul (l : Latencies) (rd rs1 rs2 : DIx) : latency l (encode (.dmul rd rs1 rs2)) = l.mul := by simp [latency]
@[simp] theorem latency_dparse (l : Latencies) (rd : DIx) : latency l (encode (.dparse rd)) = l.parse := by simp [latency]
@[simp] theorem latency_dfmt (l : Latencies) (rs1 : DIx) : latency l (encode (.dfmt rs1)) = l.fmt := by simp [latency]

theorem latency_illegal {c : Word} {e : DecodeError} (h : decode c = .error e) : latency l c = l.ill := by simp [latency, h]

/-! ### The order of the accesses -/

/-- An event is a completion in its cycle exactly if it is one as it stands. -/
theorem Clock.inCycle_eq_completion (k : Clock) (t : Nat) (e : PortEvent) : k.inCycle t e = .completion ↔ e = .completion := by
  cases e <;> simp [Clock.inCycle]

/-- What R39 takes out of a STATUS write in its cycle is the bit for DROP and no other. -/
theorem eraseDropBit_inCycle (k : Clock) (t : Nat) (e : PortEvent) : eraseDropBit (k.inCycle t e) = eraseDropBit e := by
  cases e with
  | write off width v =>
    by_cases hr : windowReg off = .status <;> by_cases hd : k.dropped = some t <;>
      simp [Clock.inCycle, eraseDropBit, withoutDropBit, hr, hd, BitVec.and_assoc]
  | read | completion | rst => rfl

/-- A port without its completions. -/
def withoutCompletions (es : List PortEvent) : List PortEvent := es.filter (· ≠ .completion)

theorem withoutCompletions_completion_cons (es : List PortEvent) : withoutCompletions (.completion :: es) = withoutCompletions es := rfl

theorem withoutCompletions_cons_of_ne {e : PortEvent} (h : e ≠ .completion) (es : List PortEvent) :
    withoutCompletions (e :: es) = e :: withoutCompletions es := List.filter_cons_of_pos (by simpa using h)

/-- Completions apart, the schedule is the access as it acts in its cycle, and then the schedule of the rest, on a clock with the same
note of dropped writes. -/
theorem withoutCompletions_timedPort_cons (l : Latencies) (k : Clock) (t : Nat) (e : PortEvent) (es : List (Nat × PortEvent)) :
    ∃ k', withoutCompletions (timedPort l k ((t, e) :: es)) = withoutCompletions (k.inCycle t e :: timedPort l (Clock.after l k' t e) es)
      ∧ k'.dropped = k.dropped := by
  simp only [timedPort]
  split
  · exact ⟨{ k with due := none }, withoutCompletions_completion_cons _, rfl⟩
  · exact ⟨k, rfl, rfl⟩

theorem withoutCompletions_timedPort_nil (l : Latencies) (k : Clock) : withoutCompletions (timedPort l k []) = [] := by
  simp only [timedPort]
  split <;> rfl

/-- The accesses of a schedule are those it was made from, in their order, but for the bit for DROP of STATUS writes. R39, R258. -/
theorem timedPort_keeps_order (l : Latencies) (k : Clock) (es : List (Nat × PortEvent)) :
    (withoutCompletions (timedPort l k es)).map eraseDropBit = (withoutCompletions (es.map Prod.snd)).map eraseDropBit := by
  induction es generalizing k with
  | nil => rw [withoutCompletions_timedPort_nil]; rfl
  | cons p es ih =>
    obtain ⟨t, e⟩ := p
    obtain ⟨k', h, -⟩ := withoutCompletions_timedPort_cons l k t e es
    rw [h, List.map_cons]
    by_cases hc : e = .completion
    · rw [hc]
      exact ih _
    · rw [withoutCompletions_cons_of_ne (mt (k.inCycle_eq_completion t e).1 hc), withoutCompletions_cons_of_ne hc, List.map_cons,
        List.map_cons, eraseDropBit_inCycle, ih]

/-- The clock's last dropped write is the one it had, or of this cycle, or none. -/
theorem Clock.after_dropped (l : Latencies) (k : Clock) (t : Nat) (e : PortEvent) :
    (k.after l t e).dropped = k.dropped ∨ (k.after l t e).dropped = some t ∨ (k.after l t e).dropped = none := by
  cases e with
  | write off width v => simp only [Clock.after]; split_ifs <;> simp
  | rst asserted => cases asserted <;> simp [Clock.after]
  | read | completion => exact .inl rfl

/-- With stamps that increase, after the clock's last dropped write, the accesses of a schedule are those it was made from, word for
word. R258. -/
theorem timedPort_keeps_words {es : List (Nat × PortEvent)} {k : Clock} (hk : ∀ p ∈ es, k.dropped ≠ some p.1)
    (hes : (es.map Prod.fst).Pairwise (· < ·)) : withoutCompletions (timedPort l k es) = withoutCompletions (es.map Prod.snd) := by
  induction es generalizing k with
  | nil => exact withoutCompletions_timedPort_nil l k
  | cons p es ih =>
    obtain ⟨t, e⟩ := p
    obtain ⟨hlt, hes⟩ := List.pairwise_cons.1 hes
    obtain ⟨k', h, hd⟩ := withoutCompletions_timedPort_cons l k t e es
    have hafter : ∀ p ∈ es, (k'.after l t e).dropped ≠ some p.1 := by
      intro p hp heq
      have hne : t ≠ p.1 := Nat.ne_of_lt (hlt _ (List.mem_map_of_mem hp))
      rcases k'.after_dropped l t e with h' | h' | h' <;> rw [heq] at h'
      · exact hk p (List.mem_cons_of_mem _ hp) (hd ▸ h'.symm)
      · exact hne (Option.some.inj h').symm
      · cases h'
    rw [h, Clock.inCycle_of_none_dropped (hk (t, e) List.mem_cons_self), List.map_cons]
    by_cases hc : e = .completion
    · rw [hc] at hafter ⊢
      exact ih hafter hes
    · rw [withoutCompletions_cons_of_ne hc, withoutCompletions_cons_of_ne hc, ih hafter hes]

/-! ### The completion among reads -/

/-- Reads with their stamps. -/
def stampedReads (ps : List (Nat × Offset)) : List (Nat × PortEvent) := ps.map fun p => (p.1, rd8 p.2)

/-- With no command in flight reads are scheduled as they stand. -/
theorem timedPort_reads_of_idle (hk : k.due = none) (ps : List (Nat × Offset)) :
    timedPort l k (stampedReads ps) = ps.map fun p => rd8 p.2 := by
  induction ps with
  | nil => simp [stampedReads, timedPort, hk]
  | cons p ps ih => simpa [stampedReads, timedPort, Clock.passed, hk, Clock.inCycle, Clock.after, rd8] using ih

/-- Reads up to the cycle of the completion come before it. R258 (log 12). -/
theorem timedPort_reads_early {c : Nat} (hk : k.due = some c) {ps : List (Nat × Offset)} (hps : ∀ p ∈ ps, p.1 ≤ c)
    (es : List (Nat × PortEvent)) : timedPort l k (stampedReads ps ++ es) = ps.map (fun p => rd8 p.2) ++ timedPort l k es := by
  induction ps with
  | nil => rfl
  | cons p ps ih =>
    obtain ⟨hp, hps⟩ := List.forall_mem_cons.1 hps
    exact (timedPort_cons_of_due hk hp (rd8 p.2) _).trans (congrArg (rd8 p.2 :: ·) (ih hps))

/-- Reads after the cycle of the completion come after it. R258. -/
theorem timedPort_reads_late {c : Nat} (hk : k.due = some c) {ps : List (Nat × Offset)} (hps : ∀ p ∈ ps, c < p.1) :
    timedPort l k (stampedReads ps) = .completion :: ps.map fun p => rd8 p.2 := by
  cases ps with
  | nil => exact timedPort_nil_of_due hk
  | cons p ps =>
    have hpass : k.passed p.1 = true := by simpa [Clock.passed, hk] using hps p List.mem_cons_self
    have hrest := timedPort_reads_of_idle (l := l) (k := { k with due := none }) rfl ps
    calc timedPort l k (stampedReads (p :: ps))
        = .completion :: rd8 p.2 :: timedPort l { k with due := none } (stampedReads ps) := if_pos hpass
      _ = .completion :: (p :: ps).map fun p => rd8 p.2 := by rw [hrest, List.map_cons]

/-- A CMD write to a unit with nothing in flight starts its latency. R250, R251. -/
theorem timedPort_issue (l : Latencies) (c : Word) (t : Nat) (es : List (Nat × PortEvent)) :
    timedPort l ⟨none, false, none⟩ ((t, wr8 offCmd c) :: es)
      = wr8 offCmd c :: timedPort l ⟨some (t + latency l c), false, none⟩ es := by
  simp [timedPort, Clock.passed, Clock.inCycle, Clock.after, wr8]

/-- Settles O54: the latencies; the order by `timedPort_keeps_order` and `timedPort_keeps_words`; the completion between the early and
the late reads. -/
theorem timedScheduleOrder : Obligations.TimedScheduleOrder := by
  refine ⟨fun l rd rs1 rs2 => ⟨latency_dadd .., latency_dsub .., latency_dmul .., latency_dparse .., latency_dfmt ..⟩,
    fun l c e => latency_illegal, timedPort_keeps_order, fun l k es hk => timedPort_keeps_words fun p _ => by simp [hk],
    fun l c t early late hearly hlate => ?_⟩
  calc timedPort l ⟨none, false, none⟩ ((t, wr8 offCmd c) :: stampedReads (early ++ late))
      = wr8 offCmd c :: timedPort l ⟨some (t + latency l c), false, none⟩ (stampedReads early ++ stampedReads late) := by
        rw [timedPort_issue, stampedReads, List.map_append]; rfl
    _ = wr8 offCmd c :: early.map (fun p => rd8 p.2) ++ .completion :: late.map fun p => rd8 p.2 := by
        rw [timedPort_reads_early rfl hearly, timedPort_reads_late rfl hlate]; rfl

end Sys2Proof.Machine
end
